-- ==== Sys2Proof/Word.lean ====
section
/-! DEFINITION. The plain data types of the core: bytes, words, blocks and the cipher's 4x4 state
(spec/00_scope.md R3, spec/10_state.md R22). Helpers over them stand in Machine/Bytes.lean. -/

namespace Sys2Proof

/-- A byte, "the universal unit of all arithmetic" (R3). -/
abbrev Byte := BitVec 8

/-- A 32-bit word: host registers, key words, schedule words (R3). -/
abbrev Word := BitVec 32

/-- A block: exactly 16 bytes, byte 0 first (R3). -/
abbrev Block := Vector Byte 16

/-- The cipher's state `S[r][c]`: four rows of four bytes (R22). -/
abbrev Matrix4 := Vector (Vector Byte 4) 4

end Sys2Proof
end

