-- ==== Sys2Proof/Machine/Bytes.lean ====
section
/-! DEFINITION. Byte order and byte sequences (spec/20_memory.md R42 to R45, spec/00_scope.md section 7): words from
bytes and back, slices, blocks, and the column-major loading of the cipher's state. -/

namespace Sys2Proof.Machine

/-- `BE32(b0, b1, b2, b3)`: byte 0 is bits 31:24, byte 3 is bits 7:0 (R42, R45). -/
def be32 (b0 b1 b2 b3 : Byte) : Word := b0 ++ b1 ++ b2 ++ b3

/-- Byte `k` of a word, byte 0 first: bits `31 - 8k` down to `24 - 8k` (R42, R45). -/
def wordByte (w : Word) (k : Nat) : Byte := w.extractLsb' (24 - 8 * k) 8

/-- `Bytes(w)` (R45). -/
def wordBytes (w : Word) : List Byte := [wordByte w 0, wordByte w 1, wordByte w 2, wordByte w 3]

/-- `w` with its byte `k` (0 to 3) replaced by `b`. -/
def setWordByte (w : Word) (k : Nat) (b : Byte) : Word :=
  be32 (if k = 0 then b else wordByte w 0) (if k = 1 then b else wordByte w 1)
    (if k = 2 then b else wordByte w 2) (if k = 3 then b else wordByte w 3)

/-- `x[i..j]`: elements `i` to `j - 1` (00_scope.md section 7). -/
def slice (x : List Byte) (i j : Nat) : List Byte := (x.drop i).take (j - i)

/-- `Rep(b, n)`: n copies of byte b. -/
def rep (b : Byte) (n : Nat) : List Byte := List.replicate n b

/-- `Zeros(n)`: n bytes 0x00. -/
def zeros (n : Nat) : List Byte := rep 0 n

/-- The block whose byte `i` is byte `i` of the sequence (the sequences it is used on have 16 bytes). -/
def blockOf (x : List Byte) : Block := Vector.ofFn fun i => x.getD i.val 0

/-- `Block(m, j) = m[16j .. 16j+16]` (44_block_modes.md R172). -/
def blockAt (m : List Byte) (j : Nat) : Block := blockOf (slice m (16 * j) (16 * j + 16))

/-- The block of sixteen zero bytes, `Zeros(16)`. -/
def zeroBlock : Block := blockOf (zeros 16)

/-- `^` on blocks, byte by byte. -/
def xorBlock (a b : Block) : Block := Vector.ofFn fun i => a[i] ^^^ b[i]

/-- The 4x4 matrix with `f r c` at row `r`, column `c`. -/
def matrixOf (f : Fin 4 → Fin 4 → Byte) : Matrix4 :=
  Vector.ofFn fun r => Vector.ofFn fun c => f r c

/-- `ToState(b)`: byte `i` of the block is `S[i mod 4][i div 4]` (R43), so `S[r][c] = b[4c + r]`. -/
def toState (b : Block) : Matrix4 := matrixOf fun r c => b[4 * c.val + r.val]

/-- `FromState(S)`: `b[i] = S[i mod 4][i div 4]` (R44). -/
def fromState (s : Matrix4) : Block := Vector.ofFn fun i => s[i.val % 4][i.val / 4]

end Sys2Proof.Machine
end

