-- ==== Sys2Proof/Machine/Gf.lean ====
section
/-! DEFINITION. Arithmetic in GF(2^8) (spec/40_gf_sbox.md R90 to R94). -/

namespace Sys2Proof.Machine

/-- `Xtime(a)`: doubling in GF(2^8) with reduction byte 0x1B (R91). -/
def xtime (a : Byte) : Byte := if a.getLsbD 7 then (a <<< 1) ^^^ 0x1B#8 else a <<< 1

/-- The loop of `GfMul` over the bits of `b` from `i` on, `n` bits left: `d` is `a` doubled `i` times (R92). -/
def gfMulLoop (b : Byte) : (n i : Nat) → (d acc : Byte) → Byte
  | 0, _, _, acc => acc
  | n + 1, i, d, acc => gfMulLoop b n (i + 1) (xtime d) (if b.getLsbD i then acc ^^^ d else acc)

/-- `GfMul(a, b)` (R92). -/
def gfMul (a b : Byte) : Byte := gfMulLoop b 8 0 a 0

end Sys2Proof.Machine
end

