-- ==== Sys2Proof/Machine/Transforms.lean ====
section
/-! DEFINITION. The state transforms (spec/41_state_transforms.md R110 to R116). Index arithmetic on `Fin 4` is
modulo 4, as the rules' `mod 4` is. -/

namespace Sys2Proof.Machine

/-- `SubBytes(S)` (R110). -/
def subBytes (s : Matrix4) : Matrix4 := matrixOf fun r c => sbox s[r][c]

/-- `InvSubBytes(S)` (R111). -/
def invSubBytes (s : Matrix4) : Matrix4 := matrixOf fun r c => invSbox s[r][c]

/-- `ShiftRows(S)`: `S'[r][c] = S[r][(c + r) mod 4]` (R112). -/
def shiftRows (s : Matrix4) : Matrix4 := matrixOf fun r c => s[r][c + r]

/-- `InvShiftRows(S)`: `S'[r][c] = S[r][(c + 4 - r) mod 4]` (R113). -/
def invShiftRows (s : Matrix4) : Matrix4 := matrixOf fun r c => s[r][c - r]

/-- The matrix M of MixColumns (R114). -/
def mixMatrix : Matrix4 :=
  #v[#v[0x02, 0x03, 0x01, 0x01],
     #v[0x01, 0x02, 0x03, 0x01],
     #v[0x01, 0x01, 0x02, 0x03],
     #v[0x03, 0x01, 0x01, 0x02]]

/-- The matrix MI of InvMixColumns (R115). -/
def invMixMatrix : Matrix4 :=
  #v[#v[0x0e, 0x0b, 0x0d, 0x09],
     #v[0x09, 0x0e, 0x0b, 0x0d],
     #v[0x0d, 0x09, 0x0e, 0x0b],
     #v[0x0b, 0x0d, 0x09, 0x0e]]

/-- The product over GF(2^8) of a matrix with every column of the state (R114, R115). -/
def matrixProduct (m s : Matrix4) : Matrix4 := matrixOf fun r c =>
  gfMul m[r][0] s[0][c] ^^^ gfMul m[r][1] s[1][c] ^^^ gfMul m[r][2] s[2][c] ^^^ gfMul m[r][3] s[3][c]

/-- `MixColumns(S)` (R114). -/
def mixColumns (s : Matrix4) : Matrix4 := matrixProduct mixMatrix s

/-- `InvMixColumns(S)` (R115). -/
def invMixColumns (s : Matrix4) : Matrix4 := matrixProduct invMixMatrix s

/-- `AddRoundKey(S, W, round)`: byte r of word `W[4*round + c]` meets `S[r][c]` (R116). The words used always lie in
the schedule (R150, R151); a position past its end would read 0. -/
def addRoundKey (s : Matrix4) (w : List Word) (round : Nat) : Matrix4 := matrixOf fun r c =>
  s[r][c] ^^^ wordByte (w.getD (4 * round + c.val) 0) r.val

end Sys2Proof.Machine
end

