-- ==== Sys2Proof/Config.lean ====
section
/-! DEFINITION. What one implementation of the core fixes (spec/00_scope.md R4: BUF_CAP, PAD_STRICT) and the one
free value of the model: what the working registers hold where the spec leaves them unspecified
(spec/10_state.md R27, R29; spec/70_reset_and_hazards.md R261; spec/93_implementation_defined.md U7, U13). -/

namespace Sys2Proof

/-- The two parameters "that no source fixes" (R4). A core carries its own pair, and no step changes it. -/
structure Config where
  /-- `BUF_CAP`: capacity in bytes of DIN and of DOUT; `Config.wf` holds its legal range. -/
  bufCap : Nat
  /-- `PAD_STRICT`: whether padding removal checks every padding byte (R171). -/
  padStrict : Bool
deriving DecidableEq, Repr

/-- The values R4 suggests: BUF_CAP 4096, PAD_STRICT false. -/
def Config.standard : Config := { bufCap := 4096, padStrict := false }

/-- The registers "written and read only by the core during a command" (R21 to R25), whose contents
"between commands are unspecified and unobservable" (R27). -/
structure Working where
  /-- `W[0..59]`, the key schedule register file (R21). -/
  w : Vector Word 60
  /-- `S[r][c]`, the state (R22). -/
  s : Matrix4
  /-- `CHAIN[0..15]`, chain value or CMAC accumulator (R23). -/
  chain : Block
  /-- `LREG`, the encrypted all-zero block (R24). -/
  lreg : Block
  /-- `K1`, the first CMAC subkey (R24). -/
  k1 : Block
  /-- `K2`, the second CMAC subkey (R24). -/
  k2 : Block
  /-- `KI`, 0 to 59: the schedule word being derived (R25). -/
  ki : Nat
  /-- `BLK`, 0 to BUF_CAP div 16: the block in progress (R25). -/
  blk : Nat
  /-- `RND`, 0 to 14: the round in progress (R25). -/
  rnd : Nat
deriving DecidableEq, Repr, Inhabited

/-- FREE VALUE (log entry 1): what the working registers hold after the n-th event that leaves them
unspecified (a completion or a RESET). It has no body: nothing can be proved about it. -/
opaque Config.leftover : Nat → Working

end Sys2Proof
end

