-- ==== Sys2Proof/Syntax.lean ====
section
/-! DEFINITION. The 21 commands of spec/opcode_table.json: 7 operation modes (spec/30_encoding.md R61) times
3 key-length variants (R62). The operands are not in the command word (R60), so no constructor has fields. -/

namespace Sys2Proof

/-- The operation modes of R61, in its order. -/
inductive Mode where
  | encrypt | decrypt | ecbEncrypt | ecbDecrypt | cbcEncrypt | cbcDecrypt | cmac
deriving DecidableEq, Repr

/-- The key-length variants of R62, in its order. -/
inductive Variant where
  | aes128 | aes192 | aes256
deriving DecidableEq, Repr

/-- One constructor per row of the opcode table; each row's mnemonic is `<mode>.<variant>` (R74). -/
inductive Instr where
  | encryptAes128 | encryptAes192 | encryptAes256
  | decryptAes128 | decryptAes192 | decryptAes256
  | ecbEncryptAes128 | ecbEncryptAes192 | ecbEncryptAes256
  | ecbDecryptAes128 | ecbDecryptAes192 | ecbDecryptAes256
  | cbcEncryptAes128 | cbcEncryptAes192 | cbcEncryptAes256
  | cbcDecryptAes128 | cbcDecryptAes192 | cbcDecryptAes256
  | cmacAes128 | cmacAes192 | cmacAes256
deriving DecidableEq, Repr

/-- The mode of a command. -/
def Instr.mode : Instr → Mode
  | .encryptAes128 | .encryptAes192 | .encryptAes256 => .encrypt
  | .decryptAes128 | .decryptAes192 | .decryptAes256 => .decrypt
  | .ecbEncryptAes128 | .ecbEncryptAes192 | .ecbEncryptAes256 => .ecbEncrypt
  | .ecbDecryptAes128 | .ecbDecryptAes192 | .ecbDecryptAes256 => .ecbDecrypt
  | .cbcEncryptAes128 | .cbcEncryptAes192 | .cbcEncryptAes256 => .cbcEncrypt
  | .cbcDecryptAes128 | .cbcDecryptAes192 | .cbcDecryptAes256 => .cbcDecrypt
  | .cmacAes128 | .cmacAes192 | .cmacAes256 => .cmac

/-- The variant of a command. -/
def Instr.variant : Instr → Variant
  | .encryptAes128 | .decryptAes128 | .ecbEncryptAes128 | .ecbDecryptAes128
  | .cbcEncryptAes128 | .cbcDecryptAes128 | .cmacAes128 => .aes128
  | .encryptAes192 | .decryptAes192 | .ecbEncryptAes192 | .ecbDecryptAes192
  | .cbcEncryptAes192 | .cbcDecryptAes192 | .cmacAes192 => .aes192
  | .encryptAes256 | .decryptAes256 | .ecbEncryptAes256 | .ecbDecryptAes256
  | .cbcEncryptAes256 | .cbcDecryptAes256 | .cmacAes256 => .aes256

/-- The command of a mode and a variant, `<mode>.<variant>` (R74). -/
def Instr.of : Mode → Variant → Instr
  | .encrypt, .aes128 => .encryptAes128
  | .encrypt, .aes192 => .encryptAes192
  | .encrypt, .aes256 => .encryptAes256
  | .decrypt, .aes128 => .decryptAes128
  | .decrypt, .aes192 => .decryptAes192
  | .decrypt, .aes256 => .decryptAes256
  | .ecbEncrypt, .aes128 => .ecbEncryptAes128
  | .ecbEncrypt, .aes192 => .ecbEncryptAes192
  | .ecbEncrypt, .aes256 => .ecbEncryptAes256
  | .ecbDecrypt, .aes128 => .ecbDecryptAes128
  | .ecbDecrypt, .aes192 => .ecbDecryptAes192
  | .ecbDecrypt, .aes256 => .ecbDecryptAes256
  | .cbcEncrypt, .aes128 => .cbcEncryptAes128
  | .cbcEncrypt, .aes192 => .cbcEncryptAes192
  | .cbcEncrypt, .aes256 => .cbcEncryptAes256
  | .cbcDecrypt, .aes128 => .cbcDecryptAes128
  | .cbcDecrypt, .aes192 => .cbcDecryptAes192
  | .cbcDecrypt, .aes256 => .cbcDecryptAes256
  | .cmac, .aes128 => .cmacAes128
  | .cmac, .aes192 => .cmacAes192
  | .cmac, .aes256 => .cmacAes256

end Sys2Proof
end

