-- ==== Sys2Proof/Machine/KeySchedule.lean ====
section
/-! DEFINITION. The variants' parameters (spec/00_scope.md R2) and the key schedule expander
(spec/42_key_schedule.md R130 to R133). -/

namespace Sys2Proof

/-- Nk, the key length in words (R2, R62). -/
def Variant.nk : Variant → Nat
  | .aes128 => 4
  | .aes192 => 6
  | .aes256 => 8

/-- Nr, the number of rounds (R2, R62). -/
def Variant.nr : Variant → Nat
  | .aes128 => 10
  | .aes192 => 12
  | .aes256 => 14

/-- 4·Nk, the number of key bytes (R2). -/
def Variant.keyBytes (v : Variant) : Nat := 4 * v.nk

/-- 4·(Nr+1), the number of schedule words (R2). -/
def Variant.scheduleWords (v : Variant) : Nat := 4 * (v.nr + 1)

namespace Machine

/-- `RotWord(w)` (R130). -/
def rotWord (w : Word) : Word := be32 (wordByte w 1) (wordByte w 2) (wordByte w 3) (wordByte w 0)

/-- `SubWord(w)` (R131). -/
def subWord (w : Word) : Word :=
  be32 (sbox (wordByte w 0)) (sbox (wordByte w 1)) (sbox (wordByte w 2)) (sbox (wordByte w 3))

/-- What the body of the second loop of R132 makes of `temp = W[i-1]`. -/
def scheduleTemp (nk i : Nat) (temp : Word) : Word :=
  if i % nk = 0 then subWord (rotWord temp) ^^^ ((rcon (i / nk - 1)).setWidth 32 <<< 24)
  else if nk = 8 ∧ i % nk = 4 then subWord temp
  else temp

/-- `W[i]` for `i >= Nk` from the words before it (R132). -/
def scheduleWord (nk : Nat) (w : List Word) (i : Nat) : Word :=
  w.getD (i - nk) 0 ^^^ scheduleTemp nk i (w.getD (i - 1) 0)

/-- `W[0..Nk]`: the key itself, big-endian per word (R132). -/
def keyWords (key : List Byte) (nk : Nat) : List Word := (List.range nk).map fun i =>
  be32 (key.getD (4 * i) 0) (key.getD (4 * i + 1) 0) (key.getD (4 * i + 2) 0) (key.getD (4 * i + 3) 0)

/-- Appends the next `n` words, each once and in increasing index order (R132, R133). -/
def extendSchedule (nk : Nat) (w : List Word) : Nat → List Word
  | 0 => w
  | n + 1 => extendSchedule nk (w ++ [scheduleWord nk w w.length]) n

/-- `ExpandKey(key, Nk, Nr)`: the 4·(Nr+1) schedule words (R132). -/
def expandKey (key : List Byte) (nk nr : Nat) : List Word :=
  extendSchedule nk (keyWords key nk) (4 * (nr + 1) - nk)

end Machine

end Sys2Proof
end

