-- ==== Sys2Proof/Machine/BlockCipher.lean ====
section
/-! DEFINITION. The block cipher engine (spec/43_block_cipher.md R150, R151). The single rounds are named, since the
sequencer of Machine/Sequencer.lean takes them one at a time. -/

namespace Sys2Proof.Machine

/-- One of the rounds 1 to Nr-1 of the cipher (R150). -/
def cipherRound (s : Matrix4) (w : List Word) (round : Nat) : Matrix4 :=
  addRoundKey (mixColumns (shiftRows (subBytes s))) w round

/-- The final round of the cipher, without MixColumns (R150). -/
def cipherFinal (s : Matrix4) (w : List Word) (round : Nat) : Matrix4 :=
  addRoundKey (shiftRows (subBytes s)) w round

/-- Rounds 1 to n of the cipher, in this order (R150). -/
def cipherRounds (s : Matrix4) (w : List Word) : Nat → Matrix4
  | 0 => s
  | n + 1 => cipherRound (cipherRounds s w n) w (n + 1)

/-- `Cipher(block, W, Nr)` (R150). -/
def cipher (block : Block) (w : List Word) (nr : Nat) : Block :=
  fromState (cipherFinal (cipherRounds (addRoundKey (toState block) w 0) w (nr - 1)) w nr)

/-- One of the rounds Nr-1 to 1 of the inverse cipher: AddRoundKey before InvMixColumns (R151). -/
def invCipherRound (s : Matrix4) (w : List Word) (round : Nat) : Matrix4 :=
  invMixColumns (addRoundKey (invSubBytes (invShiftRows s)) w round)

/-- The last step of the inverse cipher, without InvMixColumns (R151). -/
def invCipherFinal (s : Matrix4) (w : List Word) (round : Nat) : Matrix4 :=
  addRoundKey (invSubBytes (invShiftRows s)) w round

/-- Rounds n down to 1 of the inverse cipher, in this order (R151). -/
def invCipherRounds (s : Matrix4) (w : List Word) : Nat → Matrix4
  | 0 => s
  | n + 1 => invCipherRounds (invCipherRound s w (n + 1)) w n

/-- `InvCipher(block, W, Nr)` (R151). -/
def invCipher (block : Block) (w : List Word) (nr : Nat) : Block :=
  fromState (invCipherFinal (invCipherRounds (addRoundKey (toState block) w nr) w (nr - 1)) w 0)

end Sys2Proof.Machine
end

