-- ==== Sys2Proof/WellFormed.lean ====
section
/-! DEFINITION. What is well formed: the three fields of a command word (spec/30_encoding.md R60, R63) and the
parameters of a core (spec/00_scope.md R4). A command has no operand fields (R60), so every `Instr` is well formed. -/

namespace Sys2Proof

/-- A command word taken apart (R60): OP in bits 3:0, KSEL in bits 5:4, RSVD in bits 31:6. -/
structure CommandFields where
  op   : BitVec 4
  ksel : BitVec 2
  rsvd : BitVec 26
deriving DecidableEq, Repr

/-- RSVD "must be 0" (R60, R63). -/
def CommandFields.rsvdOk (f : CommandFields) : Bool := f.rsvd == 0

/-- OP names a mode: 0 and 8 to 15 are reserved (R61, R63). -/
def CommandFields.opOk (f : CommandFields) : Bool := 1 ≤ f.op.toNat && f.op.toNat ≤ 7

/-- KSEL names a variant: 3 is reserved (R62, R63). -/
def CommandFields.kselOk (f : CommandFields) : Bool := f.ksel.toNat ≤ 2

/-- The word is one of the 21 legal ones (R63). -/
def CommandFields.wf (f : CommandFields) : Bool := f.rsvdOk && f.opOk && f.kselOk

/-- A command carries no operand of its own (R60), so there is nothing to check. -/
def Instr.wf (_ : Instr) : Bool := true

/-- BUF_CAP is a multiple of 16 (R4). -/
def Config.bufCapAligned (c : Config) : Bool := c.bufCap % 16 == 0

/-- 32 <= BUF_CAP <= 65536 (R4). -/
def Config.bufCapInRange (c : Config) : Bool := 32 ≤ c.bufCap && c.bufCap ≤ 65536

/-- The parameters are ones R4 allows (PAD_STRICT is any Boolean). -/
def Config.wf (c : Config) : Bool := c.bufCapAligned && c.bufCapInRange

end Sys2Proof
end

