-- ==== Sys2Proof/Decode.lean ====
section
/-! DEFINITION. The command word (spec/30_encoding.md R60 to R64): the decoder, total on every word and on every byte
sequence, which rejects by name, and after it the encoder, written from the tables of R61 and R62. -/

namespace Sys2Proof

/-- Why a word is no legal command (R63); `truncated` is for a byte sequence shorter than one word. -/
inductive DecodeError where
  /-- RSVD is not 0. -/
  | reservedBits
  /-- OP is 0 or 8 to 15. -/
  | reservedOp
  /-- KSEL is 3. -/
  | reservedKsel
  /-- Fewer than four bytes are left. -/
  | truncated
deriving DecidableEq, Repr

/-- The fields of a command word (R60). -/
def fieldsOfWord (w : Word) : CommandFields :=
  { op := w.extractLsb' 0 4, ksel := w.extractLsb' 4 2, rsvd := w.extractLsb' 6 26 }

/-- The mode OP selects (R61). -/
def modeOfOp (op : BitVec 4) : Option Mode :=
  match op.toNat with
  | 1 => some .encrypt
  | 2 => some .decrypt
  | 3 => some .ecbEncrypt
  | 4 => some .ecbDecrypt
  | 5 => some .cbcEncrypt
  | 6 => some .cbcDecrypt
  | 7 => some .cmac
  | _ => none

/-- The variant KSEL selects (R62). -/
def variantOfKsel (ksel : BitVec 2) : Option Variant :=
  match ksel.toNat with
  | 0 => some .aes128
  | 1 => some .aes192
  | 2 => some .aes256
  | _ => none

/-- `Decode(cmd)` (R64), with the reason where the word is illegal, tested in R64's order. -/
def decodeWord (w : Word) : Except DecodeError Instr :=
  let f := fieldsOfWord w
  if f.rsvd ≠ 0 then .error .reservedBits
  else
    match modeOfOp f.op, variantOfKsel f.ksel with
    | none, _ => .error .reservedOp
    | some _, none => .error .reservedKsel
    | some m, some v => .ok (Instr.of m v)

/-- The decoder on bytes: one command is one word of four bytes, packed big-endian (R42, R60). -/
def decode : List Byte → Except DecodeError (Instr × List Byte)
  | b0 :: b1 :: b2 :: b3 :: rest =>
    match decodeWord (Machine.be32 b0 b1 b2 b3) with
    | .ok i => .ok (i, rest)
    | .error e => .error e
  | _ => .error .truncated

/-- The instruction the decoder reads from a table word: its bits above `nbits` are 0, and a command has 32. -/
def decodeTableWord (nbits w : Nat) : Option Instr :=
  if w % 2 ^ nbits < 2 ^ 32 then
    match decode (Machine.wordBytes (BitVec.ofNat 32 (w % 2 ^ nbits))) with
    | .ok (i, _) => some i
    | .error _ => none
  else none

/-- The number of a mode (R61). -/
def Mode.op : Mode → BitVec 4
  | .encrypt => 1
  | .decrypt => 2
  | .ecbEncrypt => 3
  | .ecbDecrypt => 4
  | .cbcEncrypt => 5
  | .cbcDecrypt => 6
  | .cmac => 7

/-- The number of a variant (R62). -/
def Variant.ksel : Variant → BitVec 2
  | .aes128 => 0
  | .aes192 => 1
  | .aes256 => 2

/-- The fields of a command's word (R60 to R62). -/
def Instr.fields (i : Instr) : CommandFields :=
  { op := i.mode.op, ksel := i.variant.ksel, rsvd := 0 }

/-- The word with the given fields (R60). -/
def CommandFields.word (f : CommandFields) : Word := f.rsvd ++ f.ksel ++ f.op

/-- The legal command word of an instruction, `KSEL << 4 | OP` (R62). -/
def encodeWord (i : Instr) : Word := i.fields.word

/-- The encoder on bytes, the word's four bytes big-endian. -/
def encode (i : Instr) : List Byte := Machine.wordBytes (encodeWord i)

end Sys2Proof
end

