-- ==== Sys2Proof/Machine/State.lean ====
section
/-! DEFINITION. The state of one core with the host that drives it, as plain data (spec/10_state.md), and the state
after reset (R29). INVENTORY.md lists every piece with its rule and its reset value. -/

namespace Sys2Proof.Machine

/-- A byte memory: pairs of index and byte, in the canonical form `Memory.wf` of Machine/Memory.lean
(indices strictly rising, no entry equal to what an unlisted index reads as). -/
abbrev Memory := List Host.Cell

/-- Why a step stops with a fault. -/
inductive Fault where
  /-- A host access outside the 0x30000 byte offsets of REG (R40), raised by `access`. Safe: the core is not
  reached by such an access and the spec gives it no effect. -/
  | outsideReg (offset : Nat)
deriving DecidableEq, Repr

/-- Why a step is refused. -/
inductive Refusal where
  /-- An instruction without a meaning. No arm of `exec` raises it: every row of the table has its meaning. Safe. -/
  | notModelled (mnemonic : String)
  /-- A host access of another width than 32 bits (R46: "has no defined effect; a model refuses it"), raised by
  `access`. Safe. -/
  | accessWidth (bytes : Nat)
  /-- A 32-bit host access at an offset that is no multiple of 4 (R46), raised by `access`. Safe. -/
  | misaligned (offset : Nat)
deriving DecidableEq, Repr

/-- The four error classes (60_exceptions.md R220). -/
inductive ErrClass where
  | format | length | padding | illegal
deriving DecidableEq, Repr

/-- What `Execute` and the command functions answer (30_encoding.md R66): an output, or an error and no output. -/
inductive Result where
  | ok (out : List Byte)
  | error (c : ErrClass)
deriving DecidableEq, Repr

/-- The values of the sequencer's PHASE (R25). -/
inductive Phase where
  | idle | check | expand | subkeys | blocks | strip
deriving DecidableEq, Repr

/-- One access of the host to REG: an offset, a width in bytes (the spec defines width 4 only, R46) and, for a
write, the value. -/
inductive Access where
  | read (offset width : Nat)
  | write (offset width : Nat) (value : Word)
deriving DecidableEq, Repr

/-- Who acts next, and how. The list `State.turns` is the schedule of the two agents of R50 and the reset input of
R260, as plain data (log entry 2): any interleaving the spec allows is some value of the list. -/
inductive Turn where
  /-- The host's next access takes effect. -/
  | host (a : Access)
  /-- The reset input is asserted (R260). -/
  | reset
  /-- The core takes its completion step (R52), if it is busy. -/
  | core
  /-- The core's sequencer moves one step inside the command (R25), if it is busy: nothing the host can see. -/
  | advance
deriving DecidableEq, Repr

/-- One core and its host. -/
structure State where
  /-- The parameters of this core; CAP reads `cfg.bufCap` (R16). No step changes them. -/
  cfg : Config
  /-- CMD (R11). -/
  cmd : Word
  /-- STATUS (R12); its fields are in Machine/Flags.lean. -/
  status : Word
  /-- KEY_LEN (R13). -/
  keyLen : Word
  /-- DIN_LEN (R14). -/
  dinLen : Word
  /-- DOUT_LEN (R15). -/
  doutLen : Word
  /-- KEY0 to KEY7 (R17). -/
  key : Vector Word 8
  /-- IV0 to IV3 (R18). -/
  iv : Vector Word 4
  /-- The buffer DIN (R19), by byte index. -/
  din : Memory
  /-- The buffer DOUT (R20), by byte index. -/
  dout : Memory
  /-- PHASE (R25). -/
  phase : Phase
  /-- W, S, CHAIN, LREG, K1, K2, KI, BLK, RND (R21 to R25). -/
  work : Working
  /-- The model's own: the output bytes the sequencer has produced so far for the command in progress (log entry 3). -/
  staged : List Byte
  /-- The model's own: the result the sequencer has reached and the completion has not yet shown (log entry 3). -/
  settled : Option Result
  /-- The model's own: index of the next free value `Config.leftover` (log entry 1). -/
  freeIndex : Nat
  /-- The model's own: the schedule still to come, first turn first (log entry 2). -/
  turns : List Turn
  /-- The host's own: the values its reads returned, last read first (R75). -/
  replies : List Word
deriving DecidableEq, Repr

/-- The working registers after reset. The spec leaves them unspecified (R29); zero is a DESIGN CHOICE
(log entry 4); only the counters' clause of TheInvariantHoldsAfterReset rests on it. -/
def resetWorking : Working :=
  { w := Vector.replicate 60 0, s := Vector.replicate 4 (Vector.replicate 4 0), chain := Vector.replicate 16 0,
    lreg := Vector.replicate 16 0, k1 := Vector.replicate 16 0, k2 := Vector.replicate 16 0, ki := 0, blk := 0, rnd := 0 }

/-- The core right after reset (R29), with the parameters R4 suggests and a host that has issued nothing. -/
def State.reset : State :=
  { cfg := Config.standard, cmd := 0, status := 0, keyLen := 0, dinLen := 0, doutLen := 0,
    key := Vector.replicate 8 0, iv := Vector.replicate 4 0, din := [], dout := [], phase := .idle,
    work := resetWorking, staged := [], settled := none, freeIndex := 0, turns := [], replies := [] }

end Sys2Proof.Machine
end

