-- ==== Sys2Proof/Machine/Modes.lean ====
section
/-! DEFINITION. Padding and the four mode functions (spec/44_block_modes.md R170 to R176). -/

namespace Sys2Proof.Machine

/-- The padding count `p = 16 - (len(m) mod 16)`, 1 to 16 (R170). -/
def padCount (n : Nat) : Nat := 16 - n % 16

/-- `Pad(m)`: p bytes of value p, always added (R170). -/
def pad (m : List Byte) : List Byte := m ++ rep (BitVec.ofNat 8 (padCount m.length)) (padCount m.length)

/-- The length after padding, `16·(n div 16) + 16` (R170). -/
def paddedLength (n : Nat) : Nat := 16 * (n / 16) + 16

/-- `Unpad(m)` for a sequence of non-zero length (R171); `strict` is PAD_STRICT. -/
def unpad (strict : Bool) (m : List Byte) : Result :=
  let p := m.getD (m.length - 1) 0
  if p.toNat < 1 ∨ p.toNat > 16 then .error .padding
  else if strict && (m.drop (m.length - p.toNat)).any (fun b => b != p) then .error .padding
  else .ok (slice m 0 (m.length - p.toNat))

/-- The n blocks of a sequence, each put through `f`, in block order, concatenated (R172 to R174, R57). -/
def mapBlocks (f : Block → Block) (m : List Byte) (n : Nat) : List Byte :=
  (List.range n).flatMap fun j => (f (blockAt m j)).toList

/-- `EcbEncrypt(m, W, Nr)` (R173). -/
def ecbEncrypt (m : List Byte) (w : List Word) (nr : Nat) : List Byte :=
  let q := pad m
  mapBlocks (fun b => cipher b w nr) q (q.length / 16)

/-- `EcbDecrypt(c, W, Nr)`: every block is decrypted before the padding is examined (R174). -/
def ecbDecrypt (strict : Bool) (c : List Byte) (w : List Word) (nr : Nat) : Result :=
  unpad strict (mapBlocks (fun b => invCipher b w nr) c (c.length / 16))

/-- The loop of `CbcEncrypt` from block j on, n blocks left, with the chain value (R175). -/
def cbcEncryptFrom (q : List Byte) (w : List Word) (nr : Nat) : (n j : Nat) → Block → List Byte
  | 0, _, _ => []
  | n + 1, j, chain =>
    let out := cipher (xorBlock (blockAt q j) chain) w nr
    out.toList ++ cbcEncryptFrom q w nr n (j + 1) out

/-- `CbcEncrypt(m, W, Nr, iv)` (R175). -/
def cbcEncrypt (m : List Byte) (w : List Word) (nr : Nat) (iv : Block) : List Byte :=
  let q := pad m
  cbcEncryptFrom q w nr (q.length / 16) 0 iv

/-- The loop of `CbcDecrypt` from block j on, n blocks left, with the chain value: the next chain value is the
ciphertext block (R176). -/
def cbcDecryptFrom (c : List Byte) (w : List Word) (nr : Nat) : (n j : Nat) → Block → List Byte
  | 0, _, _ => []
  | n + 1, j, chain =>
    (xorBlock (invCipher (blockAt c j) w nr) chain).toList ++ cbcDecryptFrom c w nr n (j + 1) (blockAt c j)

/-- `CbcDecrypt(c, W, Nr, iv)` (R176). -/
def cbcDecrypt (strict : Bool) (c : List Byte) (w : List Word) (nr : Nat) (iv : Block) : Result :=
  unpad strict (cbcDecryptFrom c w nr (c.length / 16) 0 iv)

end Sys2Proof.Machine
end

