-- ==== Sys2Proof/Machine/Flags.lean ====
section
/-! DEFINITION. The flags of the core: the fields of STATUS (spec/10_state.md R12) and the codes of the error classes
(spec/60_exceptions.md R220). There are no condition codes. -/

namespace Sys2Proof.Machine

/-- ERRCODE of an error class: 1 FORMAT, 2 LENGTH, 3 PADDING, 4 ILLEGAL (R220). -/
def ErrClass.code : ErrClass → Word
  | .format => 1
  | .length => 2
  | .padding => 3
  | .illegal => 4

/-- STATUS after reset: idle, nothing completed (R12). -/
def statusIdle : Word := 0x00000000

/-- STATUS while a command runs: BUSY (R12, R51). -/
def statusBusy : Word := 0x00000001

/-- STATUS after a successful command: DONE (R12, R52). -/
def statusDone : Word := 0x00000002

/-- STATUS after a failed command: `0x00000006 | (err << 8)` (R52, R226). -/
def statusError (c : ErrClass) : Word := (0x00000006 : Word) ||| (c.code <<< 8)

/-- STATUS.BUSY, bit 0. -/
def State.busy (s : State) : Bool := s.status.getLsbD 0

/-- STATUS.DONE, bit 1. -/
def State.done (s : State) : Bool := s.status.getLsbD 1

/-- STATUS.ERR, bit 2. -/
def State.err (s : State) : Bool := s.status.getLsbD 2

/-- STATUS.ERRCODE, bits 10:8. -/
def State.errCode (s : State) : BitVec 3 := s.status.extractLsb' 8 3

/-- The error class STATUS reports, if any (R12, R220). -/
def errClassOfStatus (w : Word) : Option ErrClass :=
  if w.getLsbD 2 then
    match (w.extractLsb' 8 3 : BitVec 3).toNat with
    | 1 => some .format
    | 2 => some .length
    | 3 => some .padding
    | 4 => some .illegal
    | _ => none
  else none

end Sys2Proof.Machine
end

