-- ==== Sys2Proof/Machine/Memory.lean ====
section
/-! DEFINITION. The byte memory behind DIN and DOUT (spec/10_state.md R19, R20): canonical form, one byte, one word,
and the primitives MemRead and MemWrite of spec/00_scope.md section 8. -/

namespace Sys2Proof.Machine

/-- What an unlisted index reads as: the reset value "0x00 in every byte" of both buffers (R19, R20, R29). -/
def Memory.unlisted : Byte := 0

/-- The canonical form: indices strictly rising, no entry equal to what an unlisted index reads as. -/
abbrev Memory.wf (m : Memory) : Prop :=
  m.Pairwise (fun c d => c.1 < d.1) ∧ ∀ c ∈ m, c.2 ≠ Memory.unlisted

/-- The byte at an index. -/
def Memory.read : Memory → Nat → Byte
  | [], _ => Memory.unlisted
  | (k, v) :: rest, a => if k = a then v else Memory.read rest a

/-- The entry for an index and a byte: none where the byte is what an unlisted index reads as. -/
def Memory.entry (a : Nat) (b : Byte) : Memory := if b = Memory.unlisted then [] else [(a, b)]

/-- Writes one byte and keeps the canonical form. -/
def Memory.write : Memory → Nat → Byte → Memory
  | [], a, b => Memory.entry a b
  | (k, v) :: rest, a, b =>
    if a < k then Memory.entry a b ++ (k, v) :: rest
    else if a = k then Memory.entry a b ++ rest
    else (k, v) :: Memory.write rest a b

/-- `MemRead(B, i, n)`: the n bytes `B[i..i+n]`. -/
def Memory.readBytes (m : Memory) (i n : Nat) : List Byte := (List.range n).map fun k => m.read (i + k)

/-- `MemWrite(B, i, n, v)` with n = len(v): writes the bytes of v at i, i+1, ... -/
def Memory.writeBytes (m : Memory) (i : Nat) : List Byte → Memory
  | [] => m
  | b :: rest => Memory.writeBytes (m.write i b) (i + 1) rest

/-- Word `k` of a buffer: its bytes 4k to 4k+3, big-endian (R42). -/
def Memory.readWord (m : Memory) (k : Nat) : Word :=
  be32 (m.read (4 * k)) (m.read (4 * k + 1)) (m.read (4 * k + 2)) (m.read (4 * k + 3))

/-- Writes word `k` of a buffer: all four of its bytes (R42, R46). -/
def Memory.writeWord (m : Memory) (k : Nat) (w : Word) : Memory := m.writeBytes (4 * k) (wordBytes w)

end Sys2Proof.Machine
end

