-- ==== Sys2Proof/Machine/Operands.lean ====
section
/-! DEFINITION. The operands of a command: the arguments of `Execute` (spec/30_encoding.md R66) read from the
registers and from DIN (spec/10_state.md R13, R14, R17 to R19), and the checks every legal command makes on them. -/

namespace Sys2Proof.Machine

/-- The arguments of `Execute` but for the command word (R66). -/
structure Operands where
  /-- `key_len`, from KEY_LEN. -/
  keyLen : Nat
  /-- `keyb`, the 32 key bytes. -/
  keyb : List Byte
  /-- `ivb`, the 16 IV bytes. -/
  ivb : Block
  /-- `din_len`, from DIN_LEN. -/
  dinLen : Nat
  /-- `din`, the input buffer. -/
  din : Memory
deriving DecidableEq, Repr

/-- KEYB: the bytes of KEY0 to KEY7, first byte first, big-endian per word (R17). -/
def State.keyb (s : State) : List Byte := s.key.toList.flatMap wordBytes

/-- IVB: the bytes of IV0 to IV3, packed as the key is (R18). -/
def State.ivb (s : State) : Block := blockOf (s.iv.toList.flatMap wordBytes)

/-- The operands as the registers stand (R52). -/
def State.operands (s : State) : Operands :=
  { keyLen := s.keyLen.toNat, keyb := s.keyb, ivb := s.ivb, dinLen := s.dinLen.toNat, din := s.din }

/-- `key = keyb[0 .. 4*Nk]` (R66): KEY<Nk> to KEY7 are ignored (R17). -/
def Operands.key (o : Operands) (v : Variant) : List Byte := slice o.keyb 0 (4 * v.nk)

/-- `text = din[0 .. din_len]` (R66): bytes at DIN_LEN and above are ignored (R19). -/
def Operands.text (o : Operands) : List Byte := o.din.readBytes 0 o.dinLen

/-- The checks 2 and 3 of R225, which every legal command makes, and then the command itself on text, key and IV
(R66). -/
def withOperands (cfg : Config) (v : Variant) (o : Operands)
    (body : (text key : List Byte) → (iv : Block) → Result) : Result :=
  if o.keyLen ≠ 4 * v.nk then .error .length
  else if o.dinLen > cfg.bufCap then .error .length
  else body o.text (o.key v) o.ivb

end Sys2Proof.Machine
end

