-- ==== Sys2Proof/Machine/Ops.lean ====
section
/-! DEFINITION. The shared operations: reporting an error and completing a command (spec/60_exceptions.md R226,
spec/20_memory.md R52), starting one (R51), the host's reads and writes of REG (R40, R41, R46 to R48, R53) and the
event RESET (spec/70_reset_and_hazards.md R260). -/

namespace Sys2Proof.Machine

/-- The working registers where the spec leaves them unspecified (R27, R29, U7, U13): the free value of index `n`,
with the counters kept to the ranges R25 gives them (log entry 1). -/
def leftWorking (cfg : Config) (n : Nat) : Working :=
  let f := Config.leftover n
  { f with ki := min f.ki 59, blk := min f.blk (cfg.bufCap / 16), rnd := min f.rnd 14 }

/-- The end of a command's sequence: PHASE is IDLE (R52) and the working registers are unspecified (R27). -/
def leaveCommand (s : State) : State :=
  { s with phase := .idle, work := leftWorking s.cfg s.freeIndex, freeIndex := s.freeIndex + 1,
           staged := [], settled := none }

/-- `raise Error(c)` at completion, the one way an error is taken (R226): STATUS gets DONE, ERR and the class, and
nothing else the host can see is written. There is no vector and no saved state, and no return either: the next
`startCommand` clears the error (R229). -/
def raiseError (s : State) (c : ErrClass) : Host.Outcome State Fault Refusal :=
  .next { leaveCommand s with status := statusError c }

/-- The completion of a command with a result (R52). -/
def complete (s : State) : Result → Host.Outcome State Fault Refusal
  | .ok out => .next { leaveCommand s with
      dout := s.dout.writeBytes 0 out, doutLen := BitVec.ofNat 32 out.length, status := statusDone }
  | .error c => raiseError s c

/-- The start of a command, for every word, legal or not (R51); it clears the previous result and error (R229, R265). -/
def startCommand (s : State) (v : Word) : State :=
  { s with cmd := v, status := statusBusy, doutLen := 0, dout := [], phase := .check, staged := [], settled := none }

/-- The event RESET (R260): every host-visible register as R29 says, PHASE IDLE, the working registers
unspecified (R261). The parameters, the schedule and the host's own record are not the core's to clear. -/
def resetEvent (s : State) : State :=
  { State.reset with
    cfg := s.cfg, work := leftWorking s.cfg s.freeIndex, freeIndex := s.freeIndex + 1,
    turns := s.turns, replies := s.replies }

/-- What stands at an offset of REG (R41). -/
inductive Reg where
  | cmd | status | keyLen | dinLen | doutLen | cap
  | key (k : Fin 8) | iv (k : Fin 4)
  | din (k : Nat) | dout (k : Nat)
  | unmapped
deriving DecidableEq, Repr

/-- The map of REG by byte offset, for a multiple of 4 (R41). -/
def regAt (bufCap offset : Nat) : Reg :=
  if offset = 0x00000 then .cmd
  else if offset = 0x00004 then .status
  else if offset = 0x00008 then .keyLen
  else if offset = 0x0000C then .dinLen
  else if offset = 0x00010 then .doutLen
  else if offset = 0x00014 then .cap
  else if 0x00020 ≤ offset ∧ offset < 0x00040 then .key (Fin.ofNat 8 ((offset - 0x00020) / 4))
  else if 0x00040 ≤ offset ∧ offset < 0x00050 then .iv (Fin.ofNat 4 ((offset - 0x00040) / 4))
  else if 0x10000 ≤ offset ∧ offset < 0x10000 + bufCap then .din ((offset - 0x10000) / 4)
  else if 0x20000 ≤ offset ∧ offset < 0x20000 + bufCap then .dout ((offset - 0x20000) / 4)
  else .unmapped

/-- CAP: "it reads BUF_CAP" (R16). -/
def State.cap (s : State) : Word := BitVec.ofNat 32 s.cfg.bufCap

/-- What the host reads from a register; an unmapped offset reads 0 (R41, R47). -/
def readReg (s : State) : Reg → Word
  | .cmd => s.cmd
  | .status => s.status
  | .keyLen => s.keyLen
  | .dinLen => s.dinLen
  | .doutLen => s.doutLen
  | .cap => s.cap
  | .key k => s.key[k]
  | .iv k => s.iv[k]
  | .din k => s.din.readWord k
  | .dout k => s.dout.readWord k
  | .unmapped => 0

/-- What a host write does while the core is idle: a write to CMD starts a command (R51), a write to a read-only
register or an unmapped offset is ignored (R47), every other write stores all 32 bits (R13, R14, R17 to R19). -/
def writeReg (s : State) (r : Reg) (v : Word) : State :=
  match r with
  | .cmd => startCommand s v
  | .keyLen => { s with keyLen := v }
  | .dinLen => { s with dinLen := v }
  | .key k => { s with key := s.key.set k v }
  | .iv k => { s with iv := s.iv.set k v }
  | .din k => { s with din := s.din.writeWord k v }
  | .status | .doutLen | .cap | .dout _ | .unmapped => s

/-- A read of REG (R54: also while busy). -/
def hostRead (s : State) (offset : Nat) : Word := readReg s (regAt s.cfg.bufCap offset)

/-- A write to REG, ignored while STATUS.BUSY = 1 (the write lock, R53). -/
def hostWrite (s : State) (offset : Nat) (v : Word) : State :=
  if s.busy then s else writeReg s (regAt s.cfg.bufCap offset) v

/-- The size of REG in byte offsets (R40). -/
def regSize : Nat := 0x30000

/-- Whether the spec defines an access of this width at this offset, and the stop if not (R40, R46). -/
def checkAccess (offset width : Nat) (go : Host.Outcome State Fault Refusal) : Host.Outcome State Fault Refusal :=
  if width ≠ 4 then .refused (.accessWidth width)
  else if offset % 4 ≠ 0 then .refused (.misaligned offset)
  else if regSize ≤ offset then .fault (.outsideReg offset)
  else go

/-- One access of the host takes effect, at once (R46, R50); a read hands its value to the host and has no other
effect (R48). -/
def access (s : State) : Access → Host.Outcome State Fault Refusal
  | .read offset width => checkAccess offset width (.next { s with replies := hostRead s offset :: s.replies })
  | .write offset width v => checkAccess offset width (.next (hostWrite s offset v))

/-- The state in which the word `v` is the command that the very next step completes: the start of R51 has just
happened and the next turn is the core's (log entry 5). -/
def loadCommand (s : State) (v : Word) : State :=
  { startCommand s v with turns := .core :: s.turns }

end Sys2Proof.Machine
end

