-- ==== Sys2Proof/Machine/Cbc.lean ====
section
/-! DEFINITION. The commands `cbc-encrypt` and `cbc-decrypt` (spec/44_block_modes.md R179, R180). -/

namespace Sys2Proof.Machine

/-- `CmdCbcEncrypt(text, key, iv, Nk, Nr)` (R179). -/
def cmdCbcEncrypt (cfg : Config) (text key : List Byte) (iv : Block) (nk nr : Nat) : Result :=
  if paddedLength text.length > cfg.bufCap then .error .length
  else .ok (cbcEncrypt text (expandKey key nk nr) nr iv)

/-- `CmdCbcDecrypt(text, key, iv, Nk, Nr)` (R180). -/
def cmdCbcDecrypt (cfg : Config) (text key : List Byte) (iv : Block) (nk nr : Nat) : Result :=
  if text.length = 0 ∨ text.length % 16 ≠ 0 then .error .length
  else cbcDecrypt cfg.padStrict text (expandKey key nk nr) nr iv

/-- `cbc-encrypt` in a variant on the operands (R66, R179). -/
def runCbcEncrypt (cfg : Config) (v : Variant) (o : Operands) : Result :=
  withOperands cfg v o fun text key iv => cmdCbcEncrypt cfg text key iv v.nk v.nr

/-- `cbc-decrypt` in a variant on the operands (R66, R180). -/
def runCbcDecrypt (cfg : Config) (v : Variant) (o : Operands) : Result :=
  withOperands cfg v o fun text key iv => cmdCbcDecrypt cfg text key iv v.nk v.nr

/-- `cbc-encrypt.aes128` (R179). -/
def execCbcEncryptAes128 (s : State) : Host.Outcome State Fault Refusal :=
  complete s (runCbcEncrypt s.cfg .aes128 s.operands)

/-- `cbc-encrypt.aes192` (R179). -/
def execCbcEncryptAes192 (s : State) : Host.Outcome State Fault Refusal :=
  complete s (runCbcEncrypt s.cfg .aes192 s.operands)

/-- `cbc-encrypt.aes256` (R179). -/
def execCbcEncryptAes256 (s : State) : Host.Outcome State Fault Refusal :=
  complete s (runCbcEncrypt s.cfg .aes256 s.operands)

/-- `cbc-decrypt.aes128` (R180). -/
def execCbcDecryptAes128 (s : State) : Host.Outcome State Fault Refusal :=
  complete s (runCbcDecrypt s.cfg .aes128 s.operands)

/-- `cbc-decrypt.aes192` (R180). -/
def execCbcDecryptAes192 (s : State) : Host.Outcome State Fault Refusal :=
  complete s (runCbcDecrypt s.cfg .aes192 s.operands)

/-- `cbc-decrypt.aes256` (R180). -/
def execCbcDecryptAes256 (s : State) : Host.Outcome State Fault Refusal :=
  complete s (runCbcDecrypt s.cfg .aes256 s.operands)

end Sys2Proof.Machine
end

