-- ==== Sys2Proof/Machine/CmacEngine.lean ====
section
/-! DEFINITION. The CMAC engine (spec/45_cmac.md R200 to R204). -/

namespace Sys2Proof.Machine

/-- The shifted value of `Dbl`: every byte takes the bit dropped from the next one (R200). -/
def dblShift (x : Block) : Block := Vector.ofFn fun i =>
  (x[i] <<< 1) ||| (if h : i.val < 15 then (if x[i.val + 1].getLsbD 7 then 1 else 0) else 0)

/-- `Dbl(x)`: doubling in GF(2^128), constant 0x87 in the last byte (R200). -/
def dbl (x : Block) : Block :=
  let y := dblShift x
  if x[0].getLsbD 7 then y.set 15 (y[15] ^^^ 0x87#8) else y

/-- L, the encrypted all-zero block (R201). -/
def cmacL (w : List Word) (nr : Nat) : Block := cipher zeroBlock w nr

/-- `Subkeys(W, Nr) = (K1, K2)` (R201). -/
def subkeys (w : List Word) (nr : Nat) : Block × Block :=
  let k1 := dbl (cmacL w nr)
  (k1, dbl k1)

/-- The number of blocks of a message of `n` bytes, 1 for the empty one (R202). -/
def cmacBlocks (n : Nat) : Nat := max 1 ((n + 15) / 16)

/-- The last block, padded where it is not complete and XORed with K1 or K2 (R202). -/
def cmacLast (m : List Byte) (k1 k2 : Block) : Block :=
  let tail := slice m (16 * (cmacBlocks m.length - 1)) m.length
  if m.length > 0 ∧ m.length % 16 = 0 then xorBlock (blockOf tail) k1
  else xorBlock (blockOf (tail ++ [0x80] ++ zeros (15 - tail.length))) k2

/-- The accumulator after the blocks j, j+1, ... (n of them) of the message (R203, R204). -/
def cmacChain (m : List Byte) (w : List Word) (nr : Nat) : (n j : Nat) → Block → Block
  | 0, _, chain => chain
  | n + 1, j, chain => cmacChain m w nr n (j + 1) (cipher (xorBlock chain (blockAt m j)) w nr)

/-- `Cmac(m, W, Nr)` (R204). -/
def cmac (m : List Byte) (w : List Word) (nr : Nat) : Block :=
  let ks := subkeys w nr
  let chain := cmacChain m w nr (cmacBlocks m.length - 1) 0 zeroBlock
  cipher (xorBlock chain (cmacLast m ks.1 ks.2)) w nr

end Sys2Proof.Machine
end

