-- ==== Sys2Proof/Machine/Cmac.lean ====
section
/-! DEFINITION. The command `cmac` (spec/45_cmac.md R205). -/

namespace Sys2Proof.Machine

/-- `CmdCmac(text, key, Nk, Nr)` (R205). -/
def cmdCmac (text key : List Byte) (nk nr : Nat) : Result :=
  .ok (cmac text (expandKey key nk nr) nr).toList

/-- `cmac` in a variant on the operands (R66, R205). -/
def runCmac (cfg : Config) (v : Variant) (o : Operands) : Result :=
  withOperands cfg v o fun text key _ => cmdCmac text key v.nk v.nr

/-- `cmac.aes128` (R205). -/
def execCmacAes128 (s : State) : Host.Outcome State Fault Refusal :=
  complete s (runCmac s.cfg .aes128 s.operands)

/-- `cmac.aes192` (R205). -/
def execCmacAes192 (s : State) : Host.Outcome State Fault Refusal :=
  complete s (runCmac s.cfg .aes192 s.operands)

/-- `cmac.aes256` (R205). -/
def execCmacAes256 (s : State) : Host.Outcome State Fault Refusal :=
  complete s (runCmac s.cfg .aes256 s.operands)

end Sys2Proof.Machine
end

