-- ==== Sys2Proof/Machine/Ecb.lean ====
section
/-! DEFINITION. The commands `ecb-encrypt` and `ecb-decrypt` (spec/44_block_modes.md R177, R178). -/

namespace Sys2Proof.Machine

/-- `CmdEcbEncrypt(text, key, Nk, Nr)` (R177). -/
def cmdEcbEncrypt (cfg : Config) (text key : List Byte) (nk nr : Nat) : Result :=
  if paddedLength text.length > cfg.bufCap then .error .length
  else .ok (ecbEncrypt text (expandKey key nk nr) nr)

/-- `CmdEcbDecrypt(text, key, Nk, Nr)` (R178). -/
def cmdEcbDecrypt (cfg : Config) (text key : List Byte) (nk nr : Nat) : Result :=
  if text.length = 0 ∨ text.length % 16 ≠ 0 then .error .length
  else ecbDecrypt cfg.padStrict text (expandKey key nk nr) nr

/-- `ecb-encrypt` in a variant on the operands (R66, R177). -/
def runEcbEncrypt (cfg : Config) (v : Variant) (o : Operands) : Result :=
  withOperands cfg v o fun text key _ => cmdEcbEncrypt cfg text key v.nk v.nr

/-- `ecb-decrypt` in a variant on the operands (R66, R178). -/
def runEcbDecrypt (cfg : Config) (v : Variant) (o : Operands) : Result :=
  withOperands cfg v o fun text key _ => cmdEcbDecrypt cfg text key v.nk v.nr

/-- `ecb-encrypt.aes128` (R177). -/
def execEcbEncryptAes128 (s : State) : Host.Outcome State Fault Refusal :=
  complete s (runEcbEncrypt s.cfg .aes128 s.operands)

/-- `ecb-encrypt.aes192` (R177). -/
def execEcbEncryptAes192 (s : State) : Host.Outcome State Fault Refusal :=
  complete s (runEcbEncrypt s.cfg .aes192 s.operands)

/-- `ecb-encrypt.aes256` (R177). -/
def execEcbEncryptAes256 (s : State) : Host.Outcome State Fault Refusal :=
  complete s (runEcbEncrypt s.cfg .aes256 s.operands)

/-- `ecb-decrypt.aes128` (R178). -/
def execEcbDecryptAes128 (s : State) : Host.Outcome State Fault Refusal :=
  complete s (runEcbDecrypt s.cfg .aes128 s.operands)

/-- `ecb-decrypt.aes192` (R178). -/
def execEcbDecryptAes192 (s : State) : Host.Outcome State Fault Refusal :=
  complete s (runEcbDecrypt s.cfg .aes192 s.operands)

/-- `ecb-decrypt.aes256` (R178). -/
def execEcbDecryptAes256 (s : State) : Host.Outcome State Fault Refusal :=
  complete s (runEcbDecrypt s.cfg .aes256 s.operands)

end Sys2Proof.Machine
end

