-- ==== Sys2Proof/Machine/SingleBlock.lean ====
section
/-! DEFINITION. The commands `encrypt` and `decrypt` (spec/43_block_cipher.md R153, R154). -/

namespace Sys2Proof.Machine

/-- `CmdEncrypt(text, key, Nk, Nr)` (R153). -/
def cmdEncrypt (text key : List Byte) (nk nr : Nat) : Result :=
  if text.length ≠ 16 then .error .format
  else .ok (cipher (blockOf text) (expandKey key nk nr) nr).toList

/-- `CmdDecrypt(text, key, Nk, Nr)` (R154). -/
def cmdDecrypt (text key : List Byte) (nk nr : Nat) : Result :=
  if text.length ≠ 16 then .error .format
  else .ok (invCipher (blockOf text) (expandKey key nk nr) nr).toList

/-- `encrypt` in a variant on the operands (R66, R153). -/
def runEncrypt (cfg : Config) (v : Variant) (o : Operands) : Result :=
  withOperands cfg v o fun text key _ => cmdEncrypt text key v.nk v.nr

/-- `decrypt` in a variant on the operands (R66, R154). -/
def runDecrypt (cfg : Config) (v : Variant) (o : Operands) : Result :=
  withOperands cfg v o fun text key _ => cmdDecrypt text key v.nk v.nr

/-- `encrypt.aes128` (R153). -/
def execEncryptAes128 (s : State) : Host.Outcome State Fault Refusal :=
  complete s (runEncrypt s.cfg .aes128 s.operands)

/-- `encrypt.aes192` (R153). -/
def execEncryptAes192 (s : State) : Host.Outcome State Fault Refusal :=
  complete s (runEncrypt s.cfg .aes192 s.operands)

/-- `encrypt.aes256` (R153). -/
def execEncryptAes256 (s : State) : Host.Outcome State Fault Refusal :=
  complete s (runEncrypt s.cfg .aes256 s.operands)

/-- `decrypt.aes128` (R154). -/
def execDecryptAes128 (s : State) : Host.Outcome State Fault Refusal :=
  complete s (runDecrypt s.cfg .aes128 s.operands)

/-- `decrypt.aes192` (R154). -/
def execDecryptAes192 (s : State) : Host.Outcome State Fault Refusal :=
  complete s (runDecrypt s.cfg .aes192 s.operands)

/-- `decrypt.aes256` (R154). -/
def execDecryptAes256 (s : State) : Host.Outcome State Fault Refusal :=
  complete s (runDecrypt s.cfg .aes256 s.operands)

end Sys2Proof.Machine
end

