-- ==== Sys2Proof/Machine/Dispatch.lean ====
section
/-! DEFINITION. One arm per command (spec/30_encoding.md R66): what the completion step of a legal command does. -/

namespace Sys2Proof.Machine

def exec (i : Instr) (s : State) : Host.Outcome State Fault Refusal :=
  match i with
  | .encryptAes128 => Sys2Proof.Machine.execEncryptAes128 s
  | .encryptAes192 => Sys2Proof.Machine.execEncryptAes192 s
  | .encryptAes256 => Sys2Proof.Machine.execEncryptAes256 s
  | .decryptAes128 => Sys2Proof.Machine.execDecryptAes128 s
  | .decryptAes192 => Sys2Proof.Machine.execDecryptAes192 s
  | .decryptAes256 => Sys2Proof.Machine.execDecryptAes256 s
  | .ecbEncryptAes128 => Sys2Proof.Machine.execEcbEncryptAes128 s
  | .ecbEncryptAes192 => Sys2Proof.Machine.execEcbEncryptAes192 s
  | .ecbEncryptAes256 => Sys2Proof.Machine.execEcbEncryptAes256 s
  | .ecbDecryptAes128 => Sys2Proof.Machine.execEcbDecryptAes128 s
  | .ecbDecryptAes192 => Sys2Proof.Machine.execEcbDecryptAes192 s
  | .ecbDecryptAes256 => Sys2Proof.Machine.execEcbDecryptAes256 s
  | .cbcEncryptAes128 => Sys2Proof.Machine.execCbcEncryptAes128 s
  | .cbcEncryptAes192 => Sys2Proof.Machine.execCbcEncryptAes192 s
  | .cbcEncryptAes256 => Sys2Proof.Machine.execCbcEncryptAes256 s
  | .cbcDecryptAes128 => Sys2Proof.Machine.execCbcDecryptAes128 s
  | .cbcDecryptAes192 => Sys2Proof.Machine.execCbcDecryptAes192 s
  | .cbcDecryptAes256 => Sys2Proof.Machine.execCbcDecryptAes256 s
  | .cmacAes128 => Sys2Proof.Machine.execCmacAes128 s
  | .cmacAes192 => Sys2Proof.Machine.execCmacAes192 s
  | .cmacAes256 => Sys2Proof.Machine.execCmacAes256 s

end Sys2Proof.Machine
end

