-- ==== Sys2Proof/Machine/Execute.lean ====
section
/-! DEFINITION. `Execute` as one function of the command word and the operands (spec/30_encoding.md R66), and the
checks that come before any block is processed, in the order of spec/60_exceptions.md R225. -/

namespace Sys2Proof.Machine

/-- The case distinction of R66 for a decoded command. -/
def runCommand (cfg : Config) (m : Mode) (v : Variant) (o : Operands) : Result :=
  match m with
  | .encrypt => runEncrypt cfg v o
  | .decrypt => runDecrypt cfg v o
  | .ecbEncrypt => runEcbEncrypt cfg v o
  | .ecbDecrypt => runEcbDecrypt cfg v o
  | .cbcEncrypt => runCbcEncrypt cfg v o
  | .cbcDecrypt => runCbcDecrypt cfg v o
  | .cmac => runCmac cfg v o

/-- `Execute(cmd, key_len, keyb, ivb, din_len, din)` (R66). -/
def execute (cfg : Config) (cmd : Word) (o : Operands) : Result :=
  match decodeWord cmd with
  | .error _ => .error .illegal
  | .ok i => runCommand cfg i.mode i.variant o

/-- The checks 2 to 4c of R225 on a legal command: the first one that fails. -/
def firstFailure (cfg : Config) (m : Mode) (v : Variant) (o : Operands) : Option ErrClass :=
  if o.keyLen ≠ 4 * v.nk then some .length
  else if o.dinLen > cfg.bufCap then some .length
  else
    match m with
    | .encrypt | .decrypt => if o.dinLen ≠ 16 then some .format else none
    | .ecbDecrypt | .cbcDecrypt => if o.dinLen = 0 ∨ o.dinLen % 16 ≠ 0 then some .length else none
    | .ecbEncrypt | .cbcEncrypt => if paddedLength o.dinLen > cfg.bufCap then some .length else none
    | .cmac => none

end Sys2Proof.Machine
end

