-- ==== Sys2Proof/Machine/Sequencer.lean ====
section
/-! DEFINITION. The sequencer (spec/10_state.md R25): the steps inside a command, on the working registers of R21 to
R24. A turn `advance` takes one of them. None is visible to the host (R27, R50): the completion of R52 shows
`Execute` of the registers, whatever the sequencer has reached, and the two agree (R25: "a model may replace the
whole sequence by one application of the function `Execute`"). -/

namespace Sys2Proof.Machine

/-- The modes whose blocks go through the inverse cipher. -/
def usesInverse : Mode → Bool
  | .decrypt | .ecbDecrypt | .cbcDecrypt => true
  | .encrypt | .ecbEncrypt | .cbcEncrypt | .cmac => false

/-- The modes that end with padding removal, the phase STRIP (R25). -/
def stripsPadding : Mode → Bool
  | .ecbDecrypt | .cbcDecrypt => true
  | .encrypt | .decrypt | .ecbEncrypt | .cbcEncrypt | .cmac => false

/-- The number of blocks of a command (R153, R154, R173 to R176, R202). -/
def blockCount (m : Mode) (text : List Byte) : Nat :=
  match m with
  | .encrypt | .decrypt => 1
  | .ecbEncrypt | .cbcEncrypt => (pad text).length / 16
  | .ecbDecrypt | .cbcDecrypt => text.length / 16
  | .cmac => cmacBlocks text.length

/-- The input of the cipher for block `j` (R153, R154, R173 to R176, R204). -/
def blockInput (m : Mode) (text : List Byte) (j : Nat) (chain k1 k2 : Block) : Block :=
  match m with
  | .encrypt | .decrypt => blockOf text
  | .ecbEncrypt => blockAt (pad text) j
  | .ecbDecrypt | .cbcDecrypt => blockAt text j
  | .cbcEncrypt => xorBlock (blockAt (pad text) j) chain
  | .cmac =>
    if j + 1 < cmacBlocks text.length then xorBlock chain (blockAt text j)
    else xorBlock chain (cmacLast text k1 k2)

/-- What block `j` adds to the output, given the cipher's output for it. -/
def blockOutput (m : Mode) (text : List Byte) (j : Nat) (chain out : Block) : List Byte :=
  match m with
  | .encrypt | .decrypt | .ecbEncrypt | .ecbDecrypt | .cbcEncrypt => out.toList
  | .cbcDecrypt => (xorBlock out chain).toList
  | .cmac => if j + 1 < cmacBlocks text.length then [] else out.toList

/-- CHAIN after block `j` (R23): the ciphertext block, or the CMAC accumulator. -/
def blockChain (m : Mode) (text : List Byte) (j : Nat) (chain out : Block) : Block :=
  match m with
  | .cbcEncrypt | .cmac => out
  | .cbcDecrypt => blockAt text j
  | .encrypt | .decrypt | .ecbEncrypt | .ecbDecrypt => chain

/-- RND at the start of a block: 0 for the cipher, Nr for the inverse cipher (R25). -/
def firstRound (m : Mode) (v : Variant) : Nat := if usesInverse m then v.nr else 0

/-- The sequencer has its result and waits for the completion. -/
def settle (s : State) (r : Result) : State := { s with settled := some r }

/-- CHECK (R25, R225): an error, or the first Nk schedule words are the key words (R21) and KI is Nk. -/
def seqCheck (s : State) : State :=
  match decodeWord s.cmd with
  | .error _ => settle s (.error .illegal)
  | .ok i =>
    match firstFailure s.cfg i.mode i.variant s.operands with
    | some c => settle s (.error c)
    | none =>
      let key := keyWords (s.operands.key i.variant) i.variant.nk
      { s with
        phase := .expand
        work := { s.work with w := Vector.ofFn fun k => key.getD k.val s.work.w[k], ki := i.variant.nk } }

/-- The block loop starts (R23, R25): BLK 0, RND at its start, CHAIN the IV in the CBC modes and zero in `cmac`. -/
def enterBlocks (s : State) (m : Mode) (v : Variant) : State :=
  { s with
    phase := .blocks
    staged := []
    work := { s.work with
      blk := 0, rnd := firstRound m v
      chain := match m with
        | .cbcEncrypt | .cbcDecrypt => s.operands.ivb
        | .cmac => zeroBlock
        | .encrypt | .decrypt | .ecbEncrypt | .ecbDecrypt => s.work.chain } }

/-- EXPAND: one schedule word, at index KI; after the last one SUBKEYS (`cmac` only) or BLOCKS (R25, R132). -/
def seqExpand (s : State) (m : Mode) (v : Variant) : State :=
  let word := scheduleWord v.nk s.work.w.toList s.work.ki
  let t := { s with work := { s.work with w := s.work.w.setIfInBounds s.work.ki word } }
  if s.work.ki + 1 < v.scheduleWords then { t with work := { t.work with ki := s.work.ki + 1 } }
  else if m = .cmac then { t with phase := .subkeys }
  else enterBlocks t m v

/-- SUBKEYS: LREG, K1 and K2 from the schedule (R201), in one step. -/
def seqSubkeys (s : State) (m : Mode) (v : Variant) : State :=
  let w := s.work.w.toList
  let ks := subkeys w v.nr
  enterBlocks { s with work := { s.work with lreg := cmacL w v.nr, k1 := ks.1, k2 := ks.2 } } m v

/-- A block's last round is done: its output is staged, CHAIN is updated, and the next block, STRIP or the result
follows (R25). -/
def finishBlock (s : State) (m : Mode) (v : Variant) (last : Matrix4) : State :=
  let text := s.operands.text
  let out := fromState last
  let t := { s with
    staged := s.staged ++ blockOutput m text s.work.blk s.work.chain out
    work := { s.work with s := last, chain := blockChain m text s.work.blk s.work.chain out } }
  if s.work.blk + 1 < blockCount m text then
    { t with work := { t.work with blk := s.work.blk + 1, rnd := firstRound m v } }
  else if stripsPadding m then { t with phase := .strip }
  else settle t (.ok t.staged)

/-- BLOCKS: one round of the block in progress (R25, R150, R151). -/
def seqBlocks (s : State) (m : Mode) (v : Variant) : State :=
  let w := s.work.w.toList
  let r := s.work.rnd
  let input := toState (blockInput m s.operands.text s.work.blk s.work.chain s.work.k1 s.work.k2)
  if usesInverse m then
    if r = v.nr then { s with work := { s.work with s := addRoundKey input w v.nr, rnd := v.nr - 1 } }
    else if 0 < r then { s with work := { s.work with s := invCipherRound s.work.s w r, rnd := r - 1 } }
    else finishBlock s m v (invCipherFinal s.work.s w 0)
  else
    if r = 0 then { s with work := { s.work with s := addRoundKey input w 0, rnd := 1 } }
    else if r < v.nr then { s with work := { s.work with s := cipherRound s.work.s w r, rnd := r + 1 } }
    else finishBlock s m v (cipherFinal s.work.s w v.nr)

/-- One step of the sequencer. It stays where it is once it has its result, and while the core is idle. -/
def sequencerStep (s : State) : State :=
  match s.settled with
  | some _ => s
  | none =>
    match s.phase with
    | .idle => s
    | .check => seqCheck s
    | .expand | .subkeys | .blocks | .strip =>
      match decodeWord s.cmd with
      | .error _ => s
      | .ok i =>
        match s.phase with
        | .expand => seqExpand s i.mode i.variant
        | .subkeys => seqSubkeys s i.mode i.variant
        | .blocks => seqBlocks s i.mode i.variant
        | .strip => settle s (unpad s.cfg.padStrict s.staged)
        | .idle | .check => s

/-- `n` steps of the sequencer. -/
def sequencerSteps : Nat → State → State
  | 0, s => s
  | n + 1, s => sequencerSteps n (sequencerStep s)

end Sys2Proof.Machine
end

