-- ==== Sys2Proof/Machine/Completion.lean ====
section
/-! DEFINITION. The completion step of the command in CMD (spec/20_memory.md R52) and what each turn does. -/

namespace Sys2Proof.Machine

/-- The completion step (R52): the command CMD holds is decoded and executed on the registers as they stand; an
illegal word completes with ILLEGAL (R63, R224). -/
def completeCommand (s : State) : Host.Outcome State Fault Refusal :=
  match decodeWord s.cmd with
  | .ok i => exec i s
  | .error _ => raiseError s .illegal

/-- One turn (R50): the host's access, the reset input, the core's completion, or a step of its sequencer. An idle
core "keeps its host-visible state indefinitely" (R234). -/
def takeTurn (s : State) : Turn → Host.Outcome State Fault Refusal
  | .host a => access s a
  | .reset => .next (resetEvent s)
  | .core => if s.busy then completeCommand s else .next s
  | .advance => .next (if s.busy then sequencerStep s else s)

/-- With no turn left in the schedule the completion of a command in progress is taken ("always eventually taken",
R52), and an idle core stays as it is (R234). -/
def takeLastTurn (s : State) : Host.Outcome State Fault Refusal :=
  if s.busy then completeCommand s else .next s

end Sys2Proof.Machine
end

