-- ==== Sys2Proof/Machine/Step.lean ====
section
/-! DEFINITION. One step of the machine: the next turn of the schedule is taken. -/

namespace Sys2Proof.Machine

/-- One step. The turn is taken off the schedule before it acts. -/
def step (s : State) : Host.Outcome State Fault Refusal :=
  match s.turns with
  | [] => takeLastTurn s
  | t :: rest => takeTurn { s with turns := rest } t

/-- `s` with the word `w` as the started command, so that the very next step completes it (log entry 5). -/
def State.withFetchWord (s : State) (nbits w : Nat) : State :=
  loadCommand s (BitVec.ofNat 32 (w % 2 ^ nbits))

end Sys2Proof.Machine
end

