-- ==== Sys2Proof/Machine/FrontEnd.lean ====
section
/-! DEFINITION. The text front end before the core (spec/30_encoding.md R67 to R73): the hexadecimal wire form, one
request turned into one command, and the contract of the command line. It is not part of the core's state. -/

namespace Sys2Proof.Machine

/-- The sixteen digits of the output, in order of value (R67). -/
def hexDigits : List Char := ['0', '1', '2', '3', '4', '5', '6', '7', '8', '9', 'a', 'b', 'c', 'd', 'e', 'f']

/-- The digit of a value 0 to 15. -/
def hexDigit (n : Nat) : Char := hexDigits.getD n '0'

/-- `HexEncode(b)`: two lowercase digits a byte, the high nibble first (R67). -/
def hexEncode (b : List Byte) : List Char :=
  b.flatMap fun x => [hexDigit (x.toNat / 16), hexDigit (x.toNat % 16)]

/-- `val(c)`, for the digits 0-9, a-f and A-F only (R68). -/
def hexValue (c : Char) : Option Nat :=
  let n := c.toNat
  if 0x30 ≤ n ∧ n ≤ 0x39 then some (n - 0x30)
  else if 0x61 ≤ n ∧ n ≤ 0x66 then some (n - 0x61 + 10)
  else if 0x41 ≤ n ∧ n ≤ 0x46 then some (n - 0x41 + 10)
  else none

/-- The bytes of an even number of digits. -/
def hexPairs : List Char → List Byte
  | hi :: lo :: rest =>
    BitVec.ofNat 8 (16 * (hexValue hi).getD 0 + (hexValue lo).getD 0) :: hexPairs rest
  | _ => []

/-- `HexDecode(t)` (R68). -/
def hexDecode (t : List Char) : Except ErrClass (List Byte) :=
  if t.length % 2 = 1 then .error .format
  else if t.any (fun c => (hexValue c).isNone) then .error .format
  else .ok (hexPairs t)

/-- The operation-mode selector with, for the CBC modes, the initialization-vector text (R71). -/
inductive Operation where
  | encrypt | decrypt | ecbEncrypt | ecbDecrypt
  | cbcEncrypt (iv : List Char) | cbcDecrypt (iv : List Char)
  | cmac
deriving DecidableEq, Repr

/-- The mode of an operation. -/
def Operation.mode : Operation → Mode
  | .encrypt => .encrypt
  | .decrypt => .decrypt
  | .ecbEncrypt => .ecbEncrypt
  | .ecbDecrypt => .ecbDecrypt
  | .cbcEncrypt _ => .cbcEncrypt
  | .cbcDecrypt _ => .cbcDecrypt
  | .cmac => .cmac

/-- The IV text of an operation, in the CBC modes. -/
def Operation.ivText : Operation → Option (List Char)
  | .cbcEncrypt iv | .cbcDecrypt iv => some iv
  | .encrypt | .decrypt | .ecbEncrypt | .ecbDecrypt | .cmac => none

/-- One request (R70, R74). -/
structure Request where
  op : Operation
  variant : Variant
  text : List Char
  keys : List Char
deriving DecidableEq, Repr

/-- The operands of a request as bytes. -/
structure RequestBytes where
  text : List Byte
  key : List Byte
  iv : Option (List Byte)
deriving DecidableEq, Repr

/-- The front end's own checks, TEXT, then KEYS, then IV, the first failure wins (R70, R225). -/
def decodeRequest (r : Request) : Except ErrClass RequestBytes :=
  match hexDecode r.text with
  | .error c => .error c
  | .ok text =>
    match hexDecode r.keys with
    | .error c => .error c
    | .ok key =>
      match r.op.ivText with
      | none => .ok { text := text, key := key, iv := none }
      | some t =>
        match hexDecode t with
        | .error c => .error c
        | .ok iv =>
          if iv.length ≠ 16 then .error .length else .ok { text := text, key := key, iv := some iv }

/-- A byte sequence is written to the bytes `i, i+1, ...` of the words from offset `base` on. REG has 32-bit accesses
only (R46), so each byte is a read, a replacement and a write of its word. -/
def hostWriteBytes (base : Nat) : (i : Nat) → List Byte → State → State
  | _, [], s => s
  | i, b :: rest, s =>
    let offset := base + 4 * (i / 4)
    hostWriteBytes base (i + 1) rest (hostWrite s offset (setWordByte (hostRead s offset) (i % 4) b))

/-- `n` bytes are read from the words from offset `base` on. -/
def hostReadBytes (s : State) (base n : Nat) : List Byte :=
  (List.range n).map fun i => wordByte (hostRead s (base + 4 * (i / 4))) (i % 4)

/-- A length as a register holds it. One that 32 bits cannot hold is above every key length and every BUF_CAP, and
the largest register value stands for it: the core reports LENGTH either way (R70). -/
def lengthWord (n : Nat) : Word := BitVec.ofNat 32 (min n (2 ^ 32 - 1))

/-- The register writes of R70, in its order, the start of the command last. -/
def loadRequest (r : Request) (d : RequestBytes) (s : State) : State :=
  let s := match d.iv with
    | some iv => hostWriteBytes 0x00040 0 iv s
    | none => s
  let s := hostWrite s 0x00008 (lengthWord d.key.length)
  let s := hostWriteBytes 0x00020 0 (d.key.take 32) s
  let s := hostWrite s 0x0000C (lengthWord d.text.length)
  let s := hostWriteBytes 0x10000 0 (d.text.take s.cfg.bufCap) s
  hostWrite s 0x00000 (encodeWord (Instr.of r.op.mode r.variant))

/-- What the front end answers once STATUS.DONE = 1 (R70): the class of STATUS.ERRCODE, or the result as text. -/
def readReply (s : State) : Except ErrClass (List Char) :=
  match errClassOfStatus (hostRead s 0x00004) with
  | some c => .error c
  | none => .ok (hexEncode (hostReadBytes s 0x20000 (hostRead s 0x00010).toNat))

/-- One request served (R70, R263): a front-end failure writes nothing and starts nothing; otherwise the host sees
BUSY = 0, writes the operands and the command, waits for DONE and reads the result. -/
def serveRequest (r : Request) (s : State) :
    Host.Outcome (State × Except ErrClass (List Char)) Fault Refusal :=
  match decodeRequest r with
  | .error c => .next (s, .error c)
  | .ok d =>
    match takeLastTurn s with
    | .fault f => .fault f
    | .refused f => .refused f
    | .next idle =>
      match takeLastTurn (loadRequest r d idle) with
      | .fault f => .fault f
      | .refused f => .refused f
      | .next t => .next (t, readReply t)

/-- What an invocation of the command line shows (R72). The wording of the diagnostic and the particular non-zero
status are not in the source, so only whether there is one is held. -/
structure CliOutcome where
  stdout : List Char
  diagnostic : Bool
  exitZero : Bool
deriving DecidableEq, Repr

/-- The contract of R72 and R232. -/
def cliOutcome : Except ErrClass (List Char) → CliOutcome
  | .ok out => { stdout := out, diagnostic := false, exitZero := true }
  | .error _ => { stdout := [], diagnostic := true, exitZero := false }

end Sys2Proof.Machine
end

