-- ==== Sys2Proof/Safety.lean ====
section
/-! DEFINITION. What holds of a core in every state it reaches: the invariants the rules state of the registers, the
buffers and the sequencer. Obligations and laws are stated in these terms. -/

namespace Sys2Proof.Machine

/-- "The only values STATUS ever takes" (R12). -/
def statusValues : List Word := [0x00000000, 0x00000001, 0x00000002, 0x00000106, 0x00000206, 0x00000306, 0x00000406]

/-- STATUS holds one of its seven values (R12). -/
abbrev State.StatusLegal (s : State) : Prop := s.status ∈ statusValues

/-- PHASE is IDLE exactly while the core is not busy (R25, R51, R52). -/
abbrev State.PhaseLegal (s : State) : Prop := s.phase = .idle ↔ s.busy = false

/-- DIN and DOUT are in canonical form and list only bytes the buffers have (R19, R20). -/
abbrev State.BuffersLegal (s : State) : Prop :=
  (s.din.wf ∧ ∀ c ∈ s.din, c.1 < s.cfg.bufCap) ∧ (s.dout.wf ∧ ∀ c ∈ s.dout, c.1 < s.cfg.bufCap)

/-- DOUT_LEN is at most BUF_CAP and "every byte at index DOUT_LEN and above is 0x00" (R20). -/
abbrev State.ResultLegal (s : State) : Prop :=
  s.doutLen.toNat ≤ s.cfg.bufCap ∧ ∀ c ∈ s.dout, c.1 < s.doutLen.toNat

/-- Unless the last command succeeded and none has started since, there is no result: DOUT_LEN is 0 (R15) and,
by `ResultLegal`, every byte of DOUT is 0x00 (R20). -/
abbrev State.NoPartialResult (s : State) : Prop := s.status ≠ statusDone → s.doutLen = 0

/-- The counters keep to their ranges (R25). -/
abbrev State.CountersLegal (s : State) : Prop :=
  s.work.ki ≤ 59 ∧ s.work.blk ≤ s.cfg.bufCap / 16 ∧ s.work.rnd ≤ 14

/-- Past CHECK the command in progress is legal and has passed the checks 2 to 4c of R225 (R25). -/
def State.ChecksPassed (s : State) : Bool :=
  match s.phase with
  | .idle | .check => true
  | .expand | .subkeys | .blocks | .strip =>
    match decodeWord s.cmd with
    | .error _ => false
    | .ok i => firstFailure s.cfg i.mode i.variant s.operands == none

/-- An idle core has nothing staged and no result waiting (log entry 3). -/
abbrev State.IdleClean (s : State) : Prop := s.phase = .idle → s.staged = [] ∧ s.settled = none

/-- The invariant of the machine. -/
structure State.Inv (s : State) : Prop where
  config : s.cfg.wf = true
  status : s.StatusLegal
  phase : s.PhaseLegal
  buffers : s.BuffersLegal
  result : s.ResultLegal
  noPartial : s.NoPartialResult
  counters : s.CountersLegal
  checks : s.ChecksPassed = true
  clean : s.IdleClean

/-- What the host can see of a core (R10), with the parameters, the schedule and the host's record: everything but
the working registers, the sequencer and the model's own fields. -/
structure Visible where
  cfg : Config
  cmd : Word
  status : Word
  keyLen : Word
  dinLen : Word
  doutLen : Word
  key : Vector Word 8
  iv : Vector Word 4
  din : Memory
  dout : Memory
  turns : List Turn
  replies : List Word
deriving DecidableEq, Repr

/-- The visible part of a state (R10, R27). -/
def State.visible (s : State) : Visible :=
  { cfg := s.cfg, cmd := s.cmd, status := s.status, keyLen := s.keyLen, dinLen := s.dinLen, doutLen := s.doutLen,
    key := s.key, iv := s.iv, din := s.din, dout := s.dout, turns := s.turns, replies := s.replies }

/-- What a command leaves as it was (R28, R66): every host-visible register and buffer but STATUS, DOUT_LEN and DOUT,
the parameters, the schedule and the host's record. -/
structure State.Framed (s t : State) : Prop where
  cfg : t.cfg = s.cfg
  cmd : t.cmd = s.cmd
  keyLen : t.keyLen = s.keyLen
  dinLen : t.dinLen = s.dinLen
  key : t.key = s.key
  iv : t.iv = s.iv
  din : ∀ k, t.din.read k = s.din.read k
  turns : t.turns = s.turns
  replies : t.replies = s.replies

/-- The checks 2 and 3 of R225, which every legal command makes, are passed: KEY_LEN = 4·Nk and DIN_LEN <= BUF_CAP. -/
abbrev State.Accepts (s : State) (v : Variant) : Prop :=
  s.keyLen.toNat = v.keyBytes ∧ s.dinLen.toNat ≤ s.cfg.bufCap

/-- The schedule of a command of a variant: expanded from the first 4·Nk key bytes (R27, R66, R132). -/
def State.schedule (s : State) (v : Variant) : List Word := expandKey (slice s.keyb 0 v.keyBytes) v.nk v.nr

/-- Block `j` of the text: bytes `16j` to `16j + 15` of DIN (R49, R172). -/
def State.textBlock (s : State) (j : Nat) : Block := Vector.ofFn fun k => s.din.read (16 * j + k.val)

/-- Block `j` of the padded text: from index DIN_LEN on, bytes whose value is the padding count (R170, R172). -/
def State.paddedBlock (s : State) (j : Nat) : Block := Vector.ofFn fun k =>
  if 16 * j + k.val < s.dinLen.toNat then s.din.read (16 * j + k.val)
  else BitVec.ofNat 8 (16 - s.dinLen.toNat % 16)

/-- Block `j` of DOUT: its bytes `16j` to `16j + 15` (R172). -/
def State.resultBlock (s : State) (j : Nat) : Block := Vector.ofFn fun k => s.dout.read (16 * j + k.val)

/-- The completion with a result of `n` bytes whose byte `k` is `f k` (R52): DOUT_LEN, STATUS and PHASE as R52 writes
them, DOUT written at the indices below `n` only, everything else as before. -/
structure State.CompletedWith (s t : State) (n : Nat) (f : Nat → Byte) : Prop where
  status : t.status = statusDone
  doutLen : t.doutLen.toNat = n
  dout : ∀ k, t.dout.read k = if k < n then f k else s.dout.read k
  phase : t.phase = .idle
  frame : s.Framed t

/-- The completion with an error class (R52, R226): STATUS and PHASE as R52 writes them, DOUT_LEN, DOUT and everything
else as before. -/
structure State.FailedWith (s t : State) (c : ErrClass) : Prop where
  status : t.status = (0x00000006 : Word) ||| (c.code <<< 8)
  doutLen : t.doutLen = s.doutLen
  dout : ∀ k, t.dout.read k = s.dout.read k
  phase : t.phase = .idle
  frame : s.Framed t

/-- Byte `k` of the text `ecb-decrypt` decrypts, before the padding is removed (R174). -/
def State.ecbPlain (s : State) (v : Variant) (k : Nat) : Byte :=
  (invCipher (s.textBlock (k / 16)) (s.schedule v) v.nr)[k % 16]

/-- Byte `k` of the text `cbc-decrypt` decrypts, before the padding is removed: the block is XORed with the ciphertext
block before it, the first one with the IV (R176). -/
def State.cbcPlain (s : State) (v : Variant) (k : Nat) : Byte :=
  (xorBlock (invCipher (s.textBlock (k / 16)) (s.schedule v) v.nr)
    (if k / 16 = 0 then s.ivb else s.textBlock (k / 16 - 1)))[k % 16]

/-- The number of blocks of a `cmac` message: 1 for the empty one (R202). -/
def State.messageBlocks (s : State) : Nat := max 1 ((s.dinLen.toNat + 15) / 16)

/-- The last block of a `cmac` message (R202): complete, its bytes XORed with K1; otherwise its bytes, one byte 0x80 and
zeros, XORed with K2. -/
def State.lastMessageBlock (s : State) (k1 k2 : Block) : Block := Vector.ofFn fun i =>
  if 0 < s.dinLen.toNat ∧ s.dinLen.toNat % 16 = 0 then s.din.read (16 * (s.messageBlocks - 1) + i.val) ^^^ k1[i]
  else (if 16 * (s.messageBlocks - 1) + i.val < s.dinLen.toNat then s.din.read (16 * (s.messageBlocks - 1) + i.val)
    else if 16 * (s.messageBlocks - 1) + i.val = s.dinLen.toNat then 0x80 else 0x00) ^^^ k2[i]

/-- An offset of REG the host may write (R41). -/
def Writable (bufCap offset : Nat) : Prop :=
  offset = 0x00000 ∨ offset = 0x00008 ∨ offset = 0x0000C ∨ (0x00020 ≤ offset ∧ offset < 0x00050) ∨
    (0x10000 ≤ offset ∧ offset < 0x10000 + bufCap)

/-- An offset of REG the host may only read (R41, R47). -/
def ReadOnly (bufCap offset : Nat) : Prop :=
  offset = 0x00004 ∨ offset = 0x00010 ∨ offset = 0x00014 ∨ (0x20000 ≤ offset ∧ offset < 0x20000 + bufCap)

/-- An offset of REG with no register (R41, R47). -/
def Unmapped (bufCap offset : Nat) : Prop :=
  offset = 0x00018 ∨ offset = 0x0001C ∨ (0x00050 ≤ offset ∧ offset ≤ 0x0FFFC) ∨
    (0x10000 + bufCap ≤ offset ∧ offset ≤ 0x1FFFC) ∨ (0x20000 + bufCap ≤ offset ∧ offset ≤ 0x2FFFC)

/-- An offset of an access the spec defines: inside REG and a multiple of 4 (R40, R46). -/
def InReg (offset : Nat) : Prop := offset < 0x30000 ∧ offset % 4 = 0

/-- What the core answers to one request of the text front end, from the decoded bytes (R66, R70). -/
def requestResult (cfg : Config) (r : Request) (d : RequestBytes) : Result :=
  let v := r.variant
  if d.key.length ≠ v.keyBytes then .error .length
  else if d.text.length > cfg.bufCap then .error .length
  else match r.op.mode with
    | .encrypt => cmdEncrypt d.text d.key v.nk v.nr
    | .decrypt => cmdDecrypt d.text d.key v.nk v.nr
    | .ecbEncrypt => cmdEcbEncrypt cfg d.text d.key v.nk v.nr
    | .ecbDecrypt => cmdEcbDecrypt cfg d.text d.key v.nk v.nr
    | .cbcEncrypt => cmdCbcEncrypt cfg d.text d.key (blockOf (d.iv.getD [])) v.nk v.nr
    | .cbcDecrypt => cmdCbcDecrypt cfg d.text d.key (blockOf (d.iv.getD [])) v.nk v.nr
    | .cmac => cmdCmac d.text d.key v.nk v.nr

/-- The padding count in the last of `n` decrypted bytes is one R171 accepts. -/
def paddingOk (strict : Bool) (n : Nat) (f : Nat → Byte) : Prop :=
  1 ≤ (f (n - 1)).toNat ∧ (f (n - 1)).toNat ≤ 16 ∧
    (strict = true → ∀ k, n - (f (n - 1)).toNat ≤ k → k < n → f k = f (n - 1))

/-- A turn the spec defines: any but an access of another width, alignment or place (R40, R46). -/
def Turn.legal : Turn → Bool
  | .host (.read offset width) => width == 4 && offset % 4 == 0 && decide (offset < regSize)
  | .host (.write offset width _) => width == 4 && offset % 4 == 0 && decide (offset < regSize)
  | .reset | .core | .advance => true

end Sys2Proof.Machine
end

