-- ==== Sys2Proof/Certificates/Slice0/Obligations.lean ====
section
/-! DEFINITION. The statements for the provers, in the order of OBLIGATIONS.json. Each docstring says what it states
and which rules of spec/ it formalises (stated) or rests on (derived). -/

open Sys2Proof Sys2Proof.Machine

/-- O1. For every command i (all 21) and every byte sequence after it: the word decoder reads i from its word, and the
byte decoder reads i from its four bytes and leaves the rest. The byte form is the model's choice (log entry 8): no
rule gives a command in bytes, and R60 and R64 speak of the word only. Derived from R60, R64. -/
def Obligations.DecodingAnEncodedCommandGivesItBack : Prop :=
  ∀ (i : Instr) (rest : List Byte), i.wf = true →
    decodeWord (encodeWord i) = .ok i ∧ decode (encode i ++ rest) = .ok (i, rest)

/-- O2. For every 32-bit word w: if w decodes to a command i then w is the word of i, so no bit of a command word is
ignored by the decoder. Derived from R60, R63, R64. -/
def Obligations.OnlyItsEncodingDecodesToACommand : Prop :=
  ∀ (w : Word) (i : Instr), decodeWord w = .ok i → w = encodeWord i

/-- O3. KSEL 0, 1, 2 select aes128, aes192, aes256 with the Nk, Nr, key bytes and schedule words of the table, KSEL 3
selects none, and each of the 21 words of the table, written out, decodes to the command of its row and column.
States R62. -/
def Obligations.TheTableWordsAreTheVariantsCommands : Prop :=
  (variantOfKsel 0 = some .aes128 ∧ variantOfKsel 1 = some .aes192 ∧ variantOfKsel 2 = some .aes256 ∧
    variantOfKsel 3 = none) ∧
  ([Variant.aes128, .aes192, .aes256].map fun v => (v.nk, v.nr, v.keyBytes, v.scheduleWords)) =
    [(4, 10, 16, 44), (6, 12, 24, 52), (8, 14, 32, 60)] ∧
  decodeWord 0x00000001 = .ok .encryptAes128 ∧ decodeWord 0x00000011 = .ok .encryptAes192 ∧
  decodeWord 0x00000021 = .ok .encryptAes256 ∧ decodeWord 0x00000002 = .ok .decryptAes128 ∧
  decodeWord 0x00000012 = .ok .decryptAes192 ∧ decodeWord 0x00000022 = .ok .decryptAes256 ∧
  decodeWord 0x00000003 = .ok .ecbEncryptAes128 ∧ decodeWord 0x00000013 = .ok .ecbEncryptAes192 ∧
  decodeWord 0x00000023 = .ok .ecbEncryptAes256 ∧ decodeWord 0x00000004 = .ok .ecbDecryptAes128 ∧
  decodeWord 0x00000014 = .ok .ecbDecryptAes192 ∧ decodeWord 0x00000024 = .ok .ecbDecryptAes256 ∧
  decodeWord 0x00000005 = .ok .cbcEncryptAes128 ∧ decodeWord 0x00000015 = .ok .cbcEncryptAes192 ∧
  decodeWord 0x00000025 = .ok .cbcEncryptAes256 ∧ decodeWord 0x00000006 = .ok .cbcDecryptAes128 ∧
  decodeWord 0x00000016 = .ok .cbcDecryptAes192 ∧ decodeWord 0x00000026 = .ok .cbcDecryptAes256 ∧
  decodeWord 0x00000007 = .ok .cmacAes128 ∧ decodeWord 0x00000017 = .ok .cmacAes192 ∧
  decodeWord 0x00000027 = .ok .cmacAes256

/-- O4. A word is illegal exactly when RSVD is not 0, OP is 0 or 8 to 15, or KSEL is 3. From every idle state a write of
an illegal word to CMD starts a command, and its completion gives STATUS 0x00000406, DOUT_LEN 0, DOUT all zero, and
every operand as it was, whatever the operands are. States R63. -/
def Obligations.IllegalWordsAreTheReservedOnesAndCompleteWithIllegal : Prop :=
  (∀ w : Word, (¬ ∃ i, decodeWord w = .ok i) ↔
    w.toNat / 64 ≠ 0 ∨ w.toNat % 16 = 0 ∨ 8 ≤ w.toNat % 16 ∨ w.toNat / 16 % 4 = 3) ∧
  ∀ (s : State) (w : Word) (rest : List Turn), (¬ ∃ i, decodeWord w = .ok i) → s.busy = false →
    s.turns = .host (.write 0x00000 4 w) :: .core :: rest →
    ∃ t u, step s = .next t ∧ t.busy = true ∧ step t = .next u ∧
      u.status = 0x00000406 ∧ u.doutLen = 0 ∧ (∀ k, u.dout.read k = 0) ∧ u.phase = .idle ∧
      u.cfg = s.cfg ∧ u.cmd = w ∧ u.keyLen = s.keyLen ∧ u.dinLen = s.dinLen ∧ u.key = s.key ∧ u.iv = s.iv ∧
      u.din = s.din ∧ u.replies = s.replies ∧ u.turns = rest

/-- O5. For every state whose CMD decodes to a command i and whose core is busy: with the core's turn first in the
schedule, step is exec of i at the state with that turn taken off; with no turn left, step is exec of i. After
withFetchWord of the word of i, step is exec of i at the state in which that command has just started. The schedule
is the model's own plain data for the two agents (log entry 2), and withFetchWord stands for the start of a command
(log entry 5). Derived from R50, R52, R66. -/
def Obligations.AStepRunsTheCommandInCmd : Prop :=
  (∀ (s : State) (i : Instr), decodeWord s.cmd = .ok i → s.busy = true →
    (s.turns = [] → step s = exec i s) ∧
    ∀ rest, s.turns = .core :: rest → step s = exec i { s with turns := rest }) ∧
  ∀ (s : State) (i : Instr),
    step (s.withFetchWord 32 (encodeWord i).toNat) = exec i (startCommand s (encodeWord i))

/-- O6. From every idle state and for every word v, legal or not, the step of a host write of v to CMD stores v, sets
STATUS to 0x00000001, DOUT_LEN to 0, every byte of DOUT to 0x00 and PHASE to CHECK, and changes no other register,
operand or buffer. States R51. -/
def Obligations.AWriteToCmdStartsACommand : Prop :=
  ∀ (s : State) (v : Word) (rest : List Turn), s.busy = false →
    s.turns = .host (.write 0x00000 4 v) :: rest →
    ∃ t, step s = .next t ∧ t.cmd = v ∧ t.status = 0x00000001 ∧
      (t.busy = true ∧ t.done = false ∧ t.err = false ∧ t.errCode = 0) ∧
      t.doutLen = 0 ∧ (∀ k, t.dout.read k = 0x00) ∧ t.phase = .check ∧
      t.cfg = s.cfg ∧ t.keyLen = s.keyLen ∧ t.dinLen = s.dinLen ∧ t.key = s.key ∧ t.iv = s.iv ∧
      t.din = s.din ∧ t.replies = s.replies ∧ t.turns = rest

/-- O7. From every busy state, for every offset the spec defines an access at (CMD included) and every value, the step
of a host write changes nothing but taking the write off the schedule. States R53. -/
def Obligations.WritesWhileBusyAreIgnored : Prop :=
  ∀ (s : State) (offset : Nat) (v : Word) (rest : List Turn), s.busy = true → InReg offset →
    s.turns = .host (.write offset 4 v) :: rest → step s = .next { s with turns := rest }

/-- O8. In every state the step of a host read gives the host the register's value and changes nothing else, so every
register reads the same afterwards. From every idle state whose parameters are legal and whose DIN is in canonical
form, a write to any offset but CMD leaves what every other offset reads as it was. States R48. -/
def Obligations.ReadsHaveNoSideEffect : Prop :=
  (∀ (s : State) (offset : Nat) (rest : List Turn), InReg offset → s.turns = .host (.read offset 4) :: rest →
    ∃ t, step s = .next t ∧ t = { s with turns := rest, replies := hostRead s offset :: s.replies } ∧
      ∀ o, hostRead t o = hostRead s o) ∧
  ∀ (s : State) (offset : Nat) (v : Word) (rest : List Turn), s.cfg.wf = true → s.din.wf → s.busy = false →
    InReg offset → offset ≠ 0x00000 → s.turns = .host (.write offset 4 v) :: rest →
    ∃ t, step s = .next t ∧ t.busy = false ∧ ∀ o, InReg o → o ≠ offset → hostRead t o = hostRead s o

/-- O9. From every idle state with legal parameters and DIN in canonical form, after the step of a host write of v to
CMD, KEY_LEN, DIN_LEN, a KEY register, an IV register or a word of DIN, that offset reads v: all 32 bits are stored,
all four bytes of a DIN word. Derived from R11, R13, R14, R17, R18, R19, R46. -/
def Obligations.AnIdleWriteIsReadBack : Prop :=
  ∀ (s : State) (offset : Nat) (v : Word) (rest : List Turn), s.cfg.wf = true → s.din.wf → s.busy = false →
    InReg offset → Writable s.cfg.bufCap offset → s.turns = .host (.write offset 4 v) :: rest →
    ∃ t, step s = .next t ∧ hostRead t offset = v

/-- O10. For legal parameters: every unmapped offset reads 0; the step of a write to an unmapped offset or to STATUS,
DOUT_LEN, CAP or a word of DOUT changes nothing but the schedule; and the step of every access the spec defines
answers a next state, whose STATUS is unchanged unless the access is a write to CMD. States R47. -/
def Obligations.UnmappedAndReadOnlyOffsetsIgnoreWrites : Prop :=
  (∀ (s : State) (offset : Nat), s.cfg.wf = true → InReg offset → Unmapped s.cfg.bufCap offset →
    hostRead s offset = 0x00000000) ∧
  (∀ (s : State) (offset : Nat) (v : Word) (rest : List Turn), s.cfg.wf = true → InReg offset →
    Unmapped s.cfg.bufCap offset ∨ ReadOnly s.cfg.bufCap offset →
    s.turns = .host (.write offset 4 v) :: rest → step s = .next { s with turns := rest }) ∧
  ∀ (s : State) (offset : Nat) (v : Word) (rest : List Turn), InReg offset →
    (s.turns = .host (.read offset 4) :: rest → ∃ t, step s = .next t ∧ t.status = s.status) ∧
    (offset ≠ 0x00000 → s.turns = .host (.write offset 4 v) :: rest →
      ∃ t, step s = .next t ∧ t.status = s.status)

/-- O11. For legal parameters each named offset of the map reads its register, KEY<k> at 0x20 + 4k, IV<k> at 0x40 + 4k,
and word k of DIN and of DOUT, packed big-endian from bytes 4k to 4k+3, at 0x10000 + 4k and 0x20000 + 4k; CAP reads
BUF_CAP. Derived from R41, R42. -/
def Obligations.EveryRegisterIsReadAtItsOffset : Prop :=
  ∀ s : State, s.cfg.wf = true →
    hostRead s 0x00000 = s.cmd ∧ hostRead s 0x00004 = s.status ∧ hostRead s 0x00008 = s.keyLen ∧
    hostRead s 0x0000C = s.dinLen ∧ hostRead s 0x00010 = s.doutLen ∧
    (hostRead s 0x00014).toNat = s.cfg.bufCap ∧
    (∀ k : Fin 8, hostRead s (0x00020 + 4 * k.val) = s.key[k]) ∧
    (∀ k : Fin 4, hostRead s (0x00040 + 4 * k.val) = s.iv[k]) ∧
    (∀ k, 4 * k < s.cfg.bufCap → hostRead s (0x10000 + 4 * k) =
      be32 (s.din.read (4 * k)) (s.din.read (4 * k + 1)) (s.din.read (4 * k + 2)) (s.din.read (4 * k + 3))) ∧
    ∀ k, 4 * k < s.cfg.bufCap → hostRead s (0x20000 + 4 * k) =
      be32 (s.dout.read (4 * k)) (s.dout.read (4 * k + 1)) (s.dout.read (4 * k + 2)) (s.dout.read (4 * k + 3))

/-- O12. In every state, for reads and writes: an access of another width than 4 bytes is refused; one of 4 bytes at an
offset that is no multiple of 4 is refused; an aligned one at 0x30000 or above faults; every other answers a next
state. That an access outside REG faults is the model's choice (log entry 9). Derived from R40, R46. -/
def Obligations.OnlyAlignedWordAccessesInsideRegAreDefined : Prop :=
  ∀ (s : State) (offset width : Nat) (v : Word) (a : Access),
    a = .read offset width ∨ a = .write offset width v →
    if width ≠ 4 then access s a = .refused (.accessWidth width)
    else if offset % 4 ≠ 0 then access s a = .refused (.misaligned offset)
    else if 0x30000 ≤ offset then access s a = .fault (.outsideReg offset)
    else ∃ t, access s a = .next t

/-- O13. In every busy state of the invariant the step of a host read answers a next state whose latest reply is:
0x00000001 for STATUS, 0 for DOUT_LEN and every word of DOUT, and for every other offset the register as it stands
(CMD, KEY_LEN, DIN_LEN, KEY, IV and DIN included). Derived from R54. -/
def Obligations.ReadsWhileBusyShowNoResult : Prop :=
  ∀ (s : State) (offset : Nat) (rest : List Turn), s.Inv → s.busy = true → InReg offset →
    s.turns = .host (.read offset 4) :: rest →
    ∃ t w, step s = .next t ∧ t.replies = w :: s.replies ∧ w = hostRead s offset ∧
      (offset = 0x00004 → w = 0x00000001) ∧ (offset = 0x00010 → w = 0) ∧
      (0x20000 ≤ offset → w = 0x00000000)

/-- O14. In State.reset every offset of REG reads 0 except CAP, which reads BUF_CAP; the core is idle with PHASE IDLE
and STATUS 0; every byte of DIN and DOUT is 0x00. Nothing is said of the working registers, which the rule leaves
unspecified. The zeros are the rule's own values, which the spec marks as its decision D17. States R29. -/
def Obligations.TheStateAfterResetReadsZero : Prop :=
  (∀ offset, InReg offset →
    (hostRead State.reset offset).toNat = if offset = 0x00014 then State.reset.cfg.bufCap else 0) ∧
  State.reset.cmd = 0x00000000 ∧ State.reset.status = 0x00000000 ∧ State.reset.keyLen = 0 ∧
  State.reset.dinLen = 0 ∧ State.reset.doutLen = 0 ∧ (∀ k : Fin 8, State.reset.key[k] = 0x00000000) ∧
  (∀ k : Fin 4, State.reset.iv[k] = 0x00000000) ∧ (∀ k, State.reset.din.read k = 0x00) ∧
  (∀ k, State.reset.dout.read k = 0x00) ∧ State.reset.phase = .idle ∧ State.reset.busy = false

/-- O15. From every state with legal parameters, idle or busy, the step of RESET answers a state in which every offset
of REG reads 0 but CAP, which reads BUF_CAP, every byte of both buffers is 0x00, PHASE is IDLE and STATUS shows
neither BUSY, DONE nor ERR; and whatever turns of the core and its sequencer follow, in any mix and number, the
empty schedule included, change nothing but the schedule: the abandoned command never completes. R234 speaks of the
host-visible state and R52 enables a step of the core while BUSY only; that the whole state stays there, the working
registers included, which R29 and R260 leave unspecified (log entry 1), and that a turn of an idle core is taken and
does nothing, the empty schedule included (log entry 2), is the model's choice. The parameters and the host's own
record stay. Derived from R52, R234, R260. -/
def Obligations.ResetAbandonsTheCommandAndZeroesEveryRegister : Prop :=
  ∀ (s : State) (rest : List Turn), s.cfg.wf = true → s.turns = .reset :: rest →
    ∃ t, step s = .next t ∧
      (∀ offset, InReg offset → (hostRead t offset).toNat = if offset = 0x00014 then s.cfg.bufCap else 0) ∧
      (∀ k, t.din.read k = 0x00) ∧ (∀ k, t.dout.read k = 0x00) ∧ t.phase = .idle ∧
      t.busy = false ∧ t.done = false ∧ t.err = false ∧
      t.cfg = s.cfg ∧ t.turns = rest ∧ t.replies = s.replies ∧
      ∀ n : Nat, (∀ a ∈ rest.take n, a = .core ∨ a = .advance) →
        Host.Core.run Sys2Proof.core n t = .next { t with turns := rest.drop n }

/-- O16. State.reset meets State.Inv: legal parameters, a legal STATUS, PHASE idle exactly when not busy, canonical
buffers inside BUF_CAP, no stale result, counters in range. The clauses on the counters, on the model's own fields
and on the parameters of State.reset rest on choices of the model: log entries 4 (the zeros of KI, BLK and RND,
which R29 leaves unspecified), 3 (staged and settled empty) and 6 (BUF_CAP 4096). Derived from R12, R15, R20, R25,
R29. -/
def Obligations.TheInvariantHoldsAfterReset : Prop :=
  State.reset.Inv

/-- O17. From every state that meets State.Inv, a step that answers a next state answers one that meets it: STATUS keeps
to its seven values, PHASE is IDLE exactly while not BUSY, both buffers stay canonical and inside BUF_CAP, every
byte of DOUT from DOUT_LEN on is 0x00, there is no result unless the last command succeeded, the sequencer's
counters keep to their ranges, and past CHECK the command is legal and has passed its operand checks. The clauses on
the model's own fields rest on log entries 1 and 3. Derived from R12, R15, R20, R25, R51, R52. -/
def Obligations.EveryStepKeepsTheInvariant : Prop :=
  ∀ s t : State, s.Inv → step s = .next t → t.Inv

/-- O18. In every state of the invariant BUSY and DONE are not both 1, ERR implies DONE and an ERRCODE of 1 to 4, no ERR
implies ERRCODE 0, the reserved bits are 0, and STATUS is one of its seven values; and a step changes STATUS only as
RESET (to 0), as the start of a command by a write to CMD while idle (to 0x00000001), or as the completion of a busy
core (to done, or done with an error). States R12. -/
def Obligations.StatusKeepsItsValuesAndItsThreeWriters : Prop :=
  ∀ s : State, s.Inv →
    ¬ (s.busy = true ∧ s.done = true) ∧
    (s.err = true → s.done = true ∧ 1 ≤ s.errCode.toNat ∧ s.errCode.toNat ≤ 4) ∧
    (s.err = false → s.errCode = 0) ∧ s.status.extractLsb' 3 5 = 0 ∧ s.status.extractLsb' 11 21 = 0 ∧
    s.status ∈ [(0x00000000 : Word), 0x00000001, 0x00000002, 0x00000106, 0x00000206, 0x00000306, 0x00000406] ∧
    ∀ t, step s = .next t → t.status = s.status ∨
      (s.turns.head? = some .reset ∧ t.status = 0x00000000) ∨
      (s.busy = false ∧ (∃ v, s.turns.head? = some (.host (.write 0x00000 4 v))) ∧ t.status = 0x00000001) ∨
      (s.busy = true ∧ (s.turns = [] ∨ s.turns.head? = some .core) ∧ t.done = true ∧ t.busy = false)

/-- O19. From every busy state, the step of any access the spec defines or of any move of the sequencer leaves every
host-visible register and both buffers as they are, and the core busy. That the sequencer can move by itself is the
model's schedule (log entries 2 and 3). Derived from R50, R53. -/
def Obligations.NothingVisibleChangesBetweenStartAndCompletion : Prop :=
  ∀ (s : State) (a : Turn) (rest : List Turn), s.busy = true → s.turns = a :: rest → a.legal = true →
    a ≠ .core → a ≠ .reset →
    ∃ t, step s = .next t ∧ t.busy = true ∧
      t.visible = { s.visible with turns := rest, replies := t.replies }

/-- O20. For every command (all 21 constructors) and every state, exec answers a next state in which CMD, KEY_LEN,
DIN_LEN, KEY0 to KEY7, IV0 to IV3, every byte of DIN, the parameters, the schedule and the host's record are as
before; of the host-visible registers only STATUS, DOUT_LEN and DOUT may change. States R28. -/
def Obligations.ACommandChangesNoOperand : Prop :=
  ∀ (i : Instr) (s : State), ∃ t, exec i s = .next t ∧ s.Framed t ∧ t.din = s.din

/-- O21. From every idle state, with no turn left the step answers the same state, and a turn of the core or of its
sequencer changes nothing but the schedule. R234 speaks of the host-visible state and R52 enables a step of the core
while BUSY only; that the whole state stays, the working registers included (log entry 1), and that a turn of an
idle core is taken and does nothing (log entry 2), is the model's choice. Derived from R52, R234. -/
def Obligations.AnIdleCoreKeepsItsState : Prop :=
  ∀ s : State, s.busy = false →
    (s.turns = [] → step s = .next s) ∧
    ∀ (a : Turn) (rest : List Turn), a = .core ∨ a = .advance → s.turns = a :: rest →
      step s = .next { s with turns := rest }

/-- O22. From every busy state whose schedule holds only turns the spec defines, there is a number of steps, at most one
more than the turns left, after which the machine is in a next state whose core is not busy, with PHASE IDLE, and
either DONE is set, CMD and the operands are those the command started with and STATUS is the one Execute of them
gives, or a RESET was in the schedule and STATUS is 0. So a schedule without RESET completes the command. The
schedule is the model's own (log entry 2); any finite time is allowed. Derived from R52, R53, R260, R266, R271. -/
def Obligations.EveryCommandCompletesUnlessReset : Prop :=
  ∀ s : State, s.busy = true → (∀ a ∈ s.turns, a.legal = true) →
    ∃ n t, n ≤ s.turns.length + 1 ∧ Host.Core.run Sys2Proof.core n s = .next t ∧
      t.busy = false ∧ t.phase = .idle ∧
      ((t.done = true ∧ t.cmd = s.cmd ∧ t.operands = s.operands ∧
          t.status = match execute s.cfg s.cmd s.operands with
            | .ok _ => (0x00000002 : Word)
            | .error c => (0x00000006 : Word) ||| (c.code <<< 8)) ∨
        (.reset ∈ s.turns ∧ t.status = 0x00000000))

/-- O23. From every state whose schedule holds only turns the spec defines, every number of steps answers a next state:
no command, legal or not, and no access to REG stops the machine. Derived from R5, R47, R63. -/
def Obligations.LegalTurnsNeverStopTheMachine : Prop :=
  ∀ (s : State) (n : Nat), (∀ a ∈ s.turns, a.legal = true) →
    ∃ t, Host.Core.run Sys2Proof.core n s = .next t ∧ ∀ a ∈ t.turns, a.legal = true

/-- O24. From every busy state with legal parameters and DOUT in canonical form whose next turn is the core's (or which
has no turn left), the step answers a next state: if Execute gives an output, it has at most BUF_CAP bytes, it
stands at the start of DOUT, DOUT_LEN is its length and STATUS is 0x00000002; if it gives the error c, STATUS is
0x00000006 | c << 8 and DOUT and DOUT_LEN are untouched; PHASE is IDLE and every operand is as before. Derived from
R52, R66. -/
def Obligations.TheCompletionShowsExecute : Prop :=
  ∀ s : State, s.cfg.wf = true → s.dout.wf → s.busy = true → s.turns = [] ∨ s.turns.head? = some .core →
    ∃ t, step s = .next t ∧
      match execute s.cfg s.cmd s.operands with
      | .ok out => out.length ≤ s.cfg.bufCap ∧
          { s with turns := s.turns.tail }.CompletedWith t out.length (fun k => out.getD k 0)
      | .error c => { s with turns := s.turns.tail }.FailedWith t c

/-- O25. For every command of mode m and variant v and every state: a wrong KEY_LEN gives LENGTH; else DIN_LEN above
BUF_CAP gives LENGTH; else a single-block text of another length than 16 gives FORMAT, a ciphertext of length 0 or
no multiple of 16 gives LENGTH, a padded length above BUF_CAP gives LENGTH; else a decrypted text whose padding is
wrong gives PADDING; else the command succeeds. That an illegal word gives ILLEGAL before all of these is another
statement. Derived from R225, R221, R222, R223. -/
def Obligations.TheFirstFailingCheckIsReported : Prop :=
  ∀ (m : Mode) (v : Variant) (s : State), ∃ t, exec (Instr.of m v) s = .next t ∧
    if s.keyLen.toNat ≠ v.keyBytes then t.status = 0x00000206
    else if s.dinLen.toNat > s.cfg.bufCap then t.status = 0x00000206
    else match m with
      | .encrypt | .decrypt =>
        if s.dinLen.toNat ≠ 16 then t.status = 0x00000106 else t.status = 0x00000002
      | .ecbEncrypt | .cbcEncrypt =>
        if 16 * (s.dinLen.toNat / 16) + 16 > s.cfg.bufCap then t.status = 0x00000206 else t.status = 0x00000002
      | .ecbDecrypt =>
        if s.dinLen.toNat = 0 ∨ s.dinLen.toNat % 16 ≠ 0 then t.status = 0x00000206
        else (paddingOk s.cfg.padStrict s.dinLen.toNat (s.ecbPlain v) → t.status = 0x00000002) ∧
          (¬ paddingOk s.cfg.padStrict s.dinLen.toNat (s.ecbPlain v) → t.status = 0x00000306)
      | .cbcDecrypt =>
        if s.dinLen.toNat = 0 ∨ s.dinLen.toNat % 16 ≠ 0 then t.status = 0x00000206
        else (paddingOk s.cfg.padStrict s.dinLen.toNat (s.cbcPlain v) → t.status = 0x00000002) ∧
          (¬ paddingOk s.cfg.padStrict s.dinLen.toNat (s.cbcPlain v) → t.status = 0x00000306)
      | .cmac => t.status = 0x00000002

/-- O26. From every busy state of the invariant, if the completion step answers a state with ERR = 1, then DOUT_LEN is
0, every byte of DOUT is 0x00, and STATUS is 0x00000006 | c << 8 for one of the four classes c; no part of a multi-
block output is shown. Unless it fails, STATUS is 0x00000002. Derived from R226, R227. -/
def Obligations.AFailedCommandShowsNoOutput : Prop :=
  ∀ s : State, s.Inv → s.busy = true → s.turns = [] ∨ s.turns.head? = some .core →
    ∃ t, step s = .next t ∧
      (t.err = true → t.doutLen = 0 ∧ (∀ k, t.dout.read k = 0x00) ∧
        ∃ c : ErrClass, t.status = (0x00000006 : Word) ||| (c.code <<< 8)) ∧
      (t.err = false → t.status = 0x00000002)

/-- O27. For every state, the 3 encrypt and 3 decrypt commands complete with success, FORMAT or LENGTH; ecb-encrypt,
cbc-encrypt and cmac (9 commands) with success or LENGTH; ecb-decrypt and cbc-decrypt (6 commands) with success,
LENGTH or PADDING; no legal command reports ILLEGAL. Derived from R236. -/
def Obligations.EachModeReportsOnlyItsErrorClasses : Prop :=
  ∀ (i : Instr) (s : State), ∃ t, exec i s = .next t ∧
    match i.mode with
    | .encrypt | .decrypt => t.status ∈ [(0x00000002 : Word), 0x00000106, 0x00000206]
    | .ecbEncrypt | .cbcEncrypt | .cmac => t.status ∈ [(0x00000002 : Word), 0x00000206]
    | .ecbDecrypt | .cbcDecrypt => t.status ∈ [(0x00000002 : Word), 0x00000206, 0x00000306]

/-- O28. For encryptAes128, encryptAes192 and encryptAes256 (Instr.of .encrypt v) and every state with DOUT in canonical
form, exec answers a next state. With KEY_LEN = 4Nk, DIN_LEN <= BUF_CAP and DIN_LEN = 16 it is the success: STATUS
0x00000002, DOUT_LEN 16, DOUT bytes 0 to 15 the cipher of DIN bytes 0 to 15 under the schedule of the key, every
other byte and register as before. With another DIN_LEN it is FORMAT, and with a failed common check LENGTH, nothing
but STATUS and PHASE changed. Derived from R153, R66, R52. -/
def Obligations.EncryptWritesTheCipherOfTheBlock : Prop :=
  ∀ (v : Variant) (s : State), s.dout.wf →
    (s.Accepts v → s.dinLen.toNat = 16 → ∃ t, exec (Instr.of .encrypt v) s = .next t ∧
      s.CompletedWith t 16 fun k => (cipher (s.textBlock 0) (s.schedule v) v.nr).toList.getD k 0) ∧
    (s.Accepts v → s.dinLen.toNat ≠ 16 → ∃ t, exec (Instr.of .encrypt v) s = .next t ∧ s.FailedWith t .format) ∧
    (¬ s.Accepts v → ∃ t, exec (Instr.of .encrypt v) s = .next t ∧ s.FailedWith t .length)

/-- O29. For decryptAes128, decryptAes192 and decryptAes256 (Instr.of .decrypt v) and every state with DOUT in canonical
form, exec answers a next state. With KEY_LEN = 4Nk, DIN_LEN <= BUF_CAP and DIN_LEN = 16 it is the success: STATUS
0x00000002, DOUT_LEN 16, DOUT bytes 0 to 15 the inverse cipher of DIN bytes 0 to 15, every other byte and register
as before. With another DIN_LEN it is FORMAT, and with a failed common check LENGTH, nothing but STATUS and PHASE
changed. Derived from R154, R66, R52. -/
def Obligations.DecryptWritesTheInverseCipherOfTheBlock : Prop :=
  ∀ (v : Variant) (s : State), s.dout.wf →
    (s.Accepts v → s.dinLen.toNat = 16 → ∃ t, exec (Instr.of .decrypt v) s = .next t ∧
      s.CompletedWith t 16 fun k => (invCipher (s.textBlock 0) (s.schedule v) v.nr).toList.getD k 0) ∧
    (s.Accepts v → s.dinLen.toNat ≠ 16 → ∃ t, exec (Instr.of .decrypt v) s = .next t ∧ s.FailedWith t .format) ∧
    (¬ s.Accepts v → ∃ t, exec (Instr.of .decrypt v) s = .next t ∧ s.FailedWith t .length)

/-- O30. For ecbEncryptAes128, ecbEncryptAes192 and ecbEncryptAes256 (Instr.of .ecbEncrypt v) and every state with legal
parameters and DOUT in canonical form, exec answers a next state. When the common checks pass and the padded length
16(DIN_LEN div 16) + 16 is at most BUF_CAP it is the success: DOUT_LEN is that length and block j of DOUT is the
cipher of block j of the padded text, every other byte and register as before. Otherwise it is LENGTH, nothing but
STATUS and PHASE changed. Derived from R170, R173, R177, R66, R52. -/
def Obligations.EcbEncryptWritesTheCipherOfEveryPaddedBlock : Prop :=
  ∀ (v : Variant) (s : State), s.cfg.wf = true → s.dout.wf →
    (s.Accepts v → 16 * (s.dinLen.toNat / 16) + 16 ≤ s.cfg.bufCap →
      ∃ t, exec (Instr.of .ecbEncrypt v) s = .next t ∧
        s.CompletedWith t (16 * (s.dinLen.toNat / 16) + 16) fun k =>
          (cipher (s.paddedBlock (k / 16)) (s.schedule v) v.nr).toList.getD (k % 16) 0) ∧
    (¬ s.Accepts v ∨ 16 * (s.dinLen.toNat / 16) + 16 > s.cfg.bufCap →
      ∃ t, exec (Instr.of .ecbEncrypt v) s = .next t ∧ s.FailedWith t .length)

/-- O31. For cbcEncryptAes128, cbcEncryptAes192 and cbcEncryptAes256 (Instr.of .cbcEncrypt v) and every state with legal
parameters and DOUT in canonical form, exec answers a next state. When the common checks pass and the padded length
is at most BUF_CAP it is the success: DOUT_LEN is that length, block 0 of DOUT is the cipher of padded block 0 XOR
the IV, block j+1 the cipher of padded block j+1 XOR block j of DOUT, every byte beyond and every other register as
before. Otherwise it is LENGTH, nothing but STATUS and PHASE changed. Derived from R170, R175, R179, R66, R52. -/
def Obligations.CbcEncryptChainsTheCipherFromTheIv : Prop :=
  ∀ (v : Variant) (s : State), s.cfg.wf = true → s.dout.wf →
    (s.Accepts v → 16 * (s.dinLen.toNat / 16) + 16 ≤ s.cfg.bufCap →
      ∃ t, exec (Instr.of .cbcEncrypt v) s = .next t ∧
        s.CompletedWith t (16 * (s.dinLen.toNat / 16) + 16) (fun k => t.dout.read k) ∧
        t.resultBlock 0 = cipher (xorBlock (s.paddedBlock 0) s.ivb) (s.schedule v) v.nr ∧
        ∀ j, j < s.dinLen.toNat / 16 → t.resultBlock (j + 1) =
          cipher (xorBlock (s.paddedBlock (j + 1)) (t.resultBlock j)) (s.schedule v) v.nr) ∧
    (¬ s.Accepts v ∨ 16 * (s.dinLen.toNat / 16) + 16 > s.cfg.bufCap →
      ∃ t, exec (Instr.of .cbcEncrypt v) s = .next t ∧ s.FailedWith t .length)

/-- O32. For ecbDecryptAes128, ecbDecryptAes192 and ecbDecryptAes256 (Instr.of .ecbDecrypt v) and every state with legal
parameters and DOUT in canonical form, exec answers a next state. When the common checks pass and DIN_LEN is a non-
zero multiple of 16: if the last decrypted byte p is 1 to 16 (and, with PAD_STRICT, the last p bytes are p) it is
the success, DOUT_LEN is DIN_LEN - p and byte k of DOUT is byte k of the decrypted text, everything else as before;
else it is PADDING. Otherwise it is LENGTH. On an error nothing but STATUS and PHASE is changed. Derived from R171,
R174, R178, R66, R52. -/
def Obligations.EcbDecryptWritesTheUnpaddedInverseCiphers : Prop :=
  ∀ (v : Variant) (s : State), s.cfg.wf = true → s.dout.wf →
    (s.Accepts v → s.dinLen.toNat ≠ 0 → s.dinLen.toNat % 16 = 0 →
      (paddingOk s.cfg.padStrict s.dinLen.toNat (s.ecbPlain v) →
        ∃ t, exec (Instr.of .ecbDecrypt v) s = .next t ∧
          s.CompletedWith t (s.dinLen.toNat - (s.ecbPlain v (s.dinLen.toNat - 1)).toNat) (s.ecbPlain v)) ∧
      (¬ paddingOk s.cfg.padStrict s.dinLen.toNat (s.ecbPlain v) →
        ∃ t, exec (Instr.of .ecbDecrypt v) s = .next t ∧ s.FailedWith t .padding)) ∧
    (¬ s.Accepts v ∨ s.dinLen.toNat = 0 ∨ s.dinLen.toNat % 16 ≠ 0 →
      ∃ t, exec (Instr.of .ecbDecrypt v) s = .next t ∧ s.FailedWith t .length)

/-- O33. For cbcDecryptAes128, cbcDecryptAes192 and cbcDecryptAes256 (Instr.of .cbcDecrypt v) and every state with legal
parameters and DOUT in canonical form, exec answers a next state. When the common checks pass and DIN_LEN is a non-
zero multiple of 16: the decrypted block j is the inverse cipher of ciphertext block j XOR ciphertext block j-1 (the
IV for the first); if its last byte p is 1 to 16 (and, with PAD_STRICT, the last p bytes are p) it is the success,
DOUT_LEN is DIN_LEN - p and byte k of DOUT is decrypted byte k, everything else as before; else it is PADDING.
Otherwise it is LENGTH. On an error nothing but STATUS and PHASE is changed. Derived from R171, R176, R180, R66,
R52. -/
def Obligations.CbcDecryptWritesTheUnpaddedChainedBlocks : Prop :=
  ∀ (v : Variant) (s : State), s.cfg.wf = true → s.dout.wf →
    (s.Accepts v → s.dinLen.toNat ≠ 0 → s.dinLen.toNat % 16 = 0 →
      (paddingOk s.cfg.padStrict s.dinLen.toNat (s.cbcPlain v) →
        ∃ t, exec (Instr.of .cbcDecrypt v) s = .next t ∧
          s.CompletedWith t (s.dinLen.toNat - (s.cbcPlain v (s.dinLen.toNat - 1)).toNat) (s.cbcPlain v)) ∧
      (¬ paddingOk s.cfg.padStrict s.dinLen.toNat (s.cbcPlain v) →
        ∃ t, exec (Instr.of .cbcDecrypt v) s = .next t ∧ s.FailedWith t .padding)) ∧
    (¬ s.Accepts v ∨ s.dinLen.toNat = 0 ∨ s.dinLen.toNat % 16 ≠ 0 →
      ∃ t, exec (Instr.of .cbcDecrypt v) s = .next t ∧ s.FailedWith t .length)

/-- O34. For cmacAes128, cmacAes192 and cmacAes256 (Instr.of .cmac v) and every state with DOUT in canonical form, exec
answers a next state. When the common checks pass it is the success: DOUT_LEN 16 and DOUT bytes 0 to 15 the last
value of the accumulator, which starts at zero, takes the cipher of itself XOR each message block but the last, and
then the cipher of itself XOR the last block, complete and XORed with K1 or padded with 0x80 and zeros and XORed
with K2, where K1 and K2 are one and two doublings of the encrypted zero block; everything else as before. Otherwise
it is LENGTH, nothing but STATUS and PHASE changed. Derived from R201, R202, R203, R204, R205, R66, R52. -/
def Obligations.CmacWritesTheTagOfTheMessage : Prop :=
  ∀ (v : Variant) (s : State), s.dout.wf →
    (s.Accepts v → ∃ (t : State) (acc : Nat → Block), exec (Instr.of .cmac v) s = .next t ∧
      acc 0 = Vector.replicate 16 0 ∧
      (∀ j, j + 1 < s.messageBlocks →
        acc (j + 1) = cipher (xorBlock (acc j) (s.textBlock j)) (s.schedule v) v.nr) ∧
      s.CompletedWith t 16 fun k =>
        (cipher (xorBlock (acc (s.messageBlocks - 1)) (s.lastMessageBlock
          (dbl (cipher (Vector.replicate 16 0) (s.schedule v) v.nr))
          (dbl (dbl (cipher (Vector.replicate 16 0) (s.schedule v) v.nr)))))
          (s.schedule v) v.nr).toList.getD k 0) ∧
    (¬ s.Accepts v → ∃ t, exec (Instr.of .cmac v) s = .next t ∧ s.FailedWith t .length)

/-- O35. For every command and two states with the same parameters, KEY_LEN, DIN_LEN, KEY0 to KEY<Nk-1>, DIN bytes below
DIN_LEN, DOUT and DOUT_LEN, and for the cbc commands the same IV, whatever the rest of the two states: exec answers
next states with the same STATUS, DOUT_LEN and DOUT. Derived from R17, R18, R19, R65. -/
def Obligations.ACommandIgnoresTheOperandsItDoesNotRead : Prop :=
  ∀ (i : Instr) (s u : State), s.cfg = u.cfg → s.keyLen = u.keyLen → s.dinLen = u.dinLen →
    (∀ k : Fin 8, k.val < i.variant.nk → s.key[k] = u.key[k]) →
    (∀ k, k < s.dinLen.toNat → s.din.read k = u.din.read k) →
    (i.mode = .cbcEncrypt ∨ i.mode = .cbcDecrypt → s.iv = u.iv) →
    s.dout = u.dout → s.doutLen = u.doutLen →
    ∃ t r, exec i s = .next t ∧ exec i u = .next r ∧
      t.status = r.status ∧ t.doutLen = r.doutLen ∧ t.dout = r.dout

/-- O36. For two states that agree in everything the host can see, the parameters, the schedule and the host's record,
and differ as they like in the working registers, the sequencer and the model's own fields (free values included): a
step answers for both a next state, and these agree in the same, or stops for the same reason. Derived from R27. -/
def Obligations.WorkingRegistersAreUnobservable : Prop :=
  ∀ s u : State, s.visible = u.visible →
    (∃ t r, step s = .next t ∧ step u = .next r ∧ t.visible = r.visible) ∨
    (∃ f, step s = .fault f ∧ step u = .fault f) ∨ ∃ f, step s = .refused f ∧ step u = .refused f

/-- O37. From every state in CHECK with no result reached yet, whatever the working registers hold, some number of steps
of the sequencer (EXPAND one schedule word at a time, SUBKEYS, BLOCKS one round at a time, STRIP) reaches a result,
and it is Execute of CMD and the operands: running the sequence and applying Execute once are the same. How much one
move of the sequencer does is the model's choice (log entries 2 and 3). Derived from R21, R22, R23, R24, R25, R66. -/
def Obligations.TheSequencerReachesExecute : Prop :=
  ∀ s : State, s.phase = .check → s.settled = none →
    ∃ n, (sequencerSteps n s).settled = some (execute s.cfg s.cmd s.operands)

/-- O38. For legal parameters: byte i of DIN (DOUT) is bits 31-8(i mod 4) to 24-8(i mod 4) of what the host reads at
0x10000 (0x20000) + 4(i div 4); key byte i, for i below 32, the same bits of KEY<i div 4>, and IV byte i, for i
below 16, the same bits of IV<i div 4>. Derived from R17, R18, R42. -/
def Obligations.BuffersAndKeyBytesArePackedBigEndian : Prop :=
  ∀ s : State, s.cfg.wf = true →
    (∀ i, i < s.cfg.bufCap → s.din.read i =
      (hostRead s (0x10000 + 4 * (i / 4))).extractLsb' (24 - 8 * (i % 4)) 8) ∧
    (∀ i, i < s.cfg.bufCap → s.dout.read i =
      (hostRead s (0x20000 + 4 * (i / 4))).extractLsb' (24 - 8 * (i % 4)) 8) ∧
    (s.keyb.length = 32 ∧ ∀ i, i < 32 → s.keyb.getD i 0 =
      (hostRead s (0x00020 + 4 * (i / 4))).extractLsb' (24 - 8 * (i % 4)) 8) ∧
    ∀ i, i < 16 → s.ivb.toList.getD i 0 =
      (hostRead s (0x00040 + 4 * (i / 4))).extractLsb' (24 - 8 * (i % 4)) 8

/-- O39. In every state and for every variant the schedule a command expands has 4(Nr+1) words, and its word k, for k
below Nk, is the register KEY<k>. Derived from R17, R21, R133. -/
def Obligations.TheScheduleStartsWithTheKeyRegisters : Prop :=
  ∀ (v : Variant) (s : State), (s.schedule v).length = 4 * (v.nr + 1) ∧
    ∀ k : Fin 8, k.val < v.nk → (s.schedule v)[k.val]? = some s.key[k]

/-- O40. For every block b and i below 16, byte i of b is S[i mod 4][i div 4] of ToState(b); for every state S byte i of
FromState(S) is S[i mod 4][i div 4]; and FromState(ToState(b)) = b. States R43, R44. -/
def Obligations.BlocksLoadTheStateColumnByColumn : Prop :=
  (∀ (b : Block) (i : Fin 16), (toState b)[i.val % 4][i.val / 4] = b[i]) ∧
  (∀ (s : Matrix4) (i : Fin 16), (fromState s)[i] = s[i.val % 4][i.val / 4]) ∧
  ∀ b : Block, fromState (toState b) = b

/-- O41. BE32(b0,b1,b2,b3) is b0 2^24 + b1 2^16 + b2 2^8 + b3; Bytes(w) is bits 31:24, 23:16, 15:8, 7:0 in this order;
Bytes(BE32(b0,b1,b2,b3)) = (b0,b1,b2,b3); and AddRoundKey XORs S[r][c] with byte r of the word 4 round + c, byte 0
being bits 31:24. States R45. -/
def Obligations.WordsAndBytesConvertBigEndian : Prop :=
  (∀ b0 b1 b2 b3 : Byte, (be32 b0 b1 b2 b3).toNat =
    b0.toNat * 2 ^ 24 + b1.toNat * 2 ^ 16 + b2.toNat * 2 ^ 8 + b3.toNat) ∧
  (∀ w : Word, wordBytes w =
    [w.extractLsb' 24 8, w.extractLsb' 16 8, w.extractLsb' 8 8, w.extractLsb' 0 8]) ∧
  (∀ b0 b1 b2 b3 : Byte, wordBytes (be32 b0 b1 b2 b3) = [b0, b1, b2, b3]) ∧
  ∀ (s : Matrix4) (w : List Word) (round : Nat) (r c : Fin 4),
    (addRoundKey s w round)[r][c] = s[r][c] ^^^ (w.getD (4 * round + c.val) 0).extractLsb' (24 - 8 * r.val) 8

/-- O42. For all bytes: GfMul commutes, associates, distributes over XOR, has identity 0x01 and annihilator 0x00; the
product of two non-zero bytes is not zero; every non-zero byte has exactly one inverse. Derived from R92, R93. -/
def Obligations.GfMulIsTheFieldMultiplication : Prop :=
  (∀ a b : Byte, gfMul a b = gfMul b a) ∧ (∀ a b c : Byte, gfMul (gfMul a b) c = gfMul a (gfMul b c)) ∧
  (∀ a b c : Byte, gfMul a (b ^^^ c) = gfMul a b ^^^ gfMul a c) ∧
  (∀ a : Byte, gfMul a 0x01 = a ∧ gfMul 0x01 a = a ∧ gfMul a 0x00 = 0x00 ∧ gfMul 0x00 a = 0x00) ∧
  (∀ a b : Byte, a ≠ 0 → b ≠ 0 → gfMul a b ≠ 0) ∧
  ∀ a : Byte, a ≠ 0 → ∃ b, gfMul a b = 0x01 ∧ ∀ c, gfMul a c = 0x01 → c = b

/-- O43. For every byte a, Xtime(a) is 2a as a number when bit 7 is 0, else 2a XOR 0x11B; and GfMul(a, b) is the XOR,
over the bits i set in b, of Xtime applied i times to a. Derived from R90, R91, R92. -/
def Obligations.GfMulIsPolynomialMultiplicationModuloTheAesPolynomial : Prop :=
  (∀ a : Byte, (xtime a).toNat =
    if a.toNat < 128 then 2 * a.toNat else Nat.xor (2 * a.toNat) 0x11B) ∧
  ∀ a b : Byte, gfMul a b =
    (List.range 8).foldl (fun acc i => if b.getLsbD i then acc ^^^ (xtime^[i]) a else acc) 0x00

/-- O44. For every byte x: INVSBOX[SBOX[x]] = x, SBOX[INVSBOX[x]] = x, SBOX[x] is neither x nor x XOR 0xFF, and SBOX[x]
is b XOR its rotations by 1 to 4 XOR 0x63, where b is the inverse of x under GfMul (0 for 0). The entries of each
table sum to 32640. Derived from R97, R99. -/
def Obligations.TheSBoxesAreInversePermutations : Prop :=
  (∀ x : Byte, invSbox (sbox x) = x ∧ sbox (invSbox x) = x ∧ sbox x ≠ x ∧ sbox x ≠ x ^^^ 0xFF) ∧
  (∀ x b : Byte, (x = 0 ∧ b = 0 ∨ gfMul x b = 0x01) → sbox x =
    b ^^^ b.rotateLeft 1 ^^^ b.rotateLeft 2 ^^^ b.rotateLeft 3 ^^^ b.rotateLeft 4 ^^^ 0x63) ∧
  ((List.range 256).map fun n => (sbox (BitVec.ofNat 8 n)).toNat).sum = 32640 ∧
  ((List.range 256).map fun n => (invSbox (BitVec.ofNat 8 n)).toNat).sum = 32640

/-- O45. RCON has ten entries, 01 02 04 08 10 20 40 80 1B 36; RCON[0] is 0x01 and RCON[j+1] is Xtime(RCON[j]). States
R98. -/
def Obligations.RoundConstantsDoubleFromOne : Prop :=
  rconRom = [0x01, 0x02, 0x04, 0x08, 0x10, 0x20, 0x40, 0x80, 0x1B, 0x36] ∧ rconRom.length = 10 ∧
  rcon 0 = 0x01 ∧ ∀ j, j < 9 → rcon (j + 1) = xtime (rcon j)

/-- O46. For every block b: ShiftRows gives
b[0],b[5],b[10],b[15],b[4],b[9],b[14],b[3],b[8],b[13],b[2],b[7],b[12],b[1],b[6],b[11], InvShiftRows gives
b[0],b[13],b[10],b[7],b[4],b[1],b[14],b[11],b[8],b[5],b[2],b[15],b[12],b[9],b[6],b[3]; and S'[r][c] is S[r][(c+r)
mod 4], S[r][(c+4-r) mod 4]. States R112, R113. -/
def Obligations.ShiftRowsMovesTheBytesOfTheFlatBlock : Prop :=
  (∀ b : Block, fromState (shiftRows (toState b)) =
    #v[b[0], b[5], b[10], b[15], b[4], b[9], b[14], b[3], b[8], b[13], b[2], b[7], b[12], b[1], b[6], b[11]]) ∧
  (∀ b : Block, fromState (invShiftRows (toState b)) =
    #v[b[0], b[13], b[10], b[7], b[4], b[1], b[14], b[11], b[8], b[5], b[2], b[15], b[12], b[9], b[6], b[3]]) ∧
  ∀ (s : Matrix4) (r c : Fin 4),
    (shiftRows s)[r][c] = s[r][(c.val + r.val) % 4] ∧ (invShiftRows s)[r][c] = s[r][(c.val + 4 - r.val) % 4]

/-- O47. For every state and column c with bytes a0, a1, a2, a3 from the top, MixColumns gives 2a0^3a1^a2^a3,
a0^2a1^3a2^a3, a0^a1^2a2^3a3, 3a0^a1^a2^2a3, where 2x is Xtime(x) and 3x is Xtime(x) XOR x; a column of four equal
bytes is unchanged, by InvMixColumns too. Derived from R114, R115. -/
def Obligations.MixColumnsMultipliesEachColumnByTheMatrix : Prop :=
  (∀ (s : Matrix4) (c : Fin 4),
    (mixColumns s)[0][c] = xtime s[0][c] ^^^ (xtime s[1][c] ^^^ s[1][c]) ^^^ s[2][c] ^^^ s[3][c] ∧
    (mixColumns s)[1][c] = s[0][c] ^^^ xtime s[1][c] ^^^ (xtime s[2][c] ^^^ s[2][c]) ^^^ s[3][c] ∧
    (mixColumns s)[2][c] = s[0][c] ^^^ s[1][c] ^^^ xtime s[2][c] ^^^ (xtime s[3][c] ^^^ s[3][c]) ∧
    (mixColumns s)[3][c] = (xtime s[0][c] ^^^ s[0][c]) ^^^ s[1][c] ^^^ s[2][c] ^^^ xtime s[3][c]) ∧
  ∀ (s : Matrix4) (x : Byte) (c : Fin 4), (∀ r : Fin 4, s[r][c] = x) →
    ∀ r : Fin 4, (mixColumns s)[r][c] = x ∧ (invMixColumns s)[r][c] = x

/-- O48. For every state: InvSubBytes undoes SubBytes, InvShiftRows undoes ShiftRows, InvMixColumns undoes MixColumns,
each also the other way round, and AddRoundKey with the same schedule and round undoes itself. States R117. -/
def Obligations.EveryTransformIsInvertible : Prop :=
  ∀ s : Matrix4,
    invSubBytes (subBytes s) = s ∧ subBytes (invSubBytes s) = s ∧
    invShiftRows (shiftRows s) = s ∧ shiftRows (invShiftRows s) = s ∧
    invMixColumns (mixColumns s) = s ∧ mixColumns (invMixColumns s) = s ∧
    ∀ (w : List Word) (round : Nat), addRoundKey (addRoundKey s w round) w round = s

/-- O49. For every variant and every key: the schedule has 4(Nr+1) words; word i below Nk is BE32 of key bytes 4i to
4i+3; word i from Nk on is word i-Nk XOR temp, where temp is SubWord(RotWord(word i-1)) XOR RCON[i div Nk - 1] << 24
when Nk divides i, SubWord(word i-1) when Nk = 8 and i mod 8 = 4, and word i-1 otherwise; RotWord takes bytes
b0,b1,b2,b3 to b1,b2,b3,b0 and SubWord looks each byte up in SBOX. States R130, R131, R132. -/
def Obligations.TheKeyScheduleFollowsItsRecurrence : Prop :=
  (∀ b0 b1 b2 b3 : Byte, rotWord (be32 b0 b1 b2 b3) = be32 b1 b2 b3 b0 ∧
    subWord (be32 b0 b1 b2 b3) = be32 (sbox b0) (sbox b1) (sbox b2) (sbox b3)) ∧
  ∀ (v : Variant) (key : List Byte), key.length = v.keyBytes →
    (expandKey key v.nk v.nr).length = 4 * (v.nr + 1) ∧
    ∀ i, i < 4 * (v.nr + 1) → (expandKey key v.nk v.nr).getD i 0 =
      if i < v.nk then be32 (key.getD (4 * i) 0) (key.getD (4 * i + 1) 0) (key.getD (4 * i + 2) 0)
        (key.getD (4 * i + 3) 0)
      else (expandKey key v.nk v.nr).getD (i - v.nk) 0 ^^^
        (let temp := (expandKey key v.nk v.nr).getD (i - 1) 0
         if i % v.nk = 0 then subWord (rotWord temp) ^^^ ((rcon (i / v.nk - 1)).setWidth 32 <<< 24)
         else if v.nk = 8 ∧ i % v.nk = 4 then subWord temp
         else temp)

/-- O50. For every block and every schedule and number of rounds, InvCipher(Cipher(b, W, Nr), W, Nr) = b and
Cipher(InvCipher(b, W, Nr), W, Nr) = b; in particular under the schedule of every key of each variant. States R152. -/
def Obligations.TheInverseCipherUndoesTheCipher : Prop :=
  (∀ (b : Block) (w : List Word) (nr : Nat),
    invCipher (cipher b w nr) w nr = b ∧ cipher (invCipher b w nr) w nr = b) ∧
  ∀ (b : Block) (v : Variant) (key : List Byte), key.length = v.keyBytes →
    invCipher (cipher b (expandKey key v.nk v.nr) v.nr) (expandKey key v.nk v.nr) v.nr = b ∧
    cipher (invCipher b (expandKey key v.nk v.nr) v.nr) (expandKey key v.nk v.nr) v.nr = b

/-- O51. For every byte sequence m: Pad(m) is m followed by p = 16 - len(m) mod 16 bytes of value p, has the non-zero
length 16(len(m) div 16) + 16, and Unpad(Pad(m)) = m with PAD_STRICT false and with PAD_STRICT true. Derived from
R170, R171. -/
def Obligations.UnpadUndoesPad : Prop :=
  ∀ m : List Byte,
    pad m = m ++ List.replicate (16 - m.length % 16) (BitVec.ofNat 8 (16 - m.length % 16)) ∧
    (pad m).length = 16 * (m.length / 16) + 16 ∧
    ∀ strict : Bool, unpad strict (pad m) = .ok m

/-- O52. For every byte sequence of non-zero length that is a multiple of 16, with last byte p: Unpad answers PADDING
when p is 0 or above 16, and with PAD_STRICT when one of the last p bytes is not p; otherwise it answers the first
len - p bytes, a result 1 to 16 bytes shorter. Derived from R171, R223. -/
def Obligations.UnpadReadsOnlyTheLastByteUnlessStrict : Prop :=
  ∀ (strict : Bool) (m : List Byte), m.length ≠ 0 → m.length % 16 = 0 →
    (paddingOk strict m.length (fun k => m.getD k 0) →
      unpad strict m = .ok (m.take (m.length - (m.getD (m.length - 1) 0).toNat))) ∧
    (¬ paddingOk strict m.length (fun k => m.getD k 0) → unpad strict m = .error .padding)

/-- O53. For every text, schedule, number of rounds, IV and either PAD_STRICT: EcbDecrypt(EcbEncrypt(m)) = m and
CbcDecrypt(CbcEncrypt(m, iv), iv) = m. Derived from R181. -/
def Obligations.TheModesRoundTripOnByteSequences : Prop :=
  ∀ (strict : Bool) (m : List Byte) (w : List Word) (nr : Nat) (iv : Block),
    ecbDecrypt strict (ecbEncrypt m w nr) w nr = .ok m ∧
    cbcDecrypt strict (cbcEncrypt m w nr iv) w nr iv = .ok m

/-- O54. For every variant: if ecb-encrypt completes successfully from a state s and a second state holds its result as
the text, with the same parameters, KEY_LEN and KEY registers, then ecb-decrypt from the second state succeeds,
DOUT_LEN is the DIN_LEN of s and DOUT holds the text of s; the same for the cbc pair under the same IV. The second
state may differ in everything else. Derived from R181. -/
def Obligations.DecryptingTheResultOfAnEncryptCommandGivesTheTextBack : Prop :=
  ∀ (v : Variant) (s t u : State), s.cfg.wf = true → s.dout.wf → u.dout.wf → s.Accepts v →
    16 * (s.dinLen.toNat / 16) + 16 ≤ s.cfg.bufCap →
    u.cfg = s.cfg → u.keyLen = s.keyLen → u.key = s.key → u.dinLen = t.doutLen →
    (∀ k, k < t.doutLen.toNat → u.din.read k = t.dout.read k) →
    (exec (Instr.of .ecbEncrypt v) s = .next t → ∃ r, exec (Instr.of .ecbDecrypt v) u = .next r ∧
      r.status = 0x00000002 ∧ r.doutLen = s.dinLen ∧ ∀ k, k < s.dinLen.toNat → r.dout.read k = s.din.read k) ∧
    (exec (Instr.of .cbcEncrypt v) s = .next t → u.iv = s.iv → ∃ r, exec (Instr.of .cbcDecrypt v) u = .next r ∧
      r.status = 0x00000002 ∧ r.doutLen = s.dinLen ∧ ∀ k, k < s.dinLen.toNat → r.dout.read k = s.din.read k)

/-- O55. For every variant and state with legal parameters: when ecb-encrypt or cbc-encrypt completes with success,
DOUT_LEN is at least 16 and 1 to 16 above DIN_LEN; when ecb-decrypt or cbc-decrypt does, DOUT_LEN is 1 to 16 below
DIN_LEN; a 64-byte text encrypts to 80 bytes. States R182. -/
def Obligations.ResultLengthsOfTheBlockModes : Prop :=
  ∀ (m : Mode) (v : Variant) (s : State), s.cfg.wf = true → ∃ t, exec (Instr.of m v) s = .next t ∧
    (t.status = statusDone →
      (m = .ecbEncrypt ∨ m = .cbcEncrypt → 16 ≤ t.doutLen.toNat ∧ s.dinLen.toNat + 1 ≤ t.doutLen.toNat ∧
        t.doutLen.toNat ≤ s.dinLen.toNat + 16 ∧ (s.dinLen.toNat = 64 → t.doutLen.toNat = 80)) ∧
      (m = .ecbDecrypt ∨ m = .cbcDecrypt → t.doutLen.toNat + 1 ≤ s.dinLen.toNat ∧
        s.dinLen.toNat ≤ t.doutLen.toNat + 16))

/-- O56. For every variant and state with legal parameters, DOUT in canonical form and the common checks passed. With
DIN_LEN = 16, ecb-encrypt and encrypt both complete with success, DOUT bytes 0 to 15 are the same for both, and DOUT
bytes 16 to 31 of ecb-encrypt, the last, are the output of encrypt from any state with the same parameters and key
whose text is sixteen bytes 0x10. With DIN_LEN = 16, decrypt succeeds, and ecb-decrypt completes as Unpad of the 16
bytes decrypt leaves in DOUT says: its result in DOUT with success, or its error class. With IV0 to IV3 zero, for
every text that fits, cbc-encrypt and ecb-encrypt succeed and DOUT bytes 0 to 15 are the same for both. States R183. -/
def Obligations.BlockModesRelateToTheSingleBlockCommands : Prop :=
  ∀ (v : Variant) (s : State), s.cfg.wf = true → s.dout.wf → s.Accepts v →
    (s.dinLen.toNat = 16 → ∃ t r,
      exec (Instr.of .ecbEncrypt v) s = .next t ∧ exec (Instr.of .encrypt v) s = .next r ∧
      t.status = 0x00000002 ∧ t.doutLen.toNat = 32 ∧ r.status = 0x00000002 ∧ r.doutLen.toNat = 16 ∧
      (∀ k, k < 16 → t.dout.read k = r.dout.read k) ∧
      ∀ u : State, u.dout.wf → u.cfg = s.cfg → u.keyLen = s.keyLen → u.key = s.key → u.dinLen.toNat = 16 →
        (∀ k, k < 16 → u.din.read k = 0x10) →
        ∃ q, exec (Instr.of .encrypt v) u = .next q ∧ q.status = 0x00000002 ∧
          ∀ k, k < 16 → t.dout.read (16 + k) = q.dout.read k) ∧
    (s.dinLen.toNat = 16 → ∃ t r,
      exec (Instr.of .ecbDecrypt v) s = .next t ∧ exec (Instr.of .decrypt v) s = .next r ∧
      r.status = 0x00000002 ∧ r.doutLen.toNat = 16 ∧
      match unpad s.cfg.padStrict (r.dout.readBytes 0 16) with
      | .ok out => t.status = 0x00000002 ∧ t.doutLen.toNat = out.length ∧ t.dout.readBytes 0 out.length = out
      | .error c => t.status = (0x00000006 : Word) ||| (c.code <<< 8)) ∧
    (16 * (s.dinLen.toNat / 16) + 16 ≤ s.cfg.bufCap → s.iv = Vector.replicate 4 0x00000000 → ∃ t r,
      exec (Instr.of .cbcEncrypt v) s = .next t ∧ exec (Instr.of .ecbEncrypt v) s = .next r ∧
      t.status = 0x00000002 ∧ r.status = 0x00000002 ∧ ∀ k, k < 16 → t.dout.read k = r.dout.read k)

/-- O57. For every 16-byte value x, read as a 128-bit number X with byte 0 the most significant: Dbl(x) read the same
way is 2X mod 2^128 when X is below 2^127, and otherwise 2X mod 2^128 XOR 0x87. Derived from R200. -/
def Obligations.DblDoublesThe128BitNumber : Prop :=
  ∀ x : Block,
    let number := fun b : Block => b.toList.foldl (fun n byte => n * 256 + byte.toNat) 0
    number (dbl x) =
      if number x < 2 ^ 127 then 2 * number x % 2 ^ 128 else Nat.xor (2 * number x % 2 ^ 128) 0x87

/-- O58. For every byte sequence b, HexDecode(HexEncode(b)) = b and HexEncode(b) has 2 len(b) characters; HexDecode
answers FORMAT exactly when the number of characters is odd or a character is not one of 0-9, a-f, A-F; and for
every text that decodes, encoding it again gives the text in lowercase. Derived from R67, R68. -/
def Obligations.HexTextRoundTrips : Prop :=
  (∀ b : List Byte, hexDecode (hexEncode b) = .ok b ∧ (hexEncode b).length = 2 * b.length) ∧
  (∀ t : List Char, hexDecode t = .error .format ↔ t.length % 2 = 1 ∨
    ∃ c ∈ t, ¬ (('0' ≤ c ∧ c ≤ '9') ∨ ('a' ≤ c ∧ c ≤ 'f') ∨ ('A' ≤ c ∧ c ≤ 'F'))) ∧
  ∀ (t : List Char) (b : List Byte), hexDecode t = .ok b → hexEncode b = t.map Char.toLower

/-- O59. For every request and every state of the invariant, idle or busy: if TEXT, KEYS or the IV does not decode, or
the IV is not 16 bytes, the front end fails with that class and the core is untouched; otherwise the request is
served, and the answer is the error class of the command, or its output in hexadecimal: LENGTH for a key of the
wrong length or a text above BUF_CAP, else the command function of the mode on the decoded text, key and IV. What
registers and buffers held before does not matter. How bytes are put into words the host writes is the model's
choice (log entry 10). Derived from R70, R42, R66, R225. -/
def Obligations.TheFrontEndAnswersWhatTheCommandAnswers : Prop :=
  ∀ (r : Request) (s : State), s.Inv →
    (∀ c, decodeRequest r = .error c → serveRequest r s = .next (s, .error c)) ∧
    ∀ d, decodeRequest r = .ok d → ∃ t, serveRequest r s = .next (t, match requestResult s.cfg r d with
      | .ok out => .ok (hexEncode out)
      | .error c => .error c)

/-- O60. SubBytes replaces every byte by its SBOX entry, InvSubBytes by its INVSBOX entry. For every block, schedule and
number Nr of rounds from 1 on, the cipher is: AddRoundKey of round 0 on the loaded block; for each round below Nr
SubBytes, ShiftRows, MixColumns, AddRoundKey of that round; then SubBytes, ShiftRows, AddRoundKey of round Nr, and
the block unloaded. The inverse cipher is: AddRoundKey of round Nr; for each round from Nr-1 down to 1 InvShiftRows,
InvSubBytes, AddRoundKey of that round, InvMixColumns; then InvShiftRows, InvSubBytes, AddRoundKey of round 0, and
the block unloaded. Derived from R110, R111, R150, R151. -/
def Obligations.TheCiphersRunTheRoundsInOrder : Prop :=
  (∀ (s : Matrix4) (r c : Fin 4),
    (subBytes s)[r][c] = sbox s[r][c] ∧ (invSubBytes s)[r][c] = invSbox s[r][c]) ∧
  ∀ (b : Block) (w : List Word) (nr : Nat), 1 ≤ nr →
    (∃ st : Nat → Matrix4, st 0 = addRoundKey (toState b) w 0 ∧
      (∀ r, 1 ≤ r → r < nr →
        st r = addRoundKey (mixColumns (shiftRows (subBytes (st (r - 1))))) w r) ∧
      cipher b w nr = fromState (addRoundKey (shiftRows (subBytes (st (nr - 1)))) w nr)) ∧
    ∃ st : Nat → Matrix4, st nr = addRoundKey (toState b) w nr ∧
      (∀ r, 1 ≤ r → r < nr →
        st r = invMixColumns (addRoundKey (invSubBytes (invShiftRows (st (r + 1)))) w r)) ∧
      invCipher b w nr = fromState (addRoundKey (invSubBytes (invShiftRows (st 1))) w 0)
end

