-- ==== Sys2Proof/Laws/Bytes.lean ====
section
/-! SUPPORT. Byte order: words and their bytes, blocks and the state matrix. -/

namespace Sys2Proof.Machine

@[simp] theorem matrixOf_get (f : Fin 4 → Fin 4 → Byte) (r c : Fin 4) : (matrixOf f)[r][c] = f r c := by
  simp [matrixOf]

theorem Matrix4.ext_cells {s t : Matrix4} (h : ∀ r c : Fin 4, s[r][c] = t[r][c]) : s = t := by
  refine Vector.ext fun r hr => Vector.ext fun c hc => ?_
  exact h ⟨r, hr⟩ ⟨c, hc⟩

/-- The bits of a word made of four bytes (R42, R45). -/
theorem be32_getLsbD (b0 b1 b2 b3 : Byte) (i : Nat) : (be32 b0 b1 b2 b3).getLsbD i =
    if i < 8 then b3.getLsbD i else if i < 16 then b2.getLsbD (i - 8)
    else if i < 24 then b1.getLsbD (i - 16) else b0.getLsbD (i - 24) := by
  have h1 : (b0 ++ b1 ++ b2 ++ b3).getLsbD i = _ := BitVec.getLsbD_append
  have h2 : (b0 ++ b1 ++ b2).getLsbD (i - 8) = _ := BitVec.getLsbD_append
  have h3 : (b0 ++ b1).getLsbD (i - 8 - 8) = _ := BitVec.getLsbD_append
  refine h1.trans ?_
  rw [h2, h3]
  repeat' split
  all_goals first | rfl | omega

/-- The bits of a byte of a word (R42). -/
theorem wordByte_getLsbD (w : Word) (k i : Nat) (hi : i < 8) :
    (wordByte w k).getLsbD i = w.getLsbD (24 - 8 * k + i) := by
  simp [wordByte, hi]

/-- The four bytes of a word made of four bytes. -/
theorem wordByte_be32 (b0 b1 b2 b3 : Byte) :
    wordByte (be32 b0 b1 b2 b3) 0 = b0 ∧ wordByte (be32 b0 b1 b2 b3) 1 = b1 ∧
      wordByte (be32 b0 b1 b2 b3) 2 = b2 ∧ wordByte (be32 b0 b1 b2 b3) 3 = b3 := by
  refine ⟨?_, ?_, ?_, ?_⟩ <;>
  · apply BitVec.eq_of_getLsbD_eq
    intro i hi
    rw [wordByte_getLsbD _ _ _ hi, be32_getLsbD]
    repeat' split
    all_goals first | omega | (congr 1; omega)

/-- `Bytes(BE32(b0,b1,b2,b3)) = (b0,b1,b2,b3)` (R45). -/
theorem wordBytes_be32 (b0 b1 b2 b3 : Byte) : wordBytes (be32 b0 b1 b2 b3) = [b0, b1, b2, b3] := by
  obtain ⟨h0, h1, h2, h3⟩ := wordByte_be32 b0 b1 b2 b3
  simp only [wordBytes, h0, h1, h2, h3]

/-- A word is made of its bytes (R45). -/
theorem be32_wordByte (w : Word) : be32 (wordByte w 0) (wordByte w 1) (wordByte w 2) (wordByte w 3) = w := by
  apply BitVec.eq_of_getLsbD_eq
  intro i hi
  rw [be32_getLsbD]
  repeat' split
  all_goals rw [wordByte_getLsbD _ _ _ (by omega)]; congr 1; omega

@[simp] theorem blockOf_get (x : List Byte) (i : Nat) (h : i < 16) : (blockOf x)[i] = x.getD i 0 := by
  simp [blockOf]

/-- A block is the block of its own bytes. -/
@[simp] theorem blockOf_toList (b : Block) : blockOf b.toList = b := by
  refine Vector.ext fun i hi => ?_
  simp [hi]

@[simp] theorem xorBlock_get (a b : Block) (i : Nat) (h : i < 16) : (xorBlock a b)[i] = a[i] ^^^ b[i] := by
  simp [xorBlock]

/-- XORing a block twice leaves the other operand. -/
theorem xorBlock_cancel (a b : Block) : xorBlock (xorBlock a b) b = a := by
  refine Vector.ext fun i hi => ?_
  simp

/-- `FromState(ToState(b)) = b` (R44). -/
theorem fromState_toState (b : Block) : fromState (toState b) = b := by
  refine Vector.ext fun i hi => ?_
  simp only [fromState, toState, matrixOf, Vector.getElem_ofFn]
  congr 1
  omega

/-- `ToState(FromState(S)) = S`. -/
theorem toState_fromState (s : Matrix4) : toState (fromState s) = s := by
  refine Vector.ext fun r hr => Vector.ext fun c hc => ?_
  have h2 : (4 * c + r) / 4 = c := by omega
  simp [toState, fromState, matrixOf, h2, Nat.mod_eq_of_lt hr]

end Sys2Proof.Machine
end

