-- ==== Sys2Proof/Laws/Decode.lean ====
section
/-! SUPPORT. When the decoder accepts a word, in terms of the word as a number, and the encoder under it. -/

namespace Sys2Proof

/-- The decoder accepts a word exactly when RSVD is 0, OP is 1 to 7 and KSEL is 0 to 2 (R63, R64). -/
theorem decodeWord_ok_iff (w : Word) : (∃ i, decodeWord w = .ok i) ↔
    w.toNat / 64 = 0 ∧ 1 ≤ w.toNat % 16 ∧ w.toNat % 16 ≤ 7 ∧ w.toNat / 16 % 4 ≠ 3 := by
  have hop : (w.extractLsb' 0 4).toNat = w.toNat % 16 := by simp [BitVec.extractLsb'_toNat]
  have hks : (w.extractLsb' 4 2).toNat = w.toNat / 16 % 4 := by
    simp [BitVec.extractLsb'_toNat, Nat.shiftRight_eq_div_pow]
  have hrs : (w.extractLsb' 6 26).toNat = w.toNat / 64 := by
    simp only [BitVec.extractLsb'_toNat, Nat.shiftRight_eq_div_pow]
    have := w.isLt
    omega
  have hr0 : (w.extractLsb' 6 26 = 0#26) ↔ w.toNat / 64 = 0 := by
    rw [← hrs]
    exact ⟨fun h => by rw [h]; rfl, fun h => BitVec.eq_of_toNat_eq (by simpa using h)⟩
  unfold decodeWord fieldsOfWord modeOfOp variantOfKsel
  simp only [hop, hks]
  by_cases h : w.extractLsb' 6 26 = 0#26
  · rw [if_neg (by simpa using h)]
    have h' := hr0.1 h
    have hk : w.toNat / 16 % 4 < 4 := Nat.mod_lt _ (by decide)
    have ho : w.toNat % 16 < 16 := Nat.mod_lt _ (by decide)
    generalize w.toNat / 16 % 4 = k at *
    generalize w.toNat % 16 = o at *
    simp only [h']
    interval_cases o <;> interval_cases k <;> simp
  · rw [if_pos (by simpa using h)]
    simp [mt hr0.2 h]

/-- The decoder reads every command from its word (R60 to R64). -/
@[simp] theorem decodeWord_encodeWord (i : Instr) : decodeWord (encodeWord i) = .ok i := by cases i <;> rfl

end Sys2Proof
end

