-- ==== Sys2Proof/Laws/Memory.lean ====
section
/-! SUPPORT. The byte memory: every operation keeps the canonical form, a read after a write, and the byte that a
wide write leaves at each index. -/

namespace Sys2Proof.Machine

@[simp] theorem Memory.read_nil (a : Nat) : Memory.read [] a = Memory.unlisted := rfl

@[simp] theorem Memory.unlisted_eq_zero : Memory.unlisted = 0 := rfl

theorem Memory.wf_nil : Memory.wf [] := by decide

theorem Memory.wf_cons {c : Host.Cell} {m : Memory} :
    Memory.wf (c :: m) ↔ (∀ d ∈ m, c.1 < d.1) ∧ c.2 ≠ Memory.unlisted ∧ Memory.wf m := by
  simp only [Memory.wf, List.pairwise_cons, List.mem_cons, forall_eq_or_imp]
  tauto

/-- An index below every listed one reads as unlisted. -/
theorem Memory.read_of_forall_lt {m : Memory} {a : Nat} (h : ∀ d ∈ m, a < d.1) :
    m.read a = Memory.unlisted := by
  induction m with
  | nil => rfl
  | cons c m ih =>
    have hc := h c (by simp)
    simp only [Memory.read]
    rw [if_neg (by omega)]
    exact ih fun d hd => h d (by simp [hd])

theorem Memory.mem_entry {a : Nat} {b : Byte} {c : Host.Cell} :
    c ∈ Memory.entry a b ↔ b ≠ Memory.unlisted ∧ c = (a, b) := by
  unfold Memory.entry; split <;> simp_all

/-- Every entry after a write is the written one or an old one. -/
theorem Memory.mem_write {m : Memory} {a : Nat} {b : Byte} {c : Host.Cell}
    (h : c ∈ m.write a b) : c = (a, b) ∧ b ≠ Memory.unlisted ∨ c ∈ m := by
  induction m with
  | nil => exact .inl (by simpa [Memory.write, Memory.mem_entry, and_comm] using h)
  | cons d m ih =>
    simp only [Memory.write] at h
    split at h
    · rcases List.mem_append.1 h with h | h
      · exact .inl (by simpa [Memory.mem_entry, and_comm] using h)
      · exact .inr h
    · split at h
      · rcases List.mem_append.1 h with h | h
        · exact .inl (by simpa [Memory.mem_entry, and_comm] using h)
        · exact .inr (List.mem_cons_of_mem _ h)
      · rcases List.mem_cons.1 h with h | h
        · exact .inr (h ▸ List.mem_cons_self ..)
        · exact (ih h).imp_right (List.mem_cons_of_mem _)

/-- An entry in front of a canonical memory of larger indices. -/
theorem Memory.wf_entry_append {m : Memory} {a : Nat} {b : Byte} (hm : m.wf) (h : ∀ d ∈ m, a < d.1) :
    Memory.wf (Memory.entry a b ++ m) := by
  unfold Memory.entry
  split
  · simpa using hm
  · exact Memory.wf_cons.2 ⟨h, ‹_›, hm⟩

/-- A write keeps the canonical form. -/
theorem Memory.write_wf {m : Memory} (hm : m.wf) (a : Nat) (b : Byte) : (m.write a b).wf := by
  induction m with
  | nil =>
    show Memory.wf (Memory.entry a b)
    simpa using Memory.wf_entry_append (m := []) (a := a) (b := b) Memory.wf_nil (by simp)
  | cons c m ih =>
    obtain ⟨hlt, hne, hwf⟩ := Memory.wf_cons.1 hm
    simp only [Memory.write]
    split
    · refine Memory.wf_entry_append hm fun d hd => ?_
      rcases List.mem_cons.1 hd with rfl | hd
      · assumption
      · exact lt_trans ‹_› (hlt d hd)
    · split
      · subst_vars
        exact Memory.wf_entry_append hwf hlt
      · refine Memory.wf_cons.2 ⟨fun d hd => ?_, hne, ih hwf⟩
        rcases Memory.mem_write hd with ⟨rfl, -⟩ | hd
        · show c.1 < a
          omega
        · exact hlt d hd

theorem Memory.read_entry_append {m : Memory} {a x : Nat} {b : Byte} (h : m.read a = Memory.unlisted) :
    Memory.read (Memory.entry a b ++ m) x = if x = a then b else m.read x := by
  unfold Memory.entry
  split
  · split <;> simp_all
  · simp only [List.singleton_append, Memory.read, eq_comm]

/-- A read after a write: the written byte at its index, every other byte as before. -/
theorem Memory.read_write {m : Memory} (hm : m.wf) (a : Nat) (b : Byte) (x : Nat) :
    (m.write a b).read x = if x = a then b else m.read x := by
  induction m with
  | nil =>
    have h := Memory.read_entry_append (m := []) (a := a) (b := b) (x := x) rfl
    simpa [Memory.write] using h
  | cons c m ih =>
    obtain ⟨hlt, hne, hwf⟩ := Memory.wf_cons.1 hm
    simp only [Memory.write]
    split
    · refine Memory.read_entry_append (Memory.read_of_forall_lt fun d hd => ?_)
      rcases List.mem_cons.1 hd with rfl | hd
      · assumption
      · exact lt_trans ‹_› (hlt d hd)
    · split
      · subst_vars
        rw [Memory.read_entry_append (Memory.read_of_forall_lt hlt)]
        by_cases hx : x = c.1
        · simp [hx]
        · simp [Memory.read, hx, Ne.symm hx]
      · simp only [Memory.read, ih hwf]
        by_cases hx : c.1 = x
        · rw [if_pos hx, if_neg (by omega), if_pos hx]
        · rw [if_neg hx, if_neg hx]

/-- A wide write keeps the canonical form. -/
theorem Memory.writeBytes_wf {m : Memory} (hm : m.wf) (i : Nat) (v : List Byte) : (m.writeBytes i v).wf := by
  induction v generalizing m i with
  | nil => exact hm
  | cons b v ih => exact ih (Memory.write_wf hm i b) (i + 1)

/-- Every entry after a wide write lies in the written range or is an old one. -/
theorem Memory.mem_writeBytes {m : Memory} {i : Nat} {v : List Byte} {c : Host.Cell}
    (h : c ∈ m.writeBytes i v) : (i ≤ c.1 ∧ c.1 < i + v.length) ∨ c ∈ m := by
  induction v generalizing m i with
  | nil => exact .inr h
  | cons b v ih =>
    rcases ih h with h | h
    · left; simp only [List.length_cons]; omega
    · rcases Memory.mem_write h with ⟨rfl, -⟩ | h
      · left; simp
      · exact .inr h

/-- A read after a wide write: the written bytes in their range, every other byte as before. -/
theorem Memory.read_writeBytes {m : Memory} (hm : m.wf) (i : Nat) (v : List Byte) (x : Nat) :
    (m.writeBytes i v).read x = if i ≤ x ∧ x < i + v.length then v.getD (x - i) 0 else m.read x := by
  induction v generalizing m i with
  | nil =>
    rw [if_neg (by simp only [List.length_nil]; omega)]
    rfl
  | cons b v ih =>
    show ((m.write i b).writeBytes (i + 1) v).read x = _
    rw [ih (Memory.write_wf hm i b), Memory.read_write hm]
    rcases Nat.lt_trichotomy x i with h | h | h
    · rw [if_neg (by omega), if_neg (by omega), if_neg (by omega)]
    · subst h
      rw [if_neg (by omega), if_pos rfl, if_pos (by simp)]
      simp
    · obtain ⟨k, rfl⟩ : ∃ k, x = i + 1 + k := ⟨x - (i + 1), by omega⟩
      have e : i + 1 + k - i = k + 1 := by omega
      simp only [List.length_cons, e, Nat.add_sub_cancel_left, List.getD_cons_succ]
      rw [if_neg (by omega : ¬ (i + 1 + k = i))]
      exact if_congr (by omega) rfl rfl

theorem Memory.writeWord_wf {m : Memory} (hm : m.wf) (k : Nat) (w : Word) : (m.writeWord k w).wf :=
  Memory.writeBytes_wf hm _ _

theorem Memory.readWord_nil (k : Nat) : Memory.readWord [] k = 0 := by
  show be32 0 0 0 0 = 0
  decide

/-- A word reads as written, every other word as before (R46). -/
theorem Memory.readWord_writeWord {m : Memory} (hm : m.wf) (k j : Nat) (w : Word) :
    (m.writeWord k w).readWord j = if j = k then w else m.readWord j := by
  unfold Memory.readWord Memory.writeWord
  simp only [Memory.read_writeBytes hm, show (wordBytes w).length = 4 from rfl]
  by_cases h : j = k
  · subst h
    rw [if_pos (by omega), if_pos (by omega), if_pos (by omega), if_pos (by omega), if_pos rfl]
    have e0 : 4 * j - 4 * j = 0 := by omega
    have e1 : 4 * j + 1 - 4 * j = 1 := by omega
    have e2 : 4 * j + 2 - 4 * j = 2 := by omega
    have e3 : 4 * j + 3 - 4 * j = 3 := by omega
    rw [e0, e1, e2, e3]
    exact be32_wordByte w
  · rw [if_neg (by omega), if_neg (by omega), if_neg (by omega), if_neg (by omega), if_neg h]

@[simp] theorem Memory.readBytes_length (m : Memory) (i n : Nat) : (m.readBytes i n).length = n := by
  simp [Memory.readBytes]

theorem Memory.readBytes_getD (m : Memory) (i n k : Nat) (h : k < n) :
    (m.readBytes i n).getD k 0 = m.read (i + k) := by
  simp [Memory.readBytes, h]

end Sys2Proof.Machine
end

