-- ==== Sys2Proof/Laws/Modes.lean ====
section
/-! SUPPORT. The mode functions by length and by byte, and padding. -/

namespace Sys2Proof.Machine

/-! ### Blocks of a sequence -/

/-- Byte `i` of block `j` of a sequence (R172). -/
theorem blockAt_get (m : List Byte) (j i : Nat) (h : i < 16) : (blockAt m j)[i] = m.getD (16 * j + i) 0 := by
  have e : 16 * j + 16 - 16 * j = 16 := by omega
  simp [blockAt, slice, e, List.getD_eq_getElem?_getD, h]

/-- The first block of a sequence that starts with a block. -/
theorem blockAt_append_zero (b : Block) (rest : List Byte) : blockAt (b.toList ++ rest) 0 = b := by
  refine Vector.ext fun i hi => ?_
  rw [blockAt_get _ _ _ hi]
  have hl : i < b.toList.length := by simpa using hi
  simp [List.getD_eq_getElem?_getD, List.getElem?_append_left hl, hi]

/-- The later blocks of a sequence that starts with a block. -/
theorem blockAt_append_succ (b : Block) (rest : List Byte) (j : Nat) :
    blockAt (b.toList ++ rest) (j + 1) = blockAt rest j := by
  refine Vector.ext fun i hi => ?_
  rw [blockAt_get _ _ _ hi, blockAt_get _ _ _ hi]
  have hl : b.toList.length ≤ 16 * (j + 1) + i := by simp; omega
  have e : 16 * (j + 1) + i - 16 = 16 * j + i := by omega
  simp [List.getD_eq_getElem?_getD, List.getElem?_append_right hl, e]

theorem mapBlocks_succ (f : Block → Block) (m : List Byte) (n : Nat) :
    mapBlocks f m (n + 1) = mapBlocks f m n ++ (f (blockAt m n)).toList := by
  simp [mapBlocks, List.range_succ]

@[simp] theorem mapBlocks_length (f : Block → Block) (m : List Byte) (n : Nat) :
    (mapBlocks f m n).length = 16 * n := by
  induction n with
  | zero => rfl
  | succ n ih => rw [mapBlocks_succ, List.length_append, ih]; simp; omega

/-- Byte `k` of the mapped blocks is byte `k mod 16` of the image of block `k div 16` (R172 to R174). -/
theorem mapBlocks_getD (f : Block → Block) (m : List Byte) (n k : Nat) (h : k < 16 * n) :
    (mapBlocks f m n).getD k 0 = (f (blockAt m (k / 16))).toList.getD (k % 16) 0 := by
  induction n with
  | zero => omega
  | succ n ih =>
    rw [mapBlocks_succ, List.getD_eq_getElem?_getD]
    by_cases hk : k < 16 * n
    · rw [List.getElem?_append_left (by simpa using hk), ← List.getD_eq_getElem?_getD, ih hk]
    · have h1 : k / 16 = n := by omega
      have h2 : k % 16 = k - 16 * n := by omega
      rw [List.getElem?_append_right (by simpa using Nat.le_of_not_lt hk), h1, h2, List.getD_eq_getElem?_getD,
        mapBlocks_length]

/-- Mapping the blocks of a mapped sequence (R173, R174). -/
theorem mapBlocks_mapBlocks (f g : Block → Block) (m : List Byte) (n : Nat) :
    mapBlocks g (mapBlocks f m n) n = mapBlocks (fun b => g (f b)) m n := by
  refine List.ext_getElem (by simp) fun k hk _ => ?_
  have hk : k < 16 * n := by simpa using hk
  have hb : blockAt (mapBlocks f m n) (k / 16) = f (blockAt m (k / 16)) := by
    refine Vector.ext fun i hi => ?_
    rw [blockAt_get _ _ _ hi, mapBlocks_getD _ _ _ _ (by omega), show (16 * (k / 16) + i) / 16 = k / 16 by omega,
      show (16 * (k / 16) + i) % 16 = i by omega]
    simp [hi]
  have h1 := mapBlocks_getD g (mapBlocks f m n) n k hk
  have h2 := mapBlocks_getD (fun b => g (f b)) m n k hk
  rw [hb] at h1
  have h3 := h1.trans h2.symm
  rw [List.getD_eq_getElem _ _ (by simpa using hk), List.getD_eq_getElem _ _ (by simpa using hk)] at h3
  exact h3

/-- The blocks of a sequence whose length is a multiple of 16 make it up again (R172). -/
theorem mapBlocks_id (m : List Byte) (n : Nat) (h : m.length = 16 * n) : mapBlocks (fun b => b) m n = m := by
  refine List.ext_getElem (by simp [h]) fun k hk hk' => ?_
  have h1 := mapBlocks_getD (fun b => b) m n k (by omega)
  rw [List.getD_eq_getElem _ _ hk] at h1
  have hi : k % 16 < 16 := Nat.mod_lt _ (by decide)
  have h2 := blockAt_get m (k / 16) (k % 16) hi
  rw [show 16 * (k / 16) + k % 16 = k by omega, List.getD_eq_getElem _ _ hk'] at h2
  rw [h1, ← h2]
  simp [hi]

/-! ### Padding -/

@[simp] theorem pad_length (m : List Byte) : (pad m).length = 16 * (m.length / 16) + 16 := by
  simp only [pad, padCount, rep, List.length_append, List.length_replicate]
  omega

/-- The bytes of a padded sequence (R170). -/
theorem pad_getD (m : List Byte) (k : Nat) (h : k < 16 * (m.length / 16) + 16) :
    (pad m).getD k 0 = if k < m.length then m.getD k 0 else BitVec.ofNat 8 (16 - m.length % 16) := by
  rw [List.getD_eq_getElem?_getD, List.getD_eq_getElem?_getD, pad]
  by_cases hk : k < m.length
  · rw [List.getElem?_append_left hk, if_pos hk]
  · rw [List.getElem?_append_right (Nat.le_of_not_lt hk), if_neg hk, rep, List.getElem?_replicate, padCount,
      if_pos (by omega)]
    rfl

/-- A removed padding is at least one byte and at most sixteen (R171). -/
theorem unpad_ok {strict : Bool} {m out : List Byte} (h : unpad strict m = .ok out) (hm : m.length ≠ 0)
    (h16 : m.length % 16 = 0) :
    out = m.take (m.length - (m.getD (m.length - 1) 0).toNat) ∧ out.length + 1 ≤ m.length ∧
      m.length ≤ out.length + 16 := by
  simp only [unpad, slice] at h
  split at h; · cases h
  split at h; · cases h
  cases h
  simp only [List.drop_zero, Nat.sub_zero, List.length_take]
  refine ⟨trivial, ?_, ?_⟩ <;> omega

/-- `Unpad` answers an output or PADDING (R171). -/
theorem unpad_cases (strict : Bool) (m : List Byte) :
    (∃ out, unpad strict m = .ok out) ∨ unpad strict m = .error .padding := by
  simp only [unpad]
  split
  · exact .inr rfl
  · split
    · exact .inr rfl
    · exact .inl ⟨_, rfl⟩

/-! ### The mode functions by length -/

@[simp] theorem ecbEncrypt_length (m : List Byte) (w : List Word) (nr : Nat) :
    (ecbEncrypt m w nr).length = 16 * (m.length / 16) + 16 := by
  simp only [ecbEncrypt, mapBlocks_length, pad_length]
  omega

@[simp] theorem cbcEncryptFrom_length (q : List Byte) (w : List Word) (nr n j : Nat) (chain : Block) :
    (cbcEncryptFrom q w nr n j chain).length = 16 * n := by
  induction n generalizing j chain with
  | zero => rfl
  | succ n ih => simp only [cbcEncryptFrom, List.length_append, ih, Vector.length_toList]; omega

@[simp] theorem cbcEncrypt_length (m : List Byte) (w : List Word) (nr : Nat) (iv : Block) :
    (cbcEncrypt m w nr iv).length = 16 * (m.length / 16) + 16 := by
  simp only [cbcEncrypt, cbcEncryptFrom_length, pad_length]
  omega

@[simp] theorem cbcDecryptFrom_length (c : List Byte) (w : List Word) (nr n j : Nat) (chain : Block) :
    (cbcDecryptFrom c w nr n j chain).length = 16 * n := by
  induction n generalizing j chain with
  | zero => rfl
  | succ n ih => simp only [cbcDecryptFrom, List.length_append, ih, Vector.length_toList]; omega

/-! ### CBC by block -/

/-- Block `j'` of a CBC encryption from block `j` on: the chain value is the block before it (R175). -/
theorem cbcEncryptFrom_block (q : List Byte) (w : List Word) (nr n j : Nat) (chain : Block) (k : Nat) (h : k < n) :
    blockAt (cbcEncryptFrom q w nr n j chain) k = cipher (xorBlock (blockAt q (j + k))
      (if k = 0 then chain else blockAt (cbcEncryptFrom q w nr n j chain) (k - 1))) w nr := by
  induction n generalizing j chain k with
  | zero => omega
  | succ n ih =>
    cases k with
    | zero => simp only [cbcEncryptFrom, blockAt_append_zero, Nat.add_zero, if_true]
    | succ k =>
      simp only [cbcEncryptFrom, blockAt_append_succ, ih (j + 1) _ k (by omega), Nat.add_sub_cancel]
      rw [if_neg (Nat.succ_ne_zero k), show j + 1 + k = j + (k + 1) by omega]
      cases k with
      | zero => simp only [if_true, blockAt_append_zero]
      | succ k => rw [if_neg (Nat.succ_ne_zero k), Nat.add_sub_cancel, blockAt_append_succ]

/-- Block `k` of a CBC decryption from block `j` on: the chain value is the ciphertext block before it (R176). -/
theorem cbcDecryptFrom_block (c : List Byte) (w : List Word) (nr n j : Nat) (chain : Block) (k : Nat) (h : k < n) :
    blockAt (cbcDecryptFrom c w nr n j chain) k = xorBlock (invCipher (blockAt c (j + k)) w nr)
      (if k = 0 then chain else blockAt c (j + k - 1)) := by
  induction n generalizing j chain k with
  | zero => omega
  | succ n ih =>
    cases k with
    | zero => simp only [cbcDecryptFrom, blockAt_append_zero, Nat.add_zero, if_true]
    | succ k =>
      simp only [cbcDecryptFrom, blockAt_append_succ, ih (j + 1) _ k (by omega)]
      rw [if_neg (Nat.succ_ne_zero k), show j + 1 + k = j + (k + 1) by omega]
      cases k with
      | zero => simp
      | succ k => rw [if_neg (Nat.succ_ne_zero k)]

end Sys2Proof.Machine
end

