-- ==== Sys2Proof/Laws/State.lean ====
section
/-! SUPPORT. One lemma per field and per operation that updates the state, so that no proof unfolds an update. -/

namespace Sys2Proof.Machine

@[simp] theorem leaveCommand_cfg (s : State) : (leaveCommand s).cfg = s.cfg := rfl
@[simp] theorem leaveCommand_cmd (s : State) : (leaveCommand s).cmd = s.cmd := rfl
@[simp] theorem leaveCommand_status (s : State) : (leaveCommand s).status = s.status := rfl
@[simp] theorem leaveCommand_keyLen (s : State) : (leaveCommand s).keyLen = s.keyLen := rfl
@[simp] theorem leaveCommand_dinLen (s : State) : (leaveCommand s).dinLen = s.dinLen := rfl
@[simp] theorem leaveCommand_doutLen (s : State) : (leaveCommand s).doutLen = s.doutLen := rfl
@[simp] theorem leaveCommand_key (s : State) : (leaveCommand s).key = s.key := rfl
@[simp] theorem leaveCommand_iv (s : State) : (leaveCommand s).iv = s.iv := rfl
@[simp] theorem leaveCommand_din (s : State) : (leaveCommand s).din = s.din := rfl
@[simp] theorem leaveCommand_dout (s : State) : (leaveCommand s).dout = s.dout := rfl
@[simp] theorem leaveCommand_phase (s : State) : (leaveCommand s).phase = .idle := rfl
@[simp] theorem leaveCommand_work (s : State) : (leaveCommand s).work = leftWorking s.cfg s.freeIndex := rfl
@[simp] theorem leaveCommand_staged (s : State) : (leaveCommand s).staged = [] := rfl
@[simp] theorem leaveCommand_settled (s : State) : (leaveCommand s).settled = none := rfl
@[simp] theorem leaveCommand_freeIndex (s : State) : (leaveCommand s).freeIndex = s.freeIndex + 1 := rfl
@[simp] theorem leaveCommand_turns (s : State) : (leaveCommand s).turns = s.turns := rfl
@[simp] theorem leaveCommand_replies (s : State) : (leaveCommand s).replies = s.replies := rfl

@[simp] theorem startCommand_cfg (s : State) (v : Word) : (startCommand s v).cfg = s.cfg := rfl
@[simp] theorem startCommand_cmd (s : State) (v : Word) : (startCommand s v).cmd = v := rfl
@[simp] theorem startCommand_status (s : State) (v : Word) : (startCommand s v).status = statusBusy := rfl
@[simp] theorem startCommand_keyLen (s : State) (v : Word) : (startCommand s v).keyLen = s.keyLen := rfl
@[simp] theorem startCommand_dinLen (s : State) (v : Word) : (startCommand s v).dinLen = s.dinLen := rfl
@[simp] theorem startCommand_doutLen (s : State) (v : Word) : (startCommand s v).doutLen = 0 := rfl
@[simp] theorem startCommand_key (s : State) (v : Word) : (startCommand s v).key = s.key := rfl
@[simp] theorem startCommand_iv (s : State) (v : Word) : (startCommand s v).iv = s.iv := rfl
@[simp] theorem startCommand_din (s : State) (v : Word) : (startCommand s v).din = s.din := rfl
@[simp] theorem startCommand_dout (s : State) (v : Word) : (startCommand s v).dout = [] := rfl
@[simp] theorem startCommand_phase (s : State) (v : Word) : (startCommand s v).phase = .check := rfl
@[simp] theorem startCommand_work (s : State) (v : Word) : (startCommand s v).work = s.work := rfl
@[simp] theorem startCommand_staged (s : State) (v : Word) : (startCommand s v).staged = [] := rfl
@[simp] theorem startCommand_settled (s : State) (v : Word) : (startCommand s v).settled = none := rfl
@[simp] theorem startCommand_freeIndex (s : State) (v : Word) : (startCommand s v).freeIndex = s.freeIndex := rfl
@[simp] theorem startCommand_turns (s : State) (v : Word) : (startCommand s v).turns = s.turns := rfl
@[simp] theorem startCommand_replies (s : State) (v : Word) : (startCommand s v).replies = s.replies := rfl

@[simp] theorem resetEvent_cfg (s : State) : (resetEvent s).cfg = s.cfg := rfl
@[simp] theorem resetEvent_cmd (s : State) : (resetEvent s).cmd = 0 := rfl
@[simp] theorem resetEvent_status (s : State) : (resetEvent s).status = 0 := rfl
@[simp] theorem resetEvent_keyLen (s : State) : (resetEvent s).keyLen = 0 := rfl
@[simp] theorem resetEvent_dinLen (s : State) : (resetEvent s).dinLen = 0 := rfl
@[simp] theorem resetEvent_doutLen (s : State) : (resetEvent s).doutLen = 0 := rfl
@[simp] theorem resetEvent_key (s : State) : (resetEvent s).key = Vector.replicate 8 0 := rfl
@[simp] theorem resetEvent_iv (s : State) : (resetEvent s).iv = Vector.replicate 4 0 := rfl
@[simp] theorem resetEvent_din (s : State) : (resetEvent s).din = [] := rfl
@[simp] theorem resetEvent_dout (s : State) : (resetEvent s).dout = [] := rfl
@[simp] theorem resetEvent_phase (s : State) : (resetEvent s).phase = .idle := rfl
@[simp] theorem resetEvent_work (s : State) : (resetEvent s).work = leftWorking s.cfg s.freeIndex := rfl
@[simp] theorem resetEvent_staged (s : State) : (resetEvent s).staged = [] := rfl
@[simp] theorem resetEvent_settled (s : State) : (resetEvent s).settled = none := rfl
@[simp] theorem resetEvent_freeIndex (s : State) : (resetEvent s).freeIndex = s.freeIndex + 1 := rfl
@[simp] theorem resetEvent_turns (s : State) : (resetEvent s).turns = s.turns := rfl
@[simp] theorem resetEvent_replies (s : State) : (resetEvent s).replies = s.replies := rfl

@[simp] theorem loadCommand_cfg (s : State) (v : Word) : (loadCommand s v).cfg = s.cfg := rfl
@[simp] theorem loadCommand_cmd (s : State) (v : Word) : (loadCommand s v).cmd = v := rfl
@[simp] theorem loadCommand_status (s : State) (v : Word) : (loadCommand s v).status = statusBusy := rfl
@[simp] theorem loadCommand_keyLen (s : State) (v : Word) : (loadCommand s v).keyLen = s.keyLen := rfl
@[simp] theorem loadCommand_dinLen (s : State) (v : Word) : (loadCommand s v).dinLen = s.dinLen := rfl
@[simp] theorem loadCommand_doutLen (s : State) (v : Word) : (loadCommand s v).doutLen = 0 := rfl
@[simp] theorem loadCommand_key (s : State) (v : Word) : (loadCommand s v).key = s.key := rfl
@[simp] theorem loadCommand_iv (s : State) (v : Word) : (loadCommand s v).iv = s.iv := rfl
@[simp] theorem loadCommand_din (s : State) (v : Word) : (loadCommand s v).din = s.din := rfl
@[simp] theorem loadCommand_dout (s : State) (v : Word) : (loadCommand s v).dout = [] := rfl
@[simp] theorem loadCommand_phase (s : State) (v : Word) : (loadCommand s v).phase = .check := rfl
@[simp] theorem loadCommand_work (s : State) (v : Word) : (loadCommand s v).work = s.work := rfl
@[simp] theorem loadCommand_staged (s : State) (v : Word) : (loadCommand s v).staged = [] := rfl
@[simp] theorem loadCommand_settled (s : State) (v : Word) : (loadCommand s v).settled = none := rfl
@[simp] theorem loadCommand_freeIndex (s : State) (v : Word) : (loadCommand s v).freeIndex = s.freeIndex := rfl
@[simp] theorem loadCommand_turns (s : State) (v : Word) : (loadCommand s v).turns = .core :: s.turns := rfl
@[simp] theorem loadCommand_replies (s : State) (v : Word) : (loadCommand s v).replies = s.replies := rfl

@[simp] theorem settle_cfg (s : State) (r : Result) : (settle s r).cfg = s.cfg := rfl
@[simp] theorem settle_cmd (s : State) (r : Result) : (settle s r).cmd = s.cmd := rfl
@[simp] theorem settle_status (s : State) (r : Result) : (settle s r).status = s.status := rfl
@[simp] theorem settle_keyLen (s : State) (r : Result) : (settle s r).keyLen = s.keyLen := rfl
@[simp] theorem settle_dinLen (s : State) (r : Result) : (settle s r).dinLen = s.dinLen := rfl
@[simp] theorem settle_doutLen (s : State) (r : Result) : (settle s r).doutLen = s.doutLen := rfl
@[simp] theorem settle_key (s : State) (r : Result) : (settle s r).key = s.key := rfl
@[simp] theorem settle_iv (s : State) (r : Result) : (settle s r).iv = s.iv := rfl
@[simp] theorem settle_din (s : State) (r : Result) : (settle s r).din = s.din := rfl
@[simp] theorem settle_dout (s : State) (r : Result) : (settle s r).dout = s.dout := rfl
@[simp] theorem settle_phase (s : State) (r : Result) : (settle s r).phase = s.phase := rfl
@[simp] theorem settle_work (s : State) (r : Result) : (settle s r).work = s.work := rfl
@[simp] theorem settle_staged (s : State) (r : Result) : (settle s r).staged = s.staged := rfl
@[simp] theorem settle_settled (s : State) (r : Result) : (settle s r).settled = some r := rfl
@[simp] theorem settle_freeIndex (s : State) (r : Result) : (settle s r).freeIndex = s.freeIndex := rfl
@[simp] theorem settle_turns (s : State) (r : Result) : (settle s r).turns = s.turns := rfl
@[simp] theorem settle_replies (s : State) (r : Result) : (settle s r).replies = s.replies := rfl

@[simp] theorem leaveCommand_busy (s : State) : (leaveCommand s).busy = s.busy := rfl
@[simp] theorem startCommand_busy (s : State) (v : Word) : (startCommand s v).busy = true := by
  show statusBusy.getLsbD 0 = true
  decide
@[simp] theorem resetEvent_busy (s : State) : (resetEvent s).busy = false := by
  show (0 : Word).getLsbD 0 = false
  decide
@[simp] theorem loadCommand_busy (s : State) (v : Word) : (loadCommand s v).busy = true := by
  show statusBusy.getLsbD 0 = true
  decide
@[simp] theorem settle_busy (s : State) (r : Result) : (settle s r).busy = s.busy := rfl

end Sys2Proof.Machine
end

