-- ==== Sys2Proof/Laws/Ops.lean ====
section
/-! SUPPORT. What each shared operation can do, once: the completion, the commands over it, the host's accesses, and
the turns of a step. -/

namespace Sys2Proof

@[simp] theorem Instr.of_mode_variant (i : Instr) : Instr.of i.mode i.variant = i := by cases i <;> rfl
@[simp] theorem Instr.mode_of (m : Mode) (v : Variant) : (Instr.of m v).mode = m := by cases m <;> cases v <;> rfl
@[simp] theorem Instr.variant_of (m : Mode) (v : Variant) : (Instr.of m v).variant = v := by
  cases m <;> cases v <;> rfl

theorem Config.wf_iff (c : Config) : c.wf = true ↔ c.bufCap % 16 = 0 ∧ 32 ≤ c.bufCap ∧ c.bufCap ≤ 65536 := by
  simp [Config.wf, Config.bufCapAligned, Config.bufCapInRange]

namespace Machine

/-! ### Completion and commands -/

/-- The completion with an output (R52). -/
theorem complete_ok (s : State) (out : List Byte) : complete s (.ok out) = .next { leaveCommand s with
    dout := s.dout.writeBytes 0 out, doutLen := BitVec.ofNat 32 out.length, status := statusDone } := rfl

/-- The completion with an error (R52, R226). -/
theorem complete_error (s : State) (c : ErrClass) :
    complete s (.error c) = .next { leaveCommand s with status := statusError c } := rfl

/-- A state whose visible part differs in STATUS, DOUT_LEN and DOUT only is framed (R28). -/
theorem State.framed_of_visible {s t : State}
    (h : t.visible = { s.visible with status := t.status, doutLen := t.doutLen, dout := t.dout }) : s.Framed t where
  cfg := congrArg Visible.cfg h
  cmd := congrArg Visible.cmd h
  keyLen := congrArg Visible.keyLen h
  dinLen := congrArg Visible.dinLen h
  key := congrArg Visible.key h
  iv := congrArg Visible.iv h
  din k := congrArg (fun v => v.din.read k) h
  turns := congrArg Visible.turns h
  replies := congrArg Visible.replies h

/-- A completion is the end of the command with another STATUS, DOUT_LEN and DOUT, and STATUS is not busy. -/
theorem complete_eq (s : State) (r : Result) : ∃ status doutLen dout, status.getLsbD 0 = false ∧
    complete s r = .next { leaveCommand s with status := status, doutLen := doutLen, dout := dout } := by
  cases r with
  | ok out => exact ⟨statusDone, _, _, by decide, complete_ok s out⟩
  | error c => exact ⟨statusError c, _, _, by cases c <;> decide, complete_error s c⟩

/-- A completion is always a next state, idle, and changes nothing the host can see but STATUS, DOUT_LEN and DOUT. -/
theorem complete_next (s : State) (r : Result) : ∃ t, complete s r = .next t ∧ t.busy = false ∧ t.phase = .idle ∧
    t.staged = [] ∧ t.settled = none ∧ t.work = leftWorking s.cfg s.freeIndex ∧ t.freeIndex = s.freeIndex + 1 ∧
    t.din = s.din ∧ s.Framed t := by
  obtain ⟨status, doutLen, dout, hb, h⟩ := complete_eq s r
  refine ⟨_, h, hb, ?_⟩
  simp only [leaveCommand, true_and]
  exact State.framed_of_visible rfl

/-- Every command is the completion of what `Execute`'s case distinction answers (R52, R66). -/
theorem exec_of (m : Mode) (v : Variant) (s : State) :
    exec (Instr.of m v) s = complete s (runCommand s.cfg m v s.operands) := by
  cases m <;> cases v <;> rfl

theorem exec_eq (i : Instr) (s : State) :
    exec i s = complete s (runCommand s.cfg i.mode i.variant s.operands) := by
  conv_lhs => rw [← Instr.of_mode_variant i]
  exact exec_of _ _ s

/-- The completion step applies `Execute` (R52). -/
theorem completeCommand_eq (s : State) : completeCommand s = complete s (execute s.cfg s.cmd s.operands) := by
  unfold completeCommand execute
  cases decodeWord s.cmd with
  | ok i => exact exec_eq i s
  | error e => rfl

/-- The common checks of R66 pass exactly under `Accepts`. -/
theorem withOperands_accepts {s : State} {v : Variant} (h : s.Accepts v)
    (body : List Byte → List Byte → Block → Result) :
    withOperands s.cfg v s.operands body = body s.operands.text (s.operands.key v) s.operands.ivb := by
  obtain ⟨hk, hd⟩ := h
  have hk : s.operands.keyLen = 4 * v.nk := hk
  have hd : ¬ s.operands.dinLen > s.cfg.bufCap := Nat.not_lt.2 hd
  rw [withOperands, if_neg (not_not.2 hk), if_neg hd]

/-- A common check that fails gives LENGTH (R225). -/
theorem withOperands_rejects {s : State} {v : Variant} (h : ¬ s.Accepts v)
    (body : List Byte → List Byte → Block → Result) :
    withOperands s.cfg v s.operands body = .error .length := by
  unfold withOperands
  by_cases hk : s.operands.keyLen = 4 * v.nk
  · by_cases hd : s.operands.dinLen > s.cfg.bufCap
    · rw [if_neg (not_not.2 hk), if_pos hd]
    · exact absurd ⟨hk, Nat.le_of_not_lt hd⟩ h
  · rw [if_pos hk]

@[simp] theorem State.text_length (s : State) : s.operands.text.length = s.dinLen.toNat :=
  Memory.readBytes_length _ _ _

theorem State.text_getD (s : State) {k : Nat} (h : k < s.dinLen.toNat) :
    s.operands.text.getD k 0 = s.din.read k := by
  have := Memory.readBytes_getD s.din 0 s.dinLen.toNat k h
  simpa [State.operands, Operands.text] using this

/-- The completion with an output of fewer than 2^32 bytes, in the terms of the obligations (R52). -/
theorem complete_ok_completedWith {s : State} (hd : s.dout.wf) {out : List Byte} (hl : out.length < 2 ^ 32) :
    ∃ t, complete s (.ok out) = .next t ∧ s.CompletedWith t out.length (fun k => out.getD k 0) := by
  refine ⟨_, complete_ok s out, ⟨rfl, ?_, fun k => ?_, rfl, State.framed_of_visible rfl⟩⟩
  · simp only [BitVec.toNat_ofNat]
    exact Nat.mod_eq_of_lt hl
  · show (s.dout.writeBytes 0 out).read k = _
    rw [Memory.read_writeBytes hd]
    simp

/-- The completion with an error, in the terms of the obligations (R52, R226). -/
theorem complete_error_failedWith (s : State) (c : ErrClass) :
    ∃ t, complete s (.error c) = .next t ∧ s.FailedWith t c :=
  ⟨_, complete_error s c, ⟨rfl, rfl, fun _ => rfl, rfl, State.framed_of_visible rfl⟩⟩

/-! ### The map of REG -/

/-- What the host reads depends on the visible state only (R27, R48). -/
theorem readReg_of_visible {s t : State} (h : s.visible = t.visible) (r : Reg) : readReg s r = readReg t r := by
  simp only [State.visible, Visible.mk.injEq] at h
  obtain ⟨h0, h1, h2, h3, h4, h5, h6, h7, h8, h9, h10, -⟩ := h
  cases r <;> simp only [readReg, State.cap, *]

/-- Where each register stands, read off the table of R41; an unmapped place is anywhere. -/
def Reg.StandsAt (cap o : Nat) : Reg → Prop
  | .cmd => o = 0x00000
  | .status => o = 0x00004
  | .keyLen => o = 0x00008
  | .dinLen => o = 0x0000C
  | .doutLen => o = 0x00010
  | .cap => o = 0x00014
  | .key k => o = 0x00020 + 4 * k.val
  | .iv k => o = 0x00040 + 4 * k.val
  | .din k => 4 * k < cap ∧ o = 0x10000 + 4 * k
  | .dout k => 4 * k < cap ∧ o = 0x20000 + 4 * k
  | .unmapped => True

/-- What the map finds at an aligned offset stands there. -/
theorem regAt_standsAt (cap : Nat) {o : Nat} (ho : o % 4 = 0) : (regAt cap o).StandsAt cap o := by
  unfold regAt
  split_ifs <;> simp only [Reg.StandsAt, Fin.val_ofNat] <;> omega

theorem regAt_key (cap : Nat) (k : Fin 8) : regAt cap (0x00020 + 4 * k.val) = .key k := by
  have := k.isLt
  unfold regAt
  split_ifs <;> first | omega | exact congrArg _ (Fin.ext (by simp only [Fin.val_ofNat]; omega))

theorem regAt_iv (cap : Nat) (k : Fin 4) : regAt cap (0x00040 + 4 * k.val) = .iv k := by
  have := k.isLt
  unfold regAt
  split_ifs <;> first | omega | exact congrArg _ (Fin.ext (by simp only [Fin.val_ofNat]; omega))

theorem regAt_din {cap k : Nat} (h : 4 * k < cap) : regAt cap (0x10000 + 4 * k) = .din k := by
  unfold regAt
  split_ifs <;> first | omega | (congr 1; omega)

theorem regAt_dout {cap k : Nat} (hc : cap ≤ 65536) (h : 4 * k < cap) : regAt cap (0x20000 + 4 * k) = .dout k := by
  unfold regAt
  split_ifs <;> first | omega | (congr 1; omega)

/-- Every register stands at one offset only: what `regAt` finds at an aligned offset is there or nowhere. -/
theorem regAt_cases (cap o : Nat) (ho : o % 4 = 0) :
    (o = 0x00000 ∧ regAt cap o = .cmd) ∨ (o = 0x00004 ∧ regAt cap o = .status) ∨
    (o = 0x00008 ∧ regAt cap o = .keyLen) ∨ (o = 0x0000C ∧ regAt cap o = .dinLen) ∨
    (o = 0x00010 ∧ regAt cap o = .doutLen) ∨ (o = 0x00014 ∧ regAt cap o = .cap) ∨
    (∃ k : Fin 8, o = 0x00020 + 4 * k.val ∧ regAt cap o = .key k) ∨
    (∃ k : Fin 4, o = 0x00040 + 4 * k.val ∧ regAt cap o = .iv k) ∨
    (∃ k, 4 * k < cap ∧ o = 0x10000 + 4 * k ∧ regAt cap o = .din k) ∨
    (∃ k, 4 * k < cap ∧ o = 0x20000 + 4 * k ∧ regAt cap o = .dout k) ∨
    regAt cap o = .unmapped := by
  have h := regAt_standsAt cap ho
  cases hr : regAt cap o <;> rw [hr] at h <;> simp_all [Reg.StandsAt]

/-- No register stands at two offsets. -/
theorem regAt_inj {cap o p : Nat} (ho : o % 4 = 0) (hp : p % 4 = 0) (he : regAt cap o = regAt cap p)
    (hu : regAt cap o ≠ .unmapped) : o = p := by
  have h := regAt_standsAt cap ho
  have h' := regAt_standsAt cap hp
  rw [← he] at h'
  cases hr : regAt cap o <;> rw [hr] at h h' <;> simp only [Reg.StandsAt] at h h' <;>
    first | omega | exact absurd hr hu

/-- A write to a register other than CMD leaves what every other register reads (R48). -/
theorem readReg_writeReg_ne {s : State} (hd : s.din.wf) {r q : Reg} (hr : r ≠ .cmd) (h : q ≠ r) (v : Word) :
    readReg (writeReg s r v) q = readReg s q := by
  cases r <;> cases q <;> simp_all [writeReg, readReg, State.cap]
  · rw [Vector.getElem_set, if_neg fun e => h (Fin.ext e.symm)]
  · rw [Vector.getElem_set, if_neg fun e => h (Fin.ext e.symm)]
  · rw [Memory.readWord_writeWord hd, if_neg h]

@[simp] theorem writeReg_cfg (s : State) (r : Reg) (v : Word) : (writeReg s r v).cfg = s.cfg := by cases r <;> rfl

/-! ### Accesses and turns -/

theorem hostWrite_of_busy {s : State} (h : s.busy = true) (o : Nat) (v : Word) : hostWrite s o v = s := by
  simp [hostWrite, h]

theorem hostWrite_of_idle {s : State} (h : s.busy = false) (o : Nat) (v : Word) :
    hostWrite s o v = writeReg s (regAt s.cfg.bufCap o) v := by
  simp [hostWrite, h]

theorem checkAccess_inReg {o : Nat} (h : InReg o) (go : Host.Outcome State Fault Refusal) :
    checkAccess o 4 go = go := by
  have h1 : ¬ regSize ≤ o := Nat.not_le.2 h.1
  simp [checkAccess, h.2, h1]

/-- A step whose next turn is a read. -/
theorem step_read {s : State} {o : Nat} {rest : List Turn} (h : InReg o) (ht : s.turns = .host (.read o 4) :: rest) :
    step s = .next { s with turns := rest, replies := hostRead s o :: s.replies } := by
  simp only [step, ht, takeTurn, access, checkAccess_inReg h]
  rfl

/-- A step whose next turn is a write. -/
theorem step_write {s : State} {o : Nat} {v : Word} {rest : List Turn} (h : InReg o)
    (ht : s.turns = .host (.write o 4 v) :: rest) :
    step s = .next (hostWrite { s with turns := rest } o v) := by
  simp only [step, ht, takeTurn, access, checkAccess_inReg h]

/-- A write while the core is busy changes nothing (R53). -/
theorem step_write_busy {s : State} {o : Nat} {v : Word} {rest : List Turn} (h : InReg o) (hb : s.busy = true)
    (ht : s.turns = .host (.write o 4 v) :: rest) : step s = .next { s with turns := rest } :=
  (step_write h ht).trans (congrArg _ (hostWrite_of_busy (s := { s with turns := rest }) hb o v))

/-- A write while the core is idle. -/
theorem step_write_idle {s : State} {o : Nat} {v : Word} {rest : List Turn} (h : InReg o) (hb : s.busy = false)
    (ht : s.turns = .host (.write o 4 v) :: rest) :
    step s = .next (writeReg { s with turns := rest } (regAt s.cfg.bufCap o) v) :=
  (step_write h ht).trans (congrArg _ (hostWrite_of_idle (s := { s with turns := rest }) hb o v))

/-- A write to CMD while the core is idle starts a command (R51). -/
theorem step_start {s : State} {v : Word} {rest : List Turn} (hb : s.busy = false)
    (ht : s.turns = .host (.write 0x00000 4 v) :: rest) :
    step s = .next (startCommand { s with turns := rest } v) :=
  step_write_idle ⟨by decide, by decide⟩ hb ht

theorem step_reset {s : State} {rest : List Turn} (ht : s.turns = .reset :: rest) :
    step s = .next (resetEvent { s with turns := rest }) := by
  simp only [step, ht, takeTurn]

theorem step_core_busy {s : State} {rest : List Turn} (ht : s.turns = .core :: rest) (hb : s.busy = true) :
    step s = completeCommand { s with turns := rest } := by
  simp only [step, ht, takeTurn]
  exact if_pos hb

theorem step_core_idle {s : State} {rest : List Turn} (ht : s.turns = .core :: rest) (hb : s.busy = false) :
    step s = .next { s with turns := rest } := by
  simp only [step, ht, takeTurn]
  exact if_neg (by rw [show ({ s with turns := rest } : State).busy = s.busy from rfl, hb]; decide)

/-- A step whose next turn is the sequencer's, while the core is busy. -/
theorem step_advance_busy {s : State} {rest : List Turn} (ht : s.turns = .advance :: rest) (hb : s.busy = true) :
    step s = .next (sequencerStep { s with turns := rest }) := by
  simp only [step, ht, takeTurn]
  exact congrArg _ (if_pos hb)

theorem step_advance_idle {s : State} {rest : List Turn} (ht : s.turns = .advance :: rest) (hb : s.busy = false) :
    step s = .next { s with turns := rest } := by
  simp only [step, ht, takeTurn]
  exact congrArg _ (if_neg (by rw [show ({ s with turns := rest } : State).busy = s.busy from rfl, hb]; decide))

theorem step_nil_busy {s : State} (ht : s.turns = []) (hb : s.busy = true) : step s = completeCommand s := by
  simp [step, ht, takeLastTurn, hb]

theorem step_nil_idle {s : State} (ht : s.turns = []) (hb : s.busy = false) : step s = .next s := by
  simp [step, ht, takeLastTurn, hb]

/-- Everything a step can be, by the turn it takes. -/
theorem step_cases (s : State) :
    (s.turns = [] ∧ s.busy = true ∧ step s = completeCommand s) ∨
    (s.turns = [] ∧ s.busy = false ∧ step s = .next s) ∨
    (∃ a rest, s.turns = .host a :: rest ∧ step s = access { s with turns := rest } a) ∨
    (∃ rest, s.turns = .reset :: rest ∧ step s = .next (resetEvent { s with turns := rest })) ∨
    (∃ rest, s.turns = .core :: rest ∧ s.busy = true ∧ step s = completeCommand { s with turns := rest }) ∨
    (∃ rest, s.turns = .core :: rest ∧ s.busy = false ∧ step s = .next { s with turns := rest }) ∨
    (∃ rest, s.turns = .advance :: rest ∧ s.busy = true ∧ step s = .next (sequencerStep { s with turns := rest })) ∨
    ∃ rest, s.turns = .advance :: rest ∧ s.busy = false ∧ step s = .next { s with turns := rest } := by
  cases ht : s.turns with
  | nil => cases hb : s.busy <;> simp [step, ht, takeLastTurn, hb]
  | cons a rest =>
    have hb' : ({ s with turns := rest } : State).busy = s.busy := rfl
    cases a <;> cases hb : s.busy <;> simp [step, ht, takeTurn, hb', hb]

/-- An access that answers a next state is a read of REG or a write to REG. -/
theorem access_next {s t : State} {a : Access} (h : access s a = .next t) :
    (∃ o, InReg o ∧ a = .read o 4 ∧ t = { s with replies := hostRead s o :: s.replies }) ∨
    ∃ o v, InReg o ∧ a = .write o 4 v ∧ t = hostWrite s o v := by
  have key : ∀ {o w : Nat} {go : Host.Outcome State Fault Refusal}, checkAccess o w go = .next t →
      w = 4 ∧ InReg o ∧ go = .next t := by
    intro o w go h
    unfold checkAccess at h
    split at h; · cases h
    split at h; · cases h
    split at h; · cases h
    exact ⟨by omega, ⟨Nat.not_le.1 ‹_›, by omega⟩, h⟩
  cases a with
  | read o w =>
    obtain ⟨rfl, ho, h⟩ := key h
    cases h
    exact .inl ⟨o, ho, rfl, rfl⟩
  | write o w v =>
    obtain ⟨rfl, ho, h⟩ := key h
    cases h
    exact .inr ⟨o, v, ho, rfl, rfl⟩

/-- The accesses of legal turns are the ones inside REG (R40, R46). -/
theorem legal_host {a : Access} (h : Turn.legal (.host a) = true) :
    (∃ o, InReg o ∧ a = .read o 4) ∨ ∃ o v, InReg o ∧ a = .write o 4 v := by
  cases a with
  | read o w =>
    simp only [Turn.legal, Bool.and_eq_true, beq_iff_eq, decide_eq_true_eq] at h
    obtain ⟨⟨rfl, h2⟩, h3⟩ := h
    exact .inl ⟨o, ⟨h3, h2⟩, rfl⟩
  | write o w v =>
    simp only [Turn.legal, Bool.and_eq_true, beq_iff_eq, decide_eq_true_eq] at h
    obtain ⟨⟨rfl, h2⟩, h3⟩ := h
    exact .inr ⟨o, v, ⟨h3, h2⟩, rfl⟩

end Machine

end Sys2Proof
end

