-- ==== Sys2Proof/Laws/PerInstr.lean ====
section
/-! SUPPORT. Statements made per instruction, one lemma for each constructor. -/

namespace Sys2Proof.Laws.Encoding

/-- The encoding of a command: it is well formed, its fields are legal, and both decoders read it back (R60 to R64). -/
def Statement (i : Instr) : Prop :=
  i.wf = true ∧ i.fields.wf = true ∧ decodeWord (encodeWord i) = .ok i ∧ decode (encode i) = .ok (i, []) ∧
    Instr.of i.mode i.variant = i

/-- It holds of every command; the lemmas below are its cases. -/
theorem all (i : Instr) : Statement i := by
  unfold Statement
  cases i <;> decide

theorem encryptAes128 : Statement .encryptAes128 := all _
theorem encryptAes192 : Statement .encryptAes192 := all _
theorem encryptAes256 : Statement .encryptAes256 := all _
theorem decryptAes128 : Statement .decryptAes128 := all _
theorem decryptAes192 : Statement .decryptAes192 := all _
theorem decryptAes256 : Statement .decryptAes256 := all _
theorem ecbEncryptAes128 : Statement .ecbEncryptAes128 := all _
theorem ecbEncryptAes192 : Statement .ecbEncryptAes192 := all _
theorem ecbEncryptAes256 : Statement .ecbEncryptAes256 := all _
theorem ecbDecryptAes128 : Statement .ecbDecryptAes128 := all _
theorem ecbDecryptAes192 : Statement .ecbDecryptAes192 := all _
theorem ecbDecryptAes256 : Statement .ecbDecryptAes256 := all _
theorem cbcEncryptAes128 : Statement .cbcEncryptAes128 := all _
theorem cbcEncryptAes192 : Statement .cbcEncryptAes192 := all _
theorem cbcEncryptAes256 : Statement .cbcEncryptAes256 := all _
theorem cbcDecryptAes128 : Statement .cbcDecryptAes128 := all _
theorem cbcDecryptAes192 : Statement .cbcDecryptAes192 := all _
theorem cbcDecryptAes256 : Statement .cbcDecryptAes256 := all _
theorem cmacAes128 : Statement .cmacAes128 := all _
theorem cmacAes192 : Statement .cmacAes192 := all _
theorem cmacAes256 : Statement .cmacAes256 := all _

end Sys2Proof.Laws.Encoding
end

