-- ==== Sys2Proof/Laws/Results.lean ====
section
/-! SUPPORT. What `Execute` can answer: errors in the order of the checks, and outputs that fit DOUT. -/

namespace Sys2Proof.Machine

/-- The command function of a mode, past the common checks (R66). -/
def commandBody (cfg : Config) (m : Mode) (v : Variant) (text key : List Byte) (iv : Block) : Result :=
  match m with
  | .encrypt => cmdEncrypt text key v.nk v.nr
  | .decrypt => cmdDecrypt text key v.nk v.nr
  | .ecbEncrypt => cmdEcbEncrypt cfg text key v.nk v.nr
  | .ecbDecrypt => cmdEcbDecrypt cfg text key v.nk v.nr
  | .cbcEncrypt => cmdCbcEncrypt cfg text key iv v.nk v.nr
  | .cbcDecrypt => cmdCbcDecrypt cfg text key iv v.nk v.nr
  | .cmac => cmdCmac text key v.nk v.nr

theorem runCommand_eq (cfg : Config) (m : Mode) (v : Variant) (o : Operands) :
    runCommand cfg m v o = withOperands cfg v o (commandBody cfg m v) := by cases m <;> rfl

/-- A command on accepted operands is its command function (R66). -/
theorem runCommand_accepts {s : State} {v : Variant} (m : Mode) (h : s.Accepts v) :
    runCommand s.cfg m v s.operands =
      commandBody s.cfg m v s.operands.text (s.operands.key v) s.operands.ivb := by
  rw [runCommand_eq, withOperands_accepts h]

/-- A command whose common checks fail is LENGTH (R225). -/
theorem runCommand_rejects {s : State} {v : Variant} (m : Mode) (h : ¬ s.Accepts v) :
    runCommand s.cfg m v s.operands = .error .length := by
  rw [runCommand_eq, withOperands_rejects h]

/-- An output of a command has at most BUF_CAP bytes (R65, R66). -/
theorem runCommand_ok_length {cfg : Config} (hc : cfg.wf = true) {m : Mode} {v : Variant} {o : Operands}
    {out : List Byte} (h : runCommand cfg m v o = .ok out) : out.length ≤ cfg.bufCap := by
  obtain ⟨h16, h32, hmax⟩ := (Config.wf_iff cfg).1 hc
  obtain ⟨hb, hd⟩ : commandBody cfg m v o.text (o.key v) o.ivb = .ok out ∧ o.dinLen ≤ cfg.bufCap := by
    rw [runCommand_eq] at h
    unfold withOperands at h
    split at h; · cases h
    split at h; · cases h
    exact ⟨h, by omega⟩
  have hl : o.text.length = o.dinLen := Memory.readBytes_length _ _ _
  cases m <;> simp only [commandBody] at hb
  case encrypt =>
    unfold cmdEncrypt at hb
    split at hb; · cases hb
    cases hb
    simp; omega
  case decrypt =>
    unfold cmdDecrypt at hb
    split at hb; · cases hb
    cases hb
    simp; omega
  case ecbEncrypt =>
    unfold cmdEcbEncrypt at hb
    split at hb; · cases hb
    cases hb
    rename_i hp
    rw [ecbEncrypt_length]
    unfold paddedLength at hp
    omega
  case cbcEncrypt =>
    unfold cmdCbcEncrypt at hb
    split at hb; · cases hb
    cases hb
    rename_i hp
    rw [cbcEncrypt_length]
    unfold paddedLength at hp
    omega
  case ecbDecrypt =>
    unfold cmdEcbDecrypt at hb
    split at hb; · cases hb
    rename_i hp
    rw [hl] at hp
    have hm : (mapBlocks (fun b => invCipher b (expandKey (o.key v) v.nk v.nr) v.nr) o.text (o.text.length / 16)).length
        = o.dinLen := by rw [mapBlocks_length, hl]; omega
    have := (unpad_ok hb (by rw [hm]; omega) (by rw [hm]; omega)).2.1
    rw [hm] at this
    omega
  case cbcDecrypt =>
    unfold cmdCbcDecrypt at hb
    split at hb; · cases hb
    rename_i hp
    rw [hl] at hp
    have hm : (cbcDecryptFrom o.text (expandKey (o.key v) v.nk v.nr) v.nr (o.text.length / 16) 0 o.ivb).length
        = o.dinLen := by rw [cbcDecryptFrom_length, hl]; omega
    have := (unpad_ok hb (by rw [hm]; omega) (by rw [hm]; omega)).2.1
    rw [hm] at this
    omega
  case cmac =>
    unfold cmdCmac at hb
    cases hb
    simp; omega

/-- An output of `Execute` has at most BUF_CAP bytes. -/
theorem execute_ok_length {cfg : Config} (hc : cfg.wf = true) {cmd : Word} {o : Operands} {out : List Byte}
    (h : execute cfg cmd o = .ok out) : out.length ≤ cfg.bufCap := by
  unfold execute at h
  split at h
  · cases h
  · exact runCommand_ok_length hc h

end Sys2Proof.Machine
end

