-- ==== Sys2Proof/Laws/Sequencer.lean ====
section
/-! SUPPORT. What one step of the sequencer can do: it never changes what the host can see. -/

namespace Sys2Proof.Machine

@[simp] theorem settle_visible (s : State) (r : Result) : (settle s r).visible = s.visible := rfl

@[simp] theorem enterBlocks_visible (s : State) (m : Mode) (v : Variant) : (enterBlocks s m v).visible = s.visible :=
  rfl

theorem seqCheck_visible (s : State) : (seqCheck s).visible = s.visible := by
  unfold seqCheck
  split
  · rfl
  · split <;> rfl

theorem seqExpand_visible (s : State) (m : Mode) (v : Variant) : (seqExpand s m v).visible = s.visible := by
  unfold seqExpand
  dsimp only
  split
  · rfl
  · split <;> rfl

theorem seqSubkeys_visible (s : State) (m : Mode) (v : Variant) : (seqSubkeys s m v).visible = s.visible := rfl

theorem finishBlock_visible (s : State) (m : Mode) (v : Variant) (x : Matrix4) :
    (finishBlock s m v x).visible = s.visible := by
  unfold finishBlock
  dsimp only
  split
  · rfl
  · split <;> rfl

theorem seqBlocks_visible (s : State) (m : Mode) (v : Variant) : (seqBlocks s m v).visible = s.visible := by
  unfold seqBlocks
  dsimp only
  split
  · split
    · rfl
    · split
      · rfl
      · exact finishBlock_visible ..
  · split
    · rfl
    · split
      · rfl
      · exact finishBlock_visible ..

/-- Everything a sequencer step can be. -/
theorem sequencerStep_cases (s : State) :
    sequencerStep s = s ∨ (s.settled = none ∧ s.phase = .check ∧ sequencerStep s = seqCheck s) ∨
    ∃ i, decodeWord s.cmd = .ok i ∧ s.settled = none ∧
      (s.phase = .expand ∧ sequencerStep s = seqExpand s i.mode i.variant ∨
        s.phase = .subkeys ∧ sequencerStep s = seqSubkeys s i.mode i.variant ∨
        s.phase = .blocks ∧ sequencerStep s = seqBlocks s i.mode i.variant ∨
        s.phase = .strip ∧ sequencerStep s = settle s (unpad s.cfg.padStrict s.staged)) := by
  unfold sequencerStep
  cases s.settled with
  | some r => exact .inl rfl
  | none =>
    cases hp : s.phase
    · exact .inl rfl
    · exact .inr (.inl ⟨rfl, rfl, rfl⟩)
    all_goals
      cases hd : decodeWord s.cmd with
      | error e => exact .inl rfl
      | ok i => exact .inr (.inr ⟨i, rfl, rfl, by simp⟩)

/-- A sequencer step changes nothing the host can see (R27, R50). -/
theorem sequencerStep_visible (s : State) : (sequencerStep s).visible = s.visible := by
  rcases sequencerStep_cases s with h | ⟨-, -, h⟩ | ⟨i, -, -, ⟨-, h⟩ | ⟨-, h⟩ | ⟨-, h⟩ | ⟨-, h⟩⟩
  · rw [h]
  · rw [h, seqCheck_visible]
  · rw [h, seqExpand_visible]
  · rw [h, seqSubkeys_visible]
  · rw [h, seqBlocks_visible]
  · rw [h, settle_visible]

/-- States that look alike to the host are busy together. -/
theorem State.busy_of_visible {s t : State} (h : s.visible = t.visible) : s.busy = t.busy := by
  have : s.status = t.status := congrArg Visible.status h
  unfold State.busy
  rw [this]

end Sys2Proof.Machine
end

