-- ==== Sys2Proof/Machine/HostNotation.lean ====
section
/-! DEFINITION. The notation of host programs (spec/30_encoding.md R75) as turns of the schedule. -/

namespace Sys2Proof.Machine

/-- One line of a host program (R75), with the offset its register name stands for. -/
inductive HostLine where
  /-- `WR <register>, <value>`: an aligned 32-bit write. -/
  | wr (offset : Nat) (value : Word)
  /-- `RD <register>`: an aligned 32-bit read. -/
  | rd (offset : Nat)
  /-- `WAIT`: reads of STATUS until DONE = 1, `polls` of them before the completion. -/
  | wait (polls : Nat)
  /-- `RESET`: the reset of R260. -/
  | reset
deriving DecidableEq, Repr

/-- The offset a register name stands for (R41); an unmapped place has no name. -/
def regOffset : Reg → Option Nat
  | .cmd => some 0x00000
  | .status => some 0x00004
  | .keyLen => some 0x00008
  | .dinLen => some 0x0000C
  | .doutLen => some 0x00010
  | .cap => some 0x00014
  | .key k => some (0x00020 + 4 * k.val)
  | .iv k => some (0x00040 + 4 * k.val)
  | .din k => some (0x10000 + 4 * k)
  | .dout k => some (0x20000 + 4 * k)
  | .unmapped => none

/-- The turns a line stands for. A WAIT contains the core's completion step (95_test_vectors.md section 9). -/
def HostLine.turns : HostLine → List Turn
  | .wr offset v => [.host (.write offset 4 v)]
  | .rd offset => [.host (.read offset 4)]
  | .wait polls => List.replicate polls (.host (.read 0x00004 4)) ++ [.core, .host (.read 0x00004 4)]
  | .reset => [.reset]

/-- The schedule of a host program. -/
def hostProgram (lines : List HostLine) : List Turn := lines.flatMap HostLine.turns

end Sys2Proof.Machine
end

