-- ==== Sys2Proof/Tests/Slice0.lean ====
section
/-! SUPPORT. The model's own tests: ill-formed terms refused, words written out from the encoding, the spec's own
vectors (spec/95_test_vectors.md, spec/96_test_vectors_2.md), and a witness for the hypotheses of every obligation. -/

-- One declaration at a time: the kernel evaluations below each need much memory.
set_option Elab.async false

namespace Sys2Proof.Tests

open Sys2Proof Sys2Proof.Machine

/-! ### Helpers -/

/-- The `n` bytes of a number, most significant first: hexadecimal of the spec as a literal. -/
def bytesOf (n x : Nat) : List Byte := (List.range n).map fun i => BitVec.ofNat 8 (x / 256 ^ (n - 1 - i))

/-- The number whose bytes are given, most significant first. -/
def numberOf (b : List Byte) : Nat := b.foldl (fun n x => n * 256 + x.toNat) 0

/-- The key registers holding the `n` key bytes of `x`, the rest zero. -/
def keyRegs (n x : Nat) : Vector Word 8 :=
  Vector.ofFn fun k => BitVec.ofNat 32 (x * 256 ^ (32 - n) / 2 ^ (32 * (7 - k.val)))

/-- The IV registers holding the 16 bytes of `x`. -/
def ivRegs (x : Nat) : Vector Word 4 := Vector.ofFn fun k => BitVec.ofNat 32 (x / 2 ^ (32 * (3 - k.val)))

/-- An idle core whose host has written the operands of a command. -/
def loaded (keyLen key iv dinLen text : Nat) : State :=
  { State.reset with
    keyLen := BitVec.ofNat 32 keyLen, key := keyRegs keyLen key, iv := ivRegs iv,
    dinLen := BitVec.ofNat 32 dinLen, din := Memory.writeBytes [] 0 (bytesOf dinLen text) }

/-- An idle core with a DIN_LEN and nothing in DIN, for the checks that do not look at the text. -/
def lengths (keyLen dinLen : Nat) : State :=
  { State.reset with keyLen := BitVec.ofNat 32 keyLen, dinLen := BitVec.ofNat 32 dinLen }

/-- An idle core with a schedule. -/
def idleWith (turns : List Turn) : State := { State.reset with turns := turns }

/-- A core that has just started the word `w`, with a schedule. -/
def busyWith (w : Word) (turns : List Turn) : State := { startCommand State.reset w with turns := turns }

/-- STATUS, DOUT_LEN and the first DOUT_LEN bytes of DOUT (as a number) of a next state. -/
def shown : Host.Outcome State Fault Refusal → Option (Word × Nat × Nat)
  | .next t => some (t.status, t.doutLen.toNat, numberOf (t.dout.readBytes 0 t.doutLen.toNat))
  | .fault _ | .refused _ => none

/-- STATUS of a next state. -/
def statusOf : Host.Outcome State Fault Refusal → Option Word
  | .next t => some t.status
  | .fault _ | .refused _ => none

theorem next_of_statusOf {r : Host.Outcome State Fault Refusal} {w : Word} (h : statusOf r = some w) :
    ∃ t, r = .next t ∧ t.status = w := by
  cases r <;> simp_all [statusOf]

/-- The clauses of the invariant that no concrete value of the schedule touches. -/
theorem buffers_empty (cap : Nat) :
    ((Memory.wf [] ∧ ∀ c ∈ ([] : Memory), c.1 < cap) ∧ (Memory.wf [] ∧ ∀ c ∈ ([] : Memory), c.1 < cap)) ∧
    ((0 : Word).toNat ≤ cap ∧ ∀ c ∈ ([] : Memory), c.1 < (0 : Word).toNat) := by simp [Memory.wf]

theorem idleWith_inv (turns : List Turn) : (idleWith turns).Inv where
  config := show Config.standard.wf = true by decide
  status := show (0 : Word) ∈ statusValues by decide
  phase := ⟨fun _ => show (0 : Word).getLsbD 0 = false by decide, fun _ => rfl⟩
  buffers := (buffers_empty _).1
  result := (buffers_empty _).2
  noPartial := fun _ => rfl
  counters := ⟨Nat.zero_le _, Nat.zero_le _, Nat.zero_le _⟩
  checks := rfl
  clean := fun _ => ⟨rfl, rfl⟩

theorem busyWith_inv (w : Word) (turns : List Turn) : (busyWith w turns).Inv where
  config := show Config.standard.wf = true by decide
  status := show statusBusy ∈ statusValues by decide
  phase := ⟨fun h => Phase.noConfusion h, fun h => absurd h (show ¬ statusBusy.getLsbD 0 = false by decide)⟩
  buffers := (buffers_empty _).1
  result := (buffers_empty _).2
  noPartial := fun _ => rfl
  counters := ⟨Nat.zero_le _, Nat.zero_le _, Nat.zero_le _⟩
  checks := rfl
  clean := fun h => Phase.noConfusion h

theorem idleWith_busy (turns : List Turn) : (idleWith turns).busy = false :=
  show (0 : Word).getLsbD 0 = false by decide
theorem busyWith_busy (w : Word) (turns : List Turn) : (busyWith w turns).busy = true :=
  show statusBusy.getLsbD 0 = true by decide

/-! ### WellFormed: an ill-formed term for each check -/

theorem test_wf_rejects_reserved_bits : CommandFields.rsvdOk { op := 1, ksel := 0, rsvd := 1 } = false := by decide
theorem test_wf_rejects_op_zero : CommandFields.opOk { op := 0, ksel := 0, rsvd := 0 } = false := by decide
theorem test_wf_rejects_op_eight : CommandFields.opOk { op := 8, ksel := 0, rsvd := 0 } = false := by decide
theorem test_wf_rejects_ksel_three : CommandFields.kselOk { op := 1, ksel := 3, rsvd := 0 } = false := by decide
theorem test_wf_rejects_each_field :
    CommandFields.wf { op := 1, ksel := 0, rsvd := 1 } = false ∧ CommandFields.wf { op := 8, ksel := 0, rsvd := 0 } = false ∧
    CommandFields.wf { op := 1, ksel := 3, rsvd := 0 } = false ∧ CommandFields.wf { op := 7, ksel := 2, rsvd := 0 } = true := by
  decide
theorem test_wf_rejects_unaligned_capacity : Config.bufCapAligned { bufCap := 40, padStrict := false } = false := by decide
theorem test_wf_rejects_capacity_out_of_range :
    Config.bufCapInRange { bufCap := 16, padStrict := false } = false ∧
    Config.bufCapInRange { bufCap := 65552, padStrict := false } = false := by decide

/-! ### Decode: the words of R60 to R63, RSVD, KSEL, OP written out bit by bit -/

theorem test_decode_encrypt :
    decodeWord 0b00000000000000000000000000_00_0001 = .ok .encryptAes128 ∧
    decodeWord 0b00000000000000000000000000_01_0001 = .ok .encryptAes192 ∧
    decodeWord 0b00000000000000000000000000_10_0001 = .ok .encryptAes256 := by decide
theorem test_decode_decrypt :
    decodeWord 0b00000000000000000000000000_00_0010 = .ok .decryptAes128 ∧
    decodeWord 0b00000000000000000000000000_01_0010 = .ok .decryptAes192 ∧
    decodeWord 0b00000000000000000000000000_10_0010 = .ok .decryptAes256 := by decide
theorem test_decode_ecb_encrypt :
    decodeWord 0b00000000000000000000000000_00_0011 = .ok .ecbEncryptAes128 ∧
    decodeWord 0b00000000000000000000000000_01_0011 = .ok .ecbEncryptAes192 ∧
    decodeWord 0b00000000000000000000000000_10_0011 = .ok .ecbEncryptAes256 := by decide
theorem test_decode_ecb_decrypt :
    decodeWord 0b00000000000000000000000000_00_0100 = .ok .ecbDecryptAes128 ∧
    decodeWord 0b00000000000000000000000000_01_0100 = .ok .ecbDecryptAes192 ∧
    decodeWord 0b00000000000000000000000000_10_0100 = .ok .ecbDecryptAes256 := by decide
theorem test_decode_cbc_encrypt :
    decodeWord 0b00000000000000000000000000_00_0101 = .ok .cbcEncryptAes128 ∧
    decodeWord 0b00000000000000000000000000_01_0101 = .ok .cbcEncryptAes192 ∧
    decodeWord 0b00000000000000000000000000_10_0101 = .ok .cbcEncryptAes256 := by decide
theorem test_decode_cbc_decrypt :
    decodeWord 0b00000000000000000000000000_00_0110 = .ok .cbcDecryptAes128 ∧
    decodeWord 0b00000000000000000000000000_01_0110 = .ok .cbcDecryptAes192 ∧
    decodeWord 0b00000000000000000000000000_10_0110 = .ok .cbcDecryptAes256 := by decide
theorem test_decode_cmac :
    decodeWord 0b00000000000000000000000000_00_0111 = .ok .cmacAes128 ∧
    decodeWord 0b00000000000000000000000000_01_0111 = .ok .cmacAes192 ∧
    decodeWord 0b00000000000000000000000000_10_0111 = .ok .cmacAes256 := by decide
/-- Reserved values are rejected by name, and no neighbour takes them (R63). -/
theorem test_decode_rejects_by_name :
    decodeWord 0b00000000000000000000000000_00_0000 = .error .reservedOp ∧
    decodeWord 0b00000000000000000000000000_00_1000 = .error .reservedOp ∧
    decodeWord 0b00000000000000000000000000_10_1111 = .error .reservedOp ∧
    decodeWord 0b00000000000000000000000000_11_0001 = .error .reservedKsel ∧
    decodeWord 0b00000000000000000000000000_11_0111 = .error .reservedKsel ∧
    decodeWord 0b00000000000000000000000001_00_0001 = .error .reservedBits ∧
    decodeWord 0b10000000000000000000000000_00_0001 = .error .reservedBits := by decide
theorem test_decode_bytes_first_byte_is_bits_31_to_24 :
    decode [0x00, 0x00, 0x00, 0x23, 0xAB] = .ok (.ecbEncryptAes256, [0xAB]) ∧
    decode [0x23, 0x00, 0x00, 0x00] = .error .reservedBits ∧ decode [0x00, 0x00, 0x01] = .error .truncated := by decide
theorem test_decode_table_word :
    decodeTableWord 32 0x26 = some .cbcDecryptAes256 ∧ decodeTableWord 8 0x26 = some .cbcDecryptAes256 ∧
    decodeTableWord 32 0x30 = none := by decide

/-! ### The spec's vectors -/

/-- 95_test_vectors.md S1, the block. -/
def pt : Nat := 0x00112233445566778899aabbccddeeff
def k128 : Nat := 0x000102030405060708090a0b0c0d0e0f
def k192 : Nat := 0x000102030405060708090a0b0c0d0e0f1011121314151617
def k256 : Nat := 0x000102030405060708090a0b0c0d0e0f101112131415161718191a1b1c1d1e1f
/-- The key of the block-mode and CMAC vectors. -/
def nk128 : Nat := 0x2b7e151628aed2a6abf7158809cf4f3c
def nk192 : Nat := 0x8e73b0f7da0e6452c810f32b809079e562f8ead2522c6b7b

theorem test_encrypt_aes128 : shown (exec .encryptAes128 (loaded 16 k128 0 16 pt)) =
    some (0x00000002, 16, 0x69c4e0d86a7b0430d8cdb78070b4c55a) := by decide +kernel
theorem test_encrypt_aes192 : shown (exec .encryptAes192 (loaded 24 k192 0 16 pt)) =
    some (0x00000002, 16, 0xdda97ca4864cdfe06eaf70a0ec0d7191) := by decide +kernel
theorem test_encrypt_aes256 : shown (exec .encryptAes256 (loaded 32 k256 0 16 pt)) =
    some (0x00000002, 16, 0x8ea2b7ca516745bfeafc49904b496089) := by decide +kernel
theorem test_decrypt_aes256 : shown (exec .decryptAes256 (loaded 32 k256 0 16 0x8ea2b7ca516745bfeafc49904b496089)) =
    some (0x00000002, 16, pt) := by decide +kernel

/-- T5c.10: the padding count 1. -/
theorem test_ecb_decrypt_aes128 : shown (exec .ecbDecryptAes128 (loaded 16 nk128 0 16 0x677b195ede204bad7f12e9d697c79bf4)) =
    some (0x00000002, 15, 0x202122232425262728292a2b2c2d2e) := by decide +kernel
/-- T5c.7: the padding count 0 is a PADDING error. -/
theorem test_ecb_decrypt_aes128_padding : shown (exec .ecbDecryptAes128 (loaded 16 nk128 0 16 0x6048e02c8cd46802982b8c07f72bbb8a)) =
    some (0x00000306, 0, 0) := by decide +kernel
theorem test_ecb_encrypt_aes128 : shown (exec .ecbEncryptAes128 (loaded 16 nk128 0 0 0)) =
    some (0x00000002, 16, 0xa254be88e037ddd9d79fb6411c3f9df8) := by decide +kernel
theorem test_cbc_encrypt_aes128 : shown (exec .cbcEncryptAes128 (loaded 16 nk128 k128 0 0)) =
    some (0x00000002, 16, 0xc84af0b613435d5d9182801a9bd9320b) := by decide +kernel
theorem test_cbc_decrypt_aes128 : shown (exec .cbcDecryptAes128 (loaded 16 nk128 k128 16 0xc84af0b613435d5d9182801a9bd9320b)) =
    some (0x00000002, 0, 0) := by decide +kernel
theorem test_cmac_aes128 : shown (exec .cmacAes128 (loaded 16 nk128 0 0 0)) =
    some (0x00000002, 16, 0xbb1d6929e95937287fa37d129b756746) := by decide +kernel
theorem test_cmac_aes192 : shown (exec .cmacAes192 (loaded 24 nk192 0 0 0)) =
    some (0x00000002, 16, 0xd17ddf46adaacde531cac483de7a9367) := by decide +kernel

/-! Each command's own error checks (R225), the lengths at the edges. -/

theorem test_single_block_commands_check_lengths :
    statusOf (exec .encryptAes128 (lengths 16 15)) = some 0x00000106 ∧
    statusOf (exec .encryptAes192 (lengths 24 17)) = some 0x00000106 ∧
    statusOf (exec .encryptAes256 (lengths 24 16)) = some 0x00000206 ∧
    statusOf (exec .decryptAes128 (lengths 16 4097)) = some 0x00000206 ∧
    statusOf (exec .decryptAes192 (lengths 24 4096)) = some 0x00000106 ∧
    statusOf (exec .decryptAes256 (lengths 32 0)) = some 0x00000106 := by decide +kernel
theorem test_ecb_commands_check_lengths :
    statusOf (exec .ecbEncryptAes128 (lengths 16 4096)) = some 0x00000206 ∧
    statusOf (exec .ecbEncryptAes192 (lengths 16 0)) = some 0x00000206 ∧
    statusOf (exec .ecbEncryptAes256 (lengths 32 4095)) = some 0x00000002 ∧
    statusOf (exec .ecbDecryptAes128 (lengths 16 0)) = some 0x00000206 ∧
    statusOf (exec .ecbDecryptAes192 (lengths 24 17)) = some 0x00000206 ∧
    statusOf (exec .ecbDecryptAes256 (lengths 16 16)) = some 0x00000206 := by decide +kernel
theorem test_cbc_commands_check_lengths :
    statusOf (exec .cbcEncryptAes128 (lengths 16 4096)) = some 0x00000206 ∧
    statusOf (exec .cbcEncryptAes192 (lengths 24 4095)) = some 0x00000002 ∧
    statusOf (exec .cbcEncryptAes256 (lengths 24 0)) = some 0x00000206 ∧
    statusOf (exec .cbcDecryptAes128 (lengths 16 15)) = some 0x00000206 ∧
    statusOf (exec .cbcDecryptAes192 (lengths 24 0)) = some 0x00000206 ∧
    statusOf (exec .cbcDecryptAes256 (lengths 0 16)) = some 0x00000206 := by decide +kernel
theorem test_cmac_commands_check_lengths :
    statusOf (exec .cmacAes128 (lengths 16 4097)) = some 0x00000206 ∧
    statusOf (exec .cmacAes192 (lengths 32 0)) = some 0x00000206 ∧
    statusOf (exec .cmacAes256 (lengths 32 4096)) = some 0x00000002 := by decide +kernel

/-! The interface (R41, R42, R46 to R54, R263). -/

/-- A word written to DIN is read back, and its first byte is bits 31:24 (R42). -/
theorem test_din_word_is_big_endian :
    (hostWrite State.reset 0x10004 0x12345678).din = [(4, 0x12), (5, 0x34), (6, 0x56), (7, 0x78)] ∧
    hostRead (hostWrite State.reset 0x10004 0x12340078) 0x10004 = 0x12340078 := by decide +kernel
/-- Program text as turns: the WAIT holds the completion (R75). -/
theorem test_host_program_turns :
    hostProgram [.wr 0x00000 0x41, .wait 1, .rd 0x00010, .reset] =
      [.host (.write 0x00000 4 0x41), .host (.read 0x00004 4), .core, .host (.read 0x00004 4),
       .host (.read 0x00010 4), .reset] := by decide
/-- The poll before the completion reads BUSY, the one after it ILLEGAL (R12, R63). -/
theorem test_illegal_word_runs_to_its_error :
    (match Host.Core.run Sys2Proof.core 5 (idleWith (hostProgram [.wr 0x00000 0x41, .wait 1, .rd 0x00000])) with
      | .next t => some t.replies
      | .fault _ | .refused _ => none) = some [0x41, 0x00000406, 0x00000001] := by decide +kernel

/-! The front end (R67 to R72). -/

theorem test_hex : hexDecode ['0', 'a', 'F', 'f'] = .ok [0x0A, 0xFF] ∧ hexEncode [0x0A, 0xFF] = ['0', 'a', 'f', 'f'] ∧
    hexDecode ['0', 'a', 'F'] = .error .format ∧ hexDecode ['0', 'g'] = .error .format ∧
    hexDecode [] = .ok [] := by decide
theorem test_request_checks_text_before_key_before_iv :
    decodeRequest { op := .cbcEncrypt ['0'], variant := .aes128, text := ['0'], keys := ['x', 'x'] } = .error .format ∧
    decodeRequest { op := .cbcEncrypt ['0', '0'], variant := .aes128, text := [], keys := [] } = .error .length := by
  decide
theorem test_cli_error_writes_nothing :
    cliOutcome (.error .padding) = { stdout := [], diagnostic := true, exitZero := false } := by decide

/-! ### Witnesses: the hypotheses of every obligation are met, each clause at the edges of its range -/

/-- Offsets inside REG, at both ends. -/
theorem inReg_edges : InReg 0x00000 ∧ InReg 0x2FFFC ∧ ¬ InReg 0x30000 ∧ ¬ InReg 0x2FFFE := by
  simp [InReg]

theorem test_witness_o1 : Instr.encryptAes128.wf = true ∧ Instr.cmacAes256.wf = true := by decide
theorem test_witness_o2 : decodeWord 0x00000001 = .ok .encryptAes128 ∧ decodeWord 0x00000027 = .ok .cmacAes256 := by
  decide

/-- The reserved words at the edges of each clause of R63. -/
def reservedWords : List Word := [0x00000000, 0x00000008, 0x0000000F, 0x00000031, 0x00000041, 0xFFFFFFFF]

theorem test_witness_o4 : ∀ w ∈ reservedWords, (¬ ∃ i, decodeWord w = .ok i) ∧
    (idleWith [.host (.write 0x00000 4 w), .core]).busy = false ∧
    (idleWith [.host (.write 0x00000 4 w), .core]).turns = [.host (.write 0x00000 4 w), .core] := by
  have rejected : reservedWords.map decodeWord = [.error .reservedOp, .error .reservedOp, .error .reservedOp,
      .error .reservedKsel, .error .reservedBits, .error .reservedBits] := by decide
  intro w hw
  refine ⟨?_, idleWith_busy _, rfl⟩
  rintro ⟨i, hi⟩
  have := List.mem_map_of_mem (f := decodeWord) hw
  rw [rejected, hi] at this
  simp at this

theorem test_witness_o5 : decodeWord (busyWith 0x27 [.core]).cmd = .ok .cmacAes256 ∧
    (busyWith 0x27 [.core]).busy = true ∧ (busyWith 0x27 [.core]).turns = [.core] ∧
    decodeWord (busyWith 0x01 []).cmd = .ok .encryptAes128 ∧ (busyWith 0x01 []).busy = true ∧
    (busyWith 0x01 []).turns = [] := by decide +kernel

theorem test_witness_o6 : ∀ v ∈ [(0x00000000 : Word), 0x00000001, 0xFFFFFFFF],
    (idleWith [.host (.write 0x00000 4 v)]).busy = false ∧
    (idleWith [.host (.write 0x00000 4 v)]).turns = .host (.write 0x00000 4 v) :: [] :=
  fun _ _ => ⟨idleWith_busy _, rfl⟩

theorem test_witness_o7 : ∀ offset ∈ [0x00000, 0x00008, 0x10000, 0x2FFFC], InReg offset ∧
    (busyWith 0x01 [.host (.write offset 4 5)]).busy = true ∧
    (busyWith 0x01 [.host (.write offset 4 5)]).turns = .host (.write offset 4 5) :: [] := by
  unfold InReg
  decide +kernel

theorem test_witness_o8 : ∀ offset ∈ [0x00004, 0x10000, 0x2FFFC], InReg offset ∧ offset ≠ 0x00000 ∧
    (idleWith [.host (.read offset 4)]).turns = .host (.read offset 4) :: [] ∧
    (idleWith [.host (.write offset 4 5)]).cfg.wf = true ∧ (idleWith [.host (.write offset 4 5)]).din.wf ∧
    (idleWith [.host (.write offset 4 5)]).busy = false ∧
    (idleWith [.host (.write offset 4 5)]).turns = .host (.write offset 4 5) :: [] := by
  unfold InReg
  decide +kernel

theorem test_witness_o9 : ∀ offset ∈ [0x00000, 0x00008, 0x0000C, 0x00020, 0x0004C, 0x10000, 0x10FFC],
    InReg offset ∧ Writable 4096 offset ∧ (idleWith [.host (.write offset 4 5)]).cfg.bufCap = 4096 ∧
    (idleWith [.host (.write offset 4 5)]).cfg.wf = true ∧ (idleWith [.host (.write offset 4 5)]).din.wf ∧
    (idleWith [.host (.write offset 4 5)]).busy = false ∧
    (idleWith [.host (.write offset 4 5)]).turns = .host (.write offset 4 5) :: [] := by
  unfold InReg Writable
  decide +kernel

theorem test_witness_o10_unmapped :
    ∀ offset ∈ [0x00018, 0x0001C, 0x00050, 0x0FFFC, 0x11000, 0x1FFFC, 0x21000, 0x2FFFC],
    InReg offset ∧ Unmapped 4096 offset ∧ ¬ ReadOnly 4096 offset ∧ ¬ Writable 4096 offset ∧
    (idleWith [.host (.write offset 4 5)]).cfg = Config.standard ∧ Config.standard.wf = true ∧
    Config.standard.bufCap = 4096 ∧
    (idleWith [.host (.write offset 4 5)]).turns = .host (.write offset 4 5) :: [] := by
  unfold InReg Unmapped ReadOnly Writable
  decide +kernel

theorem test_witness_o10_readOnly : ∀ offset ∈ [0x00004, 0x00010, 0x00014, 0x20000, 0x20FFC],
    InReg offset ∧ ReadOnly 4096 offset ∧ ¬ Unmapped 4096 offset ∧ ¬ Writable 4096 offset ∧ offset ≠ 0x00000 ∧
    (idleWith [.host (.read offset 4)]).turns = .host (.read offset 4) :: [] ∧
    (idleWith [.host (.write offset 4 5)]).turns = .host (.write offset 4 5) :: [] := by
  unfold InReg Unmapped ReadOnly Writable
  decide +kernel

theorem test_witness_o11 : State.reset.cfg.wf = true ∧ 4 * 0 < State.reset.cfg.bufCap ∧
    4 * 1023 < State.reset.cfg.bufCap ∧ ¬ 4 * 1024 < State.reset.cfg.bufCap := by decide

/-- One access for each of the four branches of O12, at its edge. -/
theorem test_witness_o12 : access State.reset (.read 0x00000 2) = .refused (.accessWidth 2) ∧
    access State.reset (.write 0x00002 4 5) = .refused (.misaligned 2) ∧
    access State.reset (.read 0x30000 4) = .fault (.outsideReg 0x30000) ∧
    ∃ t, access State.reset (.write 0x2FFFC 4 5) = .next t :=
  ⟨rfl, rfl, rfl, _, rfl⟩

theorem test_witness_o13 : ∀ offset ∈ [0x00000, 0x00004, 0x00010, 0x20000, 0x2FFFC],
    (busyWith 0x01 [.host (.read offset 4)]).Inv ∧ (busyWith 0x01 [.host (.read offset 4)]).busy = true ∧
    InReg offset ∧ (busyWith 0x01 [.host (.read offset 4)]).turns = .host (.read offset 4) :: [] := by
  intro offset h
  refine ⟨busyWith_inv _ _, busyWith_busy _ _, ?_, rfl⟩
  revert offset
  unfold InReg
  decide

theorem test_witness_o14 : InReg 0x00000 ∧ InReg 0x00014 ∧ InReg 0x2FFFC := by simp [InReg]

theorem test_witness_o15 : (busyWith 0x01 [.reset, .core, .advance, .core]).cfg.wf = true ∧
    (busyWith 0x01 [.reset, .core, .advance, .core]).turns = .reset :: [.core, .advance, .core] ∧
    (∀ n ∈ [0, 2, 3, 9], ∀ a ∈ [Turn.core, .advance, .core].take n, a = .core ∨ a = .advance) ∧
    InReg 0x00014 ∧ (idleWith [.reset]).cfg.wf = true ∧ (idleWith [.reset]).turns = .reset :: [] ∧
    (∀ a ∈ ([] : List Turn).take 5, a = .core ∨ a = .advance) := by
  unfold InReg
  decide +kernel

/-- O17 and O18: a start, a completion and a RESET that answer next states from states of the invariant. -/
theorem test_witness_o17_o18_start : (idleWith [.host (.write 0x00000 4 0x27)]).Inv ∧
    (idleWith [.host (.write 0x00000 4 0x27)]).err = false ∧
    ∃ t, step (idleWith [.host (.write 0x00000 4 0x27)]) = .next t ∧ t.status = 0x00000001 :=
  ⟨idleWith_inv _, by decide +kernel, next_of_statusOf (by decide +kernel)⟩
theorem test_witness_o17_o18_completion : (busyWith 0x41 [.core]).Inv ∧
    ∃ t, step (busyWith 0x41 [.core]) = .next t ∧ t.status = 0x00000406 ∧ t.err = true :=
  ⟨busyWith_inv _ _, by
    obtain ⟨t, ht, hs⟩ := next_of_statusOf (r := step (busyWith 0x41 [.core])) (w := 0x00000406) (by decide +kernel)
    exact ⟨t, ht, hs, by rw [State.err, hs]; decide⟩⟩
theorem test_witness_o17_o18_reset : (busyWith 0x01 [.reset]).Inv ∧
    ∃ t, step (busyWith 0x01 [.reset]) = .next t ∧ t.status = 0x00000000 :=
  ⟨busyWith_inv _ _, next_of_statusOf (by decide +kernel)⟩

theorem test_witness_o19 : ∀ a ∈ [Turn.advance, .host (.read 0x00004 4), .host (.write 0x2FFFC 4 5)],
    (busyWith 0x01 [a]).busy = true ∧ (busyWith 0x01 [a]).turns = a :: [] ∧ a.legal = true ∧
    a ≠ .core ∧ a ≠ .reset := by decide +kernel

theorem test_witness_o21 : (idleWith []).busy = false ∧ (idleWith []).turns = [] ∧
    (∀ a ∈ [Turn.core, .advance], (idleWith [a]).busy = false ∧ (idleWith [a]).turns = a :: []) := by decide +kernel

theorem test_witness_o22_o23 :
    (busyWith 0x41 [.advance, .host (.read 0x00004 4), .core]).busy = true ∧
    (∀ a ∈ (busyWith 0x41 [.advance, .host (.read 0x00004 4), .core]).turns, a.legal = true ∧ a ≠ .reset) ∧
    (busyWith 0x01 []).busy = true ∧ (busyWith 0x01 []).turns = [] ∧
    (busyWith 0x41 [.advance, .reset, .core]).busy = true ∧
    (∀ a ∈ (busyWith 0x41 [.advance, .reset, .core]).turns, a.legal = true) := by
  decide +kernel

/-- Both branches of O24: an error and an output. -/
theorem test_witness_o24 : (busyWith 0x01 []).cfg.wf = true ∧ (busyWith 0x01 []).dout.wf ∧
    (busyWith 0x01 []).busy = true ∧ (busyWith 0x01 []).turns = [] ∧
    (busyWith 0x01 [.core]).turns.head? = some .core ∧
    statusOf (step ((lengths 16 16).withFetchWord 32 0x01)) = some 0x00000002 ∧
    statusOf (step (busyWith 0x01 [])) = some 0x00000206 := by decide +kernel

/-- O26: a completion with an error and one without, from states of the invariant. -/
theorem test_witness_o26_error : (busyWith 0x01 []).Inv ∧ (busyWith 0x01 []).busy = true ∧
    (busyWith 0x01 []).turns = [] ∧ statusOf (step (busyWith 0x01 [])) = some 0x00000206 :=
  ⟨busyWith_inv _ _, busyWith_busy _ _, rfl, by decide +kernel⟩
/-- A core of the invariant with the lengths of a `cmac` of the empty message. -/
theorem test_witness_o26_success : ({ busyWith 0x07 [.core] with keyLen := 16 } : State).Inv ∧
    ({ busyWith 0x07 [.core] with keyLen := 16 } : State).busy = true ∧
    ({ busyWith 0x07 [.core] with keyLen := 16 } : State).turns.head? = some .core ∧
    statusOf (step { busyWith 0x07 [.core] with keyLen := 16 }) = some 0x00000002 := by
  have h := busyWith_inv 0x07 [.core]
  exact ⟨⟨h.1, h.2, h.3, h.4, h.5, h.6, h.7, rfl, h.9⟩, rfl, rfl, by decide +kernel⟩

/-! O28 to O34: the clauses of the commands, at the edges of the lengths. -/

theorem test_witness_accepts : ∀ v ∈ [Variant.aes128, .aes192, .aes256],
    (∀ n ∈ [0, 15, 16, 17, 64, 4080, 4095, 4096],
      (lengths v.keyBytes n).Accepts v ∧ (lengths v.keyBytes n).dinLen.toNat = n) ∧
    ¬ (lengths v.keyBytes 4097).Accepts v ∧ ¬ (lengths (v.keyBytes - 1) 16).Accepts v ∧
    ¬ (lengths (v.keyBytes + 1) 16).Accepts v ∧
    (lengths v.keyBytes 16).cfg.wf = true ∧ (lengths v.keyBytes 16).dout.wf := by decide +kernel

/-- The padded length fits at 4095 bytes and not at 4096 (O30, O31). -/
theorem test_witness_o30_o31 : 16 * ((lengths 16 4095).dinLen.toNat / 16) + 16 ≤ (lengths 16 4095).cfg.bufCap ∧
    16 * ((lengths 16 4096).dinLen.toNat / 16) + 16 > (lengths 16 4096).cfg.bufCap ∧
    0 < (lengths 16 4095).dinLen.toNat / 16 := by decide +kernel

/-- A text of one block ends in the decrypted byte `p`, in ECB and, under the zero IV, in CBC. -/
theorem cbcPlain_of_zeroIv {s : State} (h : s.iv = Vector.replicate 4 0) (v : Variant) {k : Nat} (hk : k / 16 = 0) :
    s.cbcPlain v k = s.ecbPlain v k := by
  have hz : s.ivb = Vector.replicate 16 0 := by rw [State.ivb, h]; decide
  simp only [State.cbcPlain, State.ecbPlain, hk, if_true, hz]
  simp [xorBlock]

/-- One block of ciphertext under the key of the block-mode vectors. -/
def oneBlock (c : Nat) : State := loaded 16 nk128 0 16 c

theorem oneBlock_common (c : Nat) : (oneBlock c).Accepts .aes128 ∧ (oneBlock c).dinLen.toNat ≠ 0 ∧
    (oneBlock c).dinLen.toNat % 16 = 0 ∧ (oneBlock c).cfg.wf = true ∧ (oneBlock c).dout.wf ∧
    (oneBlock c).iv = Vector.replicate 4 0 := by
  refine ⟨⟨rfl, ?_⟩, ?_, show (16 : Nat) % 16 = 0 by decide, show Config.standard.wf = true by decide, ?_, ?_⟩
  · show 16 ≤ 4096
    decide
  · show (16 : Nat) ≠ 0
    decide
  · simp [oneBlock, loaded, State.reset, Memory.wf]
  · show ivRegs 0 = Vector.replicate 4 0
    decide

/-- T5c.1 and T5c.10: the counts 16 and 1. -/
theorem last_of_t5c_1 : (oneBlock 0xa254be88e037ddd9d79fb6411c3f9df8).ecbPlain .aes128 15 = 16 := by decide +kernel
theorem last_of_t5c_10 : (oneBlock 0x677b195ede204bad7f12e9d697c79bf4).ecbPlain .aes128 15 = 1 := by decide +kernel
/-- T5c.7 and T5c.8: the counts 0 and 17. -/
theorem last_of_t5c_7 : (oneBlock 0x6048e02c8cd46802982b8c07f72bbb8a).ecbPlain .aes128 15 = 0 := by decide +kernel
theorem last_of_t5c_8 : (oneBlock 0x38de79cbabbbb5048e767cc8d8b2ae14).ecbPlain .aes128 15 = 17 := by decide +kernel

theorem test_witness_o32_success :
    paddingOk false 16 ((oneBlock 0xa254be88e037ddd9d79fb6411c3f9df8).ecbPlain .aes128) ∧
    paddingOk true 16 ((oneBlock 0x677b195ede204bad7f12e9d697c79bf4).ecbPlain .aes128) := by
  constructor
  · simp [paddingOk, last_of_t5c_1]
  · simp only [paddingOk, Nat.add_one_sub_one, last_of_t5c_10]
    refine ⟨by decide, by decide, fun _ k h1 h2 => ?_⟩
    have : k = 15 := by have : (1 : Byte).toNat = 1 := rfl; omega
    rw [this, last_of_t5c_10]
theorem test_witness_o32_padding : ∀ strict : Bool,
    ¬ paddingOk strict 16 ((oneBlock 0x6048e02c8cd46802982b8c07f72bbb8a).ecbPlain .aes128) ∧
    ¬ paddingOk strict 16 ((oneBlock 0x38de79cbabbbb5048e767cc8d8b2ae14).ecbPlain .aes128) := by
  intro strict
  simp [paddingOk, last_of_t5c_7, last_of_t5c_8]
theorem test_witness_o33_success :
    paddingOk false 16 ((oneBlock 0xa254be88e037ddd9d79fb6411c3f9df8).cbcPlain .aes128) := by
  have h := (oneBlock_common 0xa254be88e037ddd9d79fb6411c3f9df8).2.2.2.2.2
  simp [paddingOk, cbcPlain_of_zeroIv h, last_of_t5c_1]
theorem test_witness_o33_padding : ∀ strict : Bool,
    ¬ paddingOk strict 16 ((oneBlock 0x6048e02c8cd46802982b8c07f72bbb8a).cbcPlain .aes128) := by
  intro strict
  have h := (oneBlock_common 0x6048e02c8cd46802982b8c07f72bbb8a).2.2.2.2.2
  simp [paddingOk, cbcPlain_of_zeroIv h, last_of_t5c_7]

/-- O25 rests on the same texts; O35: two states that differ in all a command does not read. -/
theorem test_witness_o35 :
    let s : State := { lengths 16 16 with din := [(3, 7), (16, 1)] }
    let u : State := { lengths 16 16 with din := [(3, 7)], key := (lengths 16 16).key.set 4 9, phase := .strip }
    s ≠ u ∧ s.cfg = u.cfg ∧ s.keyLen = u.keyLen ∧ s.dinLen = u.dinLen ∧
    (∀ k : Fin 8, k.val < Variant.aes128.nk → s.key[k] = u.key[k]) ∧
    (∀ k, k < s.dinLen.toNat → s.din.read k = u.din.read k) ∧ s.iv = u.iv ∧ s.dout = u.dout ∧
    s.doutLen = u.doutLen := by decide +kernel

theorem test_witness_o36 :
    let s := busyWith 0x01 [.core]
    let u : State := { busyWith 0x01 [.core] with phase := .blocks, freeIndex := 5, work := { resetWorking with rnd := 9 } }
    s ≠ u ∧ s.visible = u.visible := by decide +kernel

theorem test_witness_o37 : (busyWith 0x26 []).phase = .check ∧ (busyWith 0x26 []).settled = none := ⟨rfl, rfl⟩

theorem test_witness_o38 : State.reset.cfg.wf = true ∧ 0 < State.reset.cfg.bufCap ∧ 4095 < State.reset.cfg.bufCap := by
  decide

theorem test_witness_o39 : (3 : Nat) < Variant.aes128.nk ∧ (5 : Nat) < Variant.aes192.nk ∧ (7 : Nat) < Variant.aes256.nk ∧
    ¬ (4 : Nat) < Variant.aes128.nk := by decide

theorem test_witness_o42 : gfMul 0xFF 0x01 ≠ 0 ∧ gfMul 0x53 0xCA = 0x01 ∧ (0x01 : Byte) ≠ 0 ∧ (0xFF : Byte) ≠ 0 := by decide
theorem test_witness_o43 : (0x7F : Byte).toNat < 128 ∧ ¬ (0x80 : Byte).toNat < 128 := by decide
/-- O44 at the inverse of 0x53 and at 0: S(0x53) = 0xED, S(0) = 0x63. -/
theorem test_witness_o44 : gfMul 0x53 0xCA = 0x01 ∧ sbox 0x53 = 0xED ∧ sbox 0x00 = 0x63 := by decide
theorem test_witness_o45 : (8 : Nat) < 9 ∧ rcon 8 = 0x1B ∧ rcon 9 = 0x36 := by decide
theorem test_witness_o47 : ∀ r : Fin 4, (Vector.replicate 4 (Vector.replicate 4 (0xC6 : Byte)) : Matrix4)[r][(3 : Fin 4)] = 0xC6 := by
  decide
theorem test_witness_o49_o50 : ∀ v ∈ [Variant.aes128, .aes192, .aes256],
    (List.replicate v.keyBytes (0xA5 : Byte)).length = v.keyBytes ∧ v.keyBytes ∈ [16, 24, 32] := by decide

theorem test_witness_o52_ok :
    paddingOk true 16 (fun k => (List.replicate 16 (0x10 : Byte)).getD k 0) ∧
    paddingOk true 16 (fun k => (List.replicate 16 (0x01 : Byte)).getD k 0) := by
  constructor <;> refine ⟨by decide, by decide, fun _ k _ hk => ?_⟩ <;> (revert k; decide)
theorem test_witness_o52_not_ok :
    ¬ paddingOk false 16 (fun k => (List.replicate 16 (0x00 : Byte)).getD k 0) ∧
    ¬ paddingOk false 16 (fun k => (List.replicate 16 (0x11 : Byte)).getD k 0) ∧
    ¬ paddingOk true 16 (fun k => (List.replicate 15 (0x01 : Byte) ++ [0x02]).getD k 0) := by
  refine ⟨fun h => absurd h.1 (by decide), fun h => absurd h.2.1 (by decide), fun h => ?_⟩
  exact absurd (h.2.2 rfl 14 (by decide) (by decide)) (by decide)

/-- O54 in ECB and CBC: the encryption completes, and a state holding its result as the text exists. -/
theorem test_witness_o54 (m : Mode) (hm : m = .ecbEncrypt ∨ m = .cbcEncrypt) :
    (lengths 16 15).cfg.wf = true ∧ (lengths 16 15).dout.wf ∧ (lengths 16 15).Accepts .aes128 ∧
    16 * ((lengths 16 15).dinLen.toNat / 16) + 16 ≤ (lengths 16 15).cfg.bufCap ∧
    ∃ t, exec (Instr.of m .aes128) (lengths 16 15) = .next t ∧ t.status = 0x00000002 ∧
      ∃ u : State, u.dout.wf ∧ u.cfg = (lengths 16 15).cfg ∧ u.keyLen = (lengths 16 15).keyLen ∧
        u.key = (lengths 16 15).key ∧ u.iv = (lengths 16 15).iv ∧ u.dinLen = t.doutLen ∧
        ∀ k, k < t.doutLen.toNat → u.din.read k = t.dout.read k := by
  refine ⟨rfl, by decide +kernel, by decide +kernel, by decide +kernel, ?_⟩
  have hs : statusOf (exec (Instr.of m .aes128) (lengths 16 15)) = some 0x00000002 := by
    rcases hm with rfl | rfl <;> decide +kernel
  obtain ⟨t, ht, hs⟩ := next_of_statusOf hs
  exact ⟨t, ht, hs, { lengths 16 15 with dinLen := t.doutLen, din := t.dout }, (buffers_empty 0).1.1.1, rfl, rfl, rfl,
    rfl, rfl, fun _ _ => rfl⟩

/-- O55: each block mode completes with success; the 64-byte text is among the encryptions. The decryptions are those
of `test_ecb_decrypt_aes128` and `test_cbc_decrypt_aes128`. -/
theorem test_witness_o55 : (lengths 16 64).dinLen.toNat = 64 ∧
    statusOf (exec .ecbEncryptAes128 (lengths 16 64)) = some statusDone ∧
    statusOf (exec .cbcEncryptAes256 (lengths 32 64)) = some statusDone := by decide +kernel

/-- O56: one block with the zero IV, and a text of sixteen bytes 0x10 under the same key. -/
theorem test_witness_o56 : let u : State := { oneBlock 0 with din := Memory.writeBytes [] 0 (List.replicate 16 0x10) }
    (oneBlock 0).cfg.wf = true ∧ (oneBlock 0).dout.wf ∧ (oneBlock 0).Accepts .aes128 ∧
    (oneBlock 0).dinLen.toNat = 16 ∧ 16 * ((oneBlock 0).dinLen.toNat / 16) + 16 ≤ (oneBlock 0).cfg.bufCap ∧
    (oneBlock 0).iv = Vector.replicate 4 0x00000000 ∧ u.dout.wf ∧ u.cfg = (oneBlock 0).cfg ∧
    u.keyLen = (oneBlock 0).keyLen ∧ u.key = (oneBlock 0).key ∧ u.dinLen.toNat = 16 ∧
    ∀ k, k < 16 → u.din.read k = 0x10 := by decide +kernel

/-- O57 on both sides of 2^127. -/
theorem test_witness_o57 : numberOf (Vector.replicate 16 0x7F : Block).toList < 2 ^ 127 ∧
    ¬ numberOf (Vector.replicate 16 0x80 : Block).toList < 2 ^ 127 := by decide +kernel

theorem test_witness_o58 : hexDecode ['0', 'a', 'F', 'f'] = .ok [0x0A, 0xFF] := by decide

/-- O59: a request that fails in the front end, one that reaches the core, from an idle and from a busy core. -/
theorem test_witness_o59 : (idleWith []).Inv ∧ (busyWith 0x01 []).Inv ∧
    decodeRequest { op := .encrypt, variant := .aes128, text := ['0'], keys := [] } = .error .format ∧
    decodeRequest { op := .cmac, variant := .aes128, text := ['6', 'b'], keys := ['2', 'B'] } =
      .ok { text := [0x6B], key := [0x2B], iv := none } ∧
    decodeRequest { op := .cbcDecrypt (List.replicate 32 '0'), variant := .aes128, text := [], keys := [] } =
      .ok { text := [], key := [], iv := some (List.replicate 16 0) } :=
  ⟨idleWith_inv _, busyWith_inv _ _, by decide, by decide, by decide⟩

theorem test_witness_o60 : 1 ≤ Variant.aes128.nr ∧ (1 : Nat) ≤ 1 ∧ 1 < Variant.aes256.nr ∧ 13 < Variant.aes256.nr := by decide

end Sys2Proof.Tests
end

section
/-! PROOFS of the family 00_scope: a legal turn never stops the machine, and every step takes exactly one turn. -/

namespace Sys2Proof.Machine

@[simp] theorem writeReg_turns (s : State) (r : Reg) (v : Word) : (writeReg s r v).turns = s.turns := by
  cases r <;> rfl

@[simp] theorem hostWrite_turns (s : State) (o : Nat) (v : Word) : (hostWrite s o v).turns = s.turns := by
  cases hb : s.busy
  · rw [hostWrite_of_idle hb, writeReg_turns]
  · rw [hostWrite_of_busy hb]

@[simp] theorem sequencerStep_turns (s : State) : (sequencerStep s).turns = s.turns :=
  congrArg Visible.turns (sequencerStep_visible s)

/-- The completion step of any word in CMD, legal or not, answers a next state framed by the old one (R28, R52, R63). -/
theorem completeCommand_next (s : State) : ∃ t, completeCommand s = .next t ∧ s.Framed t := by
  obtain ⟨t, ht, -, -, -, -, -, -, -, hframed⟩ := complete_next s (execute s.cfg s.cmd s.operands)
  exact ⟨t, (completeCommand_eq s).trans ht, hframed⟩

/-- An access the spec defines answers a next state and leaves the schedule as it is (R40, R46). -/
theorem access_next_of_legal (s : State) {a : Access} (h : Turn.legal (.host a) = true) :
    ∃ t, access s a = .next t ∧ t.turns = s.turns := by
  obtain ⟨o, ho, rfl⟩ | ⟨o, v, ho, rfl⟩ := legal_host h
  · exact ⟨_, checkAccess_inReg ho _, rfl⟩
  · exact ⟨_, checkAccess_inReg ho _, hostWrite_turns s o v⟩

/-- A step whose next turn, if there is one, is legal answers a next state, and exactly that turn is gone. -/
theorem step_next_of_head_legal (s : State) (h : ∀ a ∈ s.turns.head?, a.legal = true) :
    ∃ t, step s = .next t ∧ t.turns = s.turns.tail := by
  obtain ⟨ht, -, hs⟩ | ⟨ht, -, hs⟩ | ⟨a, rest, ht, hs⟩ | ⟨rest, ht, hs⟩ | ⟨rest, ht, -, hs⟩ | ⟨rest, ht, -, hs⟩ |
    ⟨rest, ht, -, hs⟩ | ⟨rest, ht, -, hs⟩ := step_cases s <;> rw [hs, ht]
  · obtain ⟨t, hc, hframed⟩ := completeCommand_next s
    exact ⟨t, hc, hframed.turns.trans ht⟩
  · exact ⟨s, rfl, ht⟩
  · exact access_next_of_legal _ (h _ (by rw [ht]; rfl))
  · exact ⟨_, rfl, rfl⟩
  · obtain ⟨t, hc, hframed⟩ := completeCommand_next { s with turns := rest }
    exact ⟨t, hc, hframed.turns⟩
  · exact ⟨_, rfl, rfl⟩
  · exact ⟨_, rfl, sequencerStep_turns _⟩
  · exact ⟨_, rfl, rfl⟩

/-- From a predicate under which every step answers a next state of the same predicate, no run ever stops. -/
theorem run_next_of_step_next {P : State → Prop} (hstep : ∀ s, P s → ∃ t, step s = .next t ∧ P t) (n : Nat)
    (s : State) (hs : P s) : ∃ t, Host.Core.run Sys2Proof.core n s = .next t ∧ P t := by
  induction n generalizing s with
  | zero => exact ⟨s, run_zero s, hs⟩
  | succ n ih =>
    obtain ⟨t, hst, ht⟩ := hstep s hs
    rw [run_succ_next n hst]
    exact ih t ht

/-- Settles O23: a step takes the next turn off a legal schedule, and what is left is legal again. -/
theorem legalTurnsNeverStopTheMachine : Obligations.LegalTurnsNeverStopTheMachine := by
  unfold Obligations.LegalTurnsNeverStopTheMachine
  intro s n
  refine run_next_of_step_next (P := fun u => ∀ a ∈ u.turns, a.legal = true) (fun u hu => ?_) n s
  obtain ⟨t, hs, ht⟩ := step_next_of_head_legal u fun a ha => hu a (List.mem_of_mem_head? ha)
  exact ⟨t, hs, fun a ha => hu a (List.mem_of_mem_tail (ht ▸ ha))⟩

end Sys2Proof.Machine
end

section
/-! PROOFS of the family 10_state, facts: STATUS, the invariant at an idle and at a busy core, the checks of R225 and
the equations of the sequencer's steps. -/

namespace Sys2Proof.Machine

/-! ### STATUS and the invariant -/

theorem statusError_mem (c : ErrClass) : statusError c ∈ statusValues := by cases c <;> decide

theorem statusError_not_busy (c : ErrClass) : (statusError c).getLsbD 0 = false := by cases c <;> decide

theorem statusError_done (c : ErrClass) : (statusError c).getLsbD 1 = true := by cases c <;> decide

/-- Of the seven values of STATUS only 0x00000001 has BUSY set (R12). -/
theorem statusBusy_of_mem {w : Word} (h : w ∈ statusValues) (hb : w.getLsbD 0 = true) : w = statusBusy := by
  have hbusy : w ∈ statusValues.filter (·.getLsbD 0) := List.mem_filter.2 ⟨h, hb⟩
  rwa [show statusValues.filter (·.getLsbD 0) = [statusBusy] by decide, List.mem_singleton] at hbusy

theorem State.Inv.status_of_busy {s : State} (h : s.Inv) (hb : s.busy = true) : s.status = statusBusy :=
  statusBusy_of_mem h.status hb

/-- A busy core shows no result yet: DOUT_LEN is 0 and DOUT lists nothing (R15, R20, R51). -/
theorem State.Inv.no_result_of_busy {s : State} (h : s.Inv) (hb : s.busy = true) : s.doutLen = 0 ∧ s.dout = [] := by
  have hlen : s.doutLen = 0 := h.noPartial (by rw [h.status_of_busy hb]; decide)
  refine ⟨hlen, List.eq_nil_iff_forall_not_mem.2 fun c hc => ?_⟩
  have := h.result.2 c hc
  simp [hlen] at this

theorem State.Inv.phase_idle {s : State} (h : s.Inv) (hb : s.busy = false) : s.phase = .idle := h.phase.2 hb

theorem State.Inv.phase_ne_idle {s : State} (h : s.Inv) (hb : s.busy = true) : s.phase ≠ .idle := fun hp => by
  rw [h.phase.1 hp] at hb
  cases hb

theorem State.checksPassed_of_idle {s : State} (h : s.phase = .idle) : s.ChecksPassed = true := by
  simp [State.ChecksPassed, h]

/-- The command in CMD is legal and its operands pass the checks 2 to 4c of R225. -/
def State.CommandChecked (s : State) : Prop :=
  ∃ i, decodeWord s.cmd = .ok i ∧ firstFailure s.cfg i.mode i.variant s.operands = none

theorem State.checksPassed_iff (s : State) :
    s.ChecksPassed = true ↔ s.phase = .idle ∨ s.phase = .check ∨ s.CommandChecked := by
  unfold State.ChecksPassed State.CommandChecked
  cases s.phase <;> cases decodeWord s.cmd <;> simp

/-- The operands are read from registers the host can see (R66). -/
theorem State.operands_of_visible {s t : State} (h : s.visible = t.visible) : s.operands = t.operands := by
  simp only [State.visible, Visible.mk.injEq] at h
  obtain ⟨-, -, -, hkl, hdl, -, hkey, hiv, hdin, -, -, -⟩ := h
  simp only [State.operands, State.keyb, State.ivb, hkl, hdl, hkey, hiv, hdin]

theorem State.commandChecked_of_visible {s t : State} (h : s.visible = t.visible) (hs : s.CommandChecked) :
    t.CommandChecked := by
  have hcfg : s.cfg = t.cfg := congrArg Visible.cfg h
  have hcmd : s.cmd = t.cmd := congrArg Visible.cmd h
  unfold State.CommandChecked at hs ⊢
  rwa [← hcfg, ← hcmd, ← State.operands_of_visible h]

/-! ### The checks of R225 -/

/-- The length of the text is one the mode processes: the checks 4a to 4c of R225 pass. -/
def TextLengthOk (cfg : Config) (m : Mode) (n : Nat) : Prop :=
  match m with
  | .encrypt | .decrypt => n = 16
  | .ecbDecrypt | .cbcDecrypt => n ≠ 0 ∧ n % 16 = 0
  | .ecbEncrypt | .cbcEncrypt => paddedLength n ≤ cfg.bufCap
  | .cmac => True

/-- The checks find no failure exactly when the key length, the capacity and the mode's own length are right (R225). -/
theorem firstFailure_eq_none_iff {cfg : Config} {m : Mode} {v : Variant} {o : Operands} :
    firstFailure cfg m v o = none ↔ o.keyLen = 4 * v.nk ∧ o.dinLen ≤ cfg.bufCap ∧ TextLengthOk cfg m o.dinLen := by
  unfold firstFailure
  by_cases hk : o.keyLen = 4 * v.nk
  · by_cases hd : o.dinLen ≤ cfg.bufCap
    · rw [if_neg (not_not.2 hk), if_neg (Nat.not_lt.2 hd)]
      cases m <;> simp [TextLengthOk, hk, hd]
    · rw [if_neg (not_not.2 hk), if_pos (Nat.lt_of_not_le hd)]
      simp [hd]
  · rw [if_pos hk]
    simp [hk]

@[simp] theorem Operands.text_length (o : Operands) : o.text.length = o.dinLen := Memory.readBytes_length _ _ _

/-- No command has more blocks than a buffer holds (R25). -/
theorem blockCount_le {cfg : Config} {m : Mode} {v : Variant} {o : Operands} (hc : cfg.wf = true)
    (h : firstFailure cfg m v o = none) : blockCount m o.text ≤ cfg.bufCap / 16 := by
  obtain ⟨h16, h32, -⟩ := (Config.wf_iff cfg).1 hc
  obtain ⟨-, hd, hm⟩ := firstFailure_eq_none_iff.1 h
  cases m <;>
    simp only [blockCount, TextLengthOk, paddedLength, cmacBlocks, pad_length, Operands.text_length] at hm ⊢ <;> omega

/-! ### The parameters of the variants (R2) -/

theorem nk_le (v : Variant) : v.nk ≤ 8 := by cases v <;> decide

theorem nk_pos (v : Variant) : 0 < v.nk := by cases v <;> decide

theorem nr_le (v : Variant) : v.nr ≤ 14 := by cases v <;> decide

theorem nr_pos (v : Variant) : 0 < v.nr := by cases v <;> decide

theorem scheduleWords_le (v : Variant) : v.scheduleWords ≤ 60 := by cases v <;> decide

/-! ### The equations of the sequencer's steps -/

/-- EXPAND is entered: the first Nk words of W are the key's and KI is Nk (R21, R25). -/
def enterExpand (s : State) (v : Variant) : State :=
  { s with
    phase := .expand
    work := { s.work with
      w := Vector.ofFn fun k => (keyWords (s.operands.key v) v.nk).getD k.val s.work.w[k], ki := v.nk } }

@[simp] theorem enterExpand_phase (s : State) (v : Variant) : (enterExpand s v).phase = .expand := rfl

@[simp] theorem enterExpand_ki (s : State) (v : Variant) : (enterExpand s v).work.ki = v.nk := rfl

@[simp] theorem enterExpand_blk (s : State) (v : Variant) : (enterExpand s v).work.blk = s.work.blk := by
  simp only [enterExpand]

@[simp] theorem enterExpand_rnd (s : State) (v : Variant) : (enterExpand s v).work.rnd = s.work.rnd := by
  simp only [enterExpand]

@[simp] theorem enterExpand_visible (s : State) (v : Variant) : (enterExpand s v).visible = s.visible := rfl

@[simp] theorem enterExpand_cfg (s : State) (v : Variant) : (enterExpand s v).cfg = s.cfg := rfl

theorem seqCheck_of_illegal {s : State} {e : DecodeError} (h : decodeWord s.cmd = .error e) :
    seqCheck s = settle s (.error .illegal) := by
  simp only [seqCheck, h]

theorem seqCheck_of_failure {s : State} {i : Instr} {c : ErrClass} (h : decodeWord s.cmd = .ok i)
    (hf : firstFailure s.cfg i.mode i.variant s.operands = some c) : seqCheck s = settle s (.error c) := by
  simp only [seqCheck, h, hf]

theorem seqCheck_of_passed {s : State} {i : Instr} (h : decodeWord s.cmd = .ok i)
    (hf : firstFailure s.cfg i.mode i.variant s.operands = none) : seqCheck s = enterExpand s i.variant := by
  simp only [seqCheck, h, hf]
  rfl

/-- CHECK ends with an error, or the command is legal, its checks pass and EXPAND is entered (R25, R225). -/
theorem seqCheck_cases (s : State) : (∃ r, seqCheck s = settle s r) ∨
    s.CommandChecked ∧ ∃ v, seqCheck s = enterExpand s v := by
  cases h : decodeWord s.cmd with
  | error e => exact .inl ⟨_, seqCheck_of_illegal h⟩
  | ok i =>
    cases hf : firstFailure s.cfg i.mode i.variant s.operands with
    | some c => exact .inl ⟨_, seqCheck_of_failure h hf⟩
    | none => exact .inr ⟨⟨i, h, hf⟩, _, seqCheck_of_passed h hf⟩

/-- The schedule word at KI is stored in W. -/
def storeWord (s : State) (v : Variant) : State :=
  { s with work := { s.work with
    w := s.work.w.setIfInBounds s.work.ki (scheduleWord v.nk s.work.w.toList s.work.ki) } }

/-- The next word is to be derived. -/
def nextWord (s : State) : State := { s with work := { s.work with ki := s.work.ki + 1 } }

/-- EXPAND is over: SUBKEYS follows in `cmac`, BLOCKS in the other modes. -/
def leaveExpand (s : State) (m : Mode) (v : Variant) : State :=
  if m = .cmac then { s with phase := .subkeys } else enterBlocks s m v

theorem seqExpand_eq (s : State) (m : Mode) (v : Variant) : seqExpand s m v =
    if s.work.ki + 1 < v.scheduleWords then nextWord (storeWord s v) else leaveExpand (storeWord s v) m v := rfl

/-- LREG, K1 and K2 are stored (R201). -/
def storeSubkeys (s : State) (v : Variant) : State :=
  { s with work := { s.work with
    lreg := cmacL s.work.w.toList v.nr
    k1 := (subkeys s.work.w.toList v.nr).1
    k2 := (subkeys s.work.w.toList v.nr).2 } }

theorem seqSubkeys_eq (s : State) (m : Mode) (v : Variant) :
    seqSubkeys s m v = enterBlocks (storeSubkeys s v) m v := rfl

theorem storeSubkeys_w (s : State) (v : Variant) : (storeSubkeys s v).work.w = s.work.w := by
  simp only [storeSubkeys]

theorem storeSubkeys_subkeys (s : State) (v : Variant) :
    ((storeSubkeys s v).work.k1, (storeSubkeys s v).work.k2) = subkeys (storeSubkeys s v).work.w.toList v.nr := by
  simp only [storeSubkeys]

/-- `s` with the state register and RND as a round leaves them. -/
def withRound (s : State) (y : Matrix4) (r : Nat) : State := { s with work := { s.work with s := y, rnd := r } }

@[simp] theorem withRound_rnd (s : State) (y : Matrix4) (r : Nat) : (withRound s y r).work.rnd = r := rfl

/-- `s` with the output of its block staged and CHAIN updated. -/
def storeBlock (s : State) (m : Mode) (last : Matrix4) : State :=
  { s with
    staged := s.staged ++ blockOutput m s.operands.text s.work.blk s.work.chain (fromState last)
    work := { s.work with
      s := last, chain := blockChain m s.operands.text s.work.blk s.work.chain (fromState last) } }

/-- `s` at the start of the block after BLK. -/
def nextBlock (s : State) (m : Mode) (v : Variant) : State :=
  { s with work := { s.work with blk := s.work.blk + 1, rnd := firstRound m v } }

section

variable {s : State} {m : Mode} (v : Variant) (last : Matrix4)

theorem finishBlock_of_more (h : s.work.blk + 1 < blockCount m s.operands.text) :
    finishBlock s m v last = nextBlock (storeBlock s m last) m v := by
  simp only [finishBlock, if_pos h]
  rfl

theorem finishBlock_of_strip (h : ¬ s.work.blk + 1 < blockCount m s.operands.text) (hm : stripsPadding m = true) :
    finishBlock s m v last = { storeBlock s m last with phase := .strip } := by
  simp only [finishBlock, if_neg h, if_pos hm]
  rfl

theorem finishBlock_of_last (h : ¬ s.work.blk + 1 < blockCount m s.operands.text) (hm : stripsPadding m = false) :
    finishBlock s m v last = settle (storeBlock s m last) (.ok (storeBlock s m last).staged) := by
  simp only [finishBlock, if_neg h, hm, Bool.false_eq_true, if_false]
  rfl

end

/-- BLOCKS is one round more, RND staying within the rounds of the variant, or the end of the block (R25). -/
theorem seqBlocks_cases (s : State) (m : Mode) (v : Variant) :
    (∃ y r, r ≤ max s.work.rnd v.nr ∧ seqBlocks s m v = withRound s y r) ∨
      ∃ last, seqBlocks s m v = finishBlock s m v last := by
  unfold seqBlocks
  dsimp only
  split
  · split
    · exact .inl ⟨_, v.nr - 1, by omega, rfl⟩
    · split
      · exact .inl ⟨_, s.work.rnd - 1, by omega, rfl⟩
      · exact .inr ⟨_, rfl⟩
  · split
    · exact .inl ⟨_, 1, by have := nr_pos v; omega, rfl⟩
    · split
      · exact .inl ⟨_, s.work.rnd + 1, by omega, rfl⟩
      · exact .inr ⟨_, rfl⟩

end Sys2Proof.Machine
end

section
/-! PROOFS of the family 10_state: every step keeps the invariant. -/

namespace Sys2Proof.Machine

/-! ### The sequencer keeps the invariant -/

/-- A command is in progress and the sequencer's counters are in range (R25). -/
def State.InSequence (s : State) : Prop := s.phase ≠ .idle ∧ s.CountersLegal

theorem firstRound_le (m : Mode) (v : Variant) : firstRound m v ≤ 14 := by
  unfold firstRound
  split
  · exact nr_le v
  · decide

theorem enterBlocks_inSequence {s : State} (h : s.CountersLegal) (m : Mode) (v : Variant) :
    (enterBlocks s m v).InSequence :=
  ⟨nofun, h.1, Nat.zero_le _, firstRound_le m v⟩

theorem enterExpand_inSequence {s : State} (h : s.CountersLegal) (v : Variant) : (enterExpand s v).InSequence := by
  have hki : v.nk ≤ 59 := (nk_le v).trans (by decide)
  simpa [State.InSequence, State.CountersLegal, hki] using h.2

theorem seqCheck_inSequence {s : State} (h : s.InSequence) : (seqCheck s).InSequence := by
  obtain ⟨r, hr⟩ | ⟨-, v, hv⟩ := seqCheck_cases s
  · rw [hr]
    exact h
  · rw [hv]
    exact enterExpand_inSequence h.2 v

theorem storeWord_inSequence {s : State} (h : s.InSequence) (v : Variant) : (storeWord s v).InSequence := h

theorem leaveExpand_inSequence {s : State} (h : s.InSequence) (m : Mode) (v : Variant) :
    (leaveExpand s m v).InSequence := by
  unfold leaveExpand
  split
  · exact ⟨nofun, h.2⟩
  · exact enterBlocks_inSequence h.2 m v

theorem seqExpand_inSequence {s : State} (h : s.InSequence) (m : Mode) (v : Variant) :
    (seqExpand s m v).InSequence := by
  rw [seqExpand_eq]
  split
  · have hki : s.work.ki + 1 ≤ 59 := by
      have := scheduleWords_le v
      omega
    exact ⟨h.1, hki, h.2.2⟩
  · exact leaveExpand_inSequence (storeWord_inSequence h v) m v

theorem seqSubkeys_inSequence {s : State} (h : s.InSequence) (m : Mode) (v : Variant) :
    (seqSubkeys s m v).InSequence := by
  have hstored : (storeSubkeys s v).CountersLegal := by
    unfold storeSubkeys
    exact h.2
  rw [seqSubkeys_eq]
  exact enterBlocks_inSequence hstored m v

theorem storeBlock_inSequence {s : State} (h : s.InSequence) (m : Mode) (last : Matrix4) :
    (storeBlock s m last).InSequence := h

theorem finishBlock_inSequence {s : State} {m : Mode} {v : Variant} (h : s.InSequence)
    (hn : blockCount m s.operands.text ≤ s.cfg.bufCap / 16) (last : Matrix4) :
    (finishBlock s m v last).InSequence := by
  have hstored := storeBlock_inSequence h m last
  by_cases hmore : s.work.blk + 1 < blockCount m s.operands.text
  · rw [finishBlock_of_more v last hmore]
    exact ⟨hstored.1, hstored.2.1, hmore.le.trans hn, firstRound_le m v⟩
  · cases hm : stripsPadding m with
    | true =>
      rw [finishBlock_of_strip v last hmore hm]
      exact ⟨nofun, hstored.2⟩
    | false =>
      rw [finishBlock_of_last v last hmore hm]
      exact hstored

theorem seqBlocks_inSequence {s : State} {m : Mode} {v : Variant} (h : s.InSequence)
    (hn : blockCount m s.operands.text ≤ s.cfg.bufCap / 16) : (seqBlocks s m v).InSequence := by
  obtain ⟨y, r, hr, he⟩ | ⟨last, he⟩ := seqBlocks_cases s m v <;> rw [he]
  · obtain ⟨hp, hki, hblk, hrnd⟩ := h
    exact ⟨hp, hki, hblk, hr.trans (max_le hrnd (nr_le v))⟩
  · exact finishBlock_inSequence h hn last

/-- Past CHECK the command stays checked, since no step of the sequencer changes CMD or an operand (R25, R27). -/
theorem sequencerStep_checksPassed {s : State} (h : s.ChecksPassed = true) :
    (sequencerStep s).ChecksPassed = true := by
  have keep (hc : s.CommandChecked) : (sequencerStep s).ChecksPassed = true :=
    (State.checksPassed_iff _).2 (.inr (.inr (State.commandChecked_of_visible (sequencerStep_visible s).symm hc)))
  obtain he | ⟨-, hp, he⟩ | ⟨i, -, -, hstep⟩ := sequencerStep_cases s
  · rwa [he]
  · obtain ⟨r, hr⟩ | ⟨hc, -⟩ := seqCheck_cases s
    · rw [he, hr]
      exact (State.checksPassed_iff _).2 (.inr (.inl hp))
    · exact keep hc
  · obtain hp | hp | hc := (State.checksPassed_iff s).1 h
    · simp [hp] at hstep
    · simp [hp] at hstep
    · exact keep hc

theorem sequencerStep_inSequence {s : State} (hc : s.cfg.wf = true) (hk : s.ChecksPassed = true)
    (h : s.InSequence) : (sequencerStep s).InSequence := by
  obtain he | ⟨-, -, he⟩ | ⟨i, hd, -, ⟨-, he⟩ | ⟨-, he⟩ | ⟨hp, he⟩ | ⟨-, he⟩⟩ := sequencerStep_cases s <;> rw [he]
  · exact h
  · exact seqCheck_inSequence h
  · exact seqExpand_inSequence h _ _
  · exact seqSubkeys_inSequence h _ _
  · obtain ⟨j, hj, hf⟩ : s.CommandChecked := by simpa [hp] using (State.checksPassed_iff s).1 hk
    obtain rfl : i = j := by simpa [hd] using hj
    exact seqBlocks_inSequence h (blockCount_le hc hf)
  · exact h

/-- The invariant of a busy core rests on what the host sees, but for PHASE, the counters and the checks. -/
theorem State.Inv.of_visible {s t : State} (h : s.Inv) (hb : s.busy = true) (hv : t.visible = s.visible)
    (ht : t.InSequence) (hk : t.ChecksPassed = true) : t.Inv := by
  have hbt : t.busy = true := (State.busy_of_visible hv).trans hb
  simp only [State.visible, Visible.mk.injEq] at hv
  obtain ⟨hcfg, -, hstatus, -, -, hdoutLen, -, -, hdin, hdout, -⟩ := hv
  exact
    { config := hcfg ▸ h.config
      status := by simpa only [State.StatusLegal, hstatus] using h.status
      phase := by simp [State.PhaseLegal, ht.1, hbt]
      buffers := by simpa only [State.BuffersLegal, hcfg, hdin, hdout] using h.buffers
      result := by simpa only [State.ResultLegal, hcfg, hdoutLen, hdout] using h.result
      noPartial := by simpa only [State.NoPartialResult, hstatus, hdoutLen] using h.noPartial
      counters := ht.2
      checks := hk
      clean := fun hp => absurd hp ht.1 }

theorem sequencerStep_inv {s : State} (h : s.Inv) (hb : s.busy = true) : (sequencerStep s).Inv :=
  h.of_visible hb (sequencerStep_visible s)
    (sequencerStep_inSequence h.config h.checks ⟨h.phase_ne_idle hb, h.counters⟩)
    (sequencerStep_checksPassed h.checks)

/-! ### Completion, RESET and the host keep the invariant -/

/-- The free value of the counters is cut to the ranges of R25. -/
theorem leftWorking_counters (cfg : Config) (n : Nat) : (leftWorking cfg n).ki ≤ 59 ∧
    (leftWorking cfg n).blk ≤ cfg.bufCap / 16 ∧ (leftWorking cfg n).rnd ≤ 14 :=
  ⟨min_le_right _ _, min_le_right _ _, min_le_right _ _⟩

/-- The end of a busy core's command keeps the invariant, given what it writes to STATUS, DOUT_LEN and DOUT. -/
theorem leaveCommand_inv {s : State} (h : s.Inv) {status doutLen : Word} {dout : Memory}
    (hs : status ∈ statusValues) (hb : status.getLsbD 0 = false) (hwf : dout.wf) (hlen : doutLen.toNat ≤ s.cfg.bufCap)
    (hdout : ∀ c ∈ dout, c.1 < doutLen.toNat) (hnone : status ≠ statusDone → doutLen = 0) :
    State.Inv { leaveCommand s with status := status, doutLen := doutLen, dout := dout } where
  config := h.config
  status := hs
  phase := ⟨fun _ => hb, fun _ => rfl⟩
  buffers := ⟨h.buffers.1, hwf, fun c hc => (hdout c hc).trans_le hlen⟩
  result := ⟨hlen, hdout⟩
  noPartial := hnone
  counters := leftWorking_counters s.cfg s.freeIndex
  checks := State.checksPassed_of_idle rfl
  clean := fun _ => ⟨rfl, rfl⟩

/-- The completion of a busy core with a result that fits DOUT keeps the invariant (R52). -/
theorem complete_inv {s t : State} (h : s.Inv) (hb : s.busy = true) {r : Result}
    (hr : ∀ out, r = .ok out → out.length ≤ s.cfg.bufCap) (ht : complete s r = .next t) : t.Inv := by
  obtain ⟨hlen0, hdout0⟩ := h.no_result_of_busy hb
  cases r with
  | error c =>
    rw [complete_error] at ht
    cases ht
    exact leaveCommand_inv h (statusError_mem c) (statusError_not_busy c) h.buffers.2.1 h.result.1 h.result.2
      fun _ => hlen0
  | ok out =>
    have hout := hr out rfl
    have hcap := ((Config.wf_iff s.cfg).1 h.config).2.2
    have hlen : (BitVec.ofNat 32 out.length).toNat = out.length := by
      rw [BitVec.toNat_ofNat]
      exact Nat.mod_eq_of_lt (by omega)
    rw [complete_ok] at ht
    cases ht
    refine leaveCommand_inv h (by decide) (by decide) (Memory.writeBytes_wf h.buffers.2.1 0 out) ?_ ?_ ?_
    · rwa [hlen]
    · intro c hc
      rw [hdout0] at hc
      have hrange := (Memory.mem_writeBytes hc).resolve_right (by simp)
      omega
    · exact fun hne => absurd rfl hne

theorem completeCommand_inv {s t : State} (h : s.Inv) (hb : s.busy = true) (ht : completeCommand s = .next t) :
    t.Inv := by
  rw [completeCommand_eq] at ht
  exact complete_inv h hb (fun _ => execute_ok_length h.config) ht

theorem resetEvent_inv {s : State} (h : s.cfg.wf = true) : (resetEvent s).Inv where
  config := h
  status := by simp [State.StatusLegal, statusValues]
  phase := by simp [State.PhaseLegal]
  buffers := by simp [State.BuffersLegal, Memory.wf]
  result := by simp [State.ResultLegal]
  noPartial := by simp [State.NoPartialResult]
  counters := leftWorking_counters s.cfg s.freeIndex
  checks := State.checksPassed_of_idle rfl
  clean := fun _ => ⟨rfl, rfl⟩

theorem startCommand_inv {s : State} (h : s.Inv) (v : Word) : (startCommand s v).Inv where
  config := h.config
  status := by simp [State.StatusLegal, statusValues, statusBusy]
  phase := by simp [State.PhaseLegal]
  buffers := ⟨h.buffers.1, Memory.wf_nil, nofun⟩
  result := by simp [State.ResultLegal]
  noPartial := fun _ => rfl
  counters := h.counters
  checks := (State.checksPassed_iff _).2 (.inr (.inl rfl))
  clean := nofun

/-- The invariant says nothing of an idle core's operands but that DIN is canonical and inside BUF_CAP (R19). -/
theorem State.Inv.of_idle_operands {s t : State} (h : s.Inv) (hp : s.phase = .idle)
    (ht : t = { s with keyLen := t.keyLen, dinLen := t.dinLen, key := t.key, iv := t.iv, din := t.din })
    (hd : t.din.wf ∧ ∀ c ∈ t.din, c.1 < s.cfg.bufCap) : t.Inv := by
  rw [ht]
  exact ⟨h.config, h.status, h.phase, ⟨hd, h.buffers.2⟩, h.result, h.noPartial, h.counters,
    State.checksPassed_of_idle hp, h.clean⟩

theorem State.Inv.of_turns {s : State} (h : s.Inv) (turns : List Turn) : State.Inv { s with turns := turns } :=
  ⟨h.config, h.status, h.phase, h.buffers, h.result, h.noPartial, h.counters, h.checks, h.clean⟩

theorem State.Inv.of_replies {s : State} (h : s.Inv) (replies : List Word) :
    State.Inv { s with replies := replies } :=
  ⟨h.config, h.status, h.phase, h.buffers, h.result, h.noPartial, h.counters, h.checks, h.clean⟩

/-- A word written inside a buffer whose capacity is a multiple of 4 leaves its entries inside it. -/
theorem Memory.writeWord_lt {m : Memory} {cap k : Nat} (hm : ∀ c ∈ m, c.1 < cap) (hcap : cap % 4 = 0)
    (hk : 4 * k < cap) (w : Word) : ∀ c ∈ m.writeWord k w, c.1 < cap := by
  intro c hc
  obtain ⟨-, hlt⟩ | hold := Memory.mem_writeBytes hc
  · have : (wordBytes w).length = 4 := rfl
    omega
  · exact hm c hold

/-- A write to a register of an idle core keeps the invariant (R46, R47, R51). -/
theorem writeReg_inv {s : State} (h : s.Inv) (hb : s.busy = false) {o : Nat} (ho : o % 4 = 0) (v : Word) :
    (writeReg s (regAt s.cfg.bufCap o) v).Inv := by
  have hp := h.phase_idle hb
  have hr := regAt_standsAt s.cfg.bufCap ho
  cases hreg : regAt s.cfg.bufCap o with
  | cmd => exact startCommand_inv h v
  | status | doutLen | cap | dout k | unmapped => exact h
  | keyLen | dinLen | key k | iv k => exact h.of_idle_operands hp rfl h.buffers.1
  | din k =>
    rw [hreg] at hr
    have hcap : s.cfg.bufCap % 4 = 0 := by
      have := ((Config.wf_iff s.cfg).1 h.config).1
      omega
    exact h.of_idle_operands hp rfl
      ⟨Memory.writeWord_wf h.buffers.1.1 k v, Memory.writeWord_lt h.buffers.1.2 hcap hr.1 v⟩

theorem hostWrite_inv {s : State} (h : s.Inv) {o : Nat} (ho : o % 4 = 0) (v : Word) : (hostWrite s o v).Inv := by
  cases hb : s.busy with
  | true => rwa [hostWrite_of_busy hb]
  | false =>
    rw [hostWrite_of_idle hb]
    exact writeReg_inv h hb ho v

theorem access_inv {s t : State} {a : Access} (h : s.Inv) (ht : access s a = .next t) : t.Inv := by
  obtain ⟨o, -, -, rfl⟩ | ⟨o, v, ho, -, rfl⟩ := access_next ht
  · exact h.of_replies _
  · exact hostWrite_inv h ho.2 v

/-- Settles O17, by the kinds of a step: an access, RESET, a completion, a move of the sequencer, or nothing. -/
theorem everyStepKeepsTheInvariant : Obligations.EveryStepKeepsTheInvariant := by
  unfold Obligations.EveryStepKeepsTheInvariant
  intro s t h ht
  obtain ⟨-, hb, hs⟩ | ⟨-, -, hs⟩ | ⟨a, rest, -, hs⟩ | ⟨rest, -, hs⟩ | ⟨rest, -, hb, hs⟩ | ⟨rest, -, -, hs⟩ |
    ⟨rest, -, hb, hs⟩ | ⟨rest, -, -, hs⟩ := step_cases s <;> rw [hs] at ht
  · exact completeCommand_inv h hb ht
  · cases ht
    exact h
  · exact access_inv (h.of_turns rest) ht
  · cases ht
    exact resetEvent_inv h.config
  · exact completeCommand_inv (h.of_turns rest) hb ht
  · cases ht
    exact h.of_turns rest
  · cases ht
    exact sequencerStep_inv (h.of_turns rest) hb
  · cases ht
    exact h.of_turns rest

end Sys2Proof.Machine
end

section
/-! PROOFS of the family 10_state: the writers of STATUS, what a command leaves unchanged, registers read back, and the
state after reset. -/

namespace Sys2Proof.Machine

/-! ### STATUS (R12) -/

/-- The fields of each of the seven values of STATUS (R12). -/
theorem status_fields_of_mem {w : Word} (h : w ∈ statusValues) :
    ¬ (w.getLsbD 0 = true ∧ w.getLsbD 1 = true) ∧
    (w.getLsbD 2 = true → w.getLsbD 1 = true ∧
      1 ≤ (w.extractLsb' 8 3).toNat ∧ (w.extractLsb' 8 3).toNat ≤ 4) ∧
    (w.getLsbD 2 = false → w.extractLsb' 8 3 = 0) ∧ w.extractLsb' 3 5 = 0 ∧ w.extractLsb' 11 21 = 0 := by
  simp only [statusValues, List.mem_cons, List.not_mem_nil, or_false] at h
  rcases h with rfl | rfl | rfl | rfl | rfl | rfl | rfl <;> decide

/-- A completion sets DONE and clears BUSY (R52). -/
theorem completeCommand_done {s t : State} (ht : completeCommand s = .next t) : t.done = true ∧ t.busy = false := by
  rw [completeCommand_eq] at ht
  cases hr : execute s.cfg s.cmd s.operands with
  | ok out =>
    rw [hr, complete_ok] at ht
    cases ht
    exact ⟨(by decide : statusDone.getLsbD 1 = true), (by decide : statusDone.getLsbD 0 = false)⟩
  | error c =>
    rw [hr, complete_error] at ht
    cases ht
    exact ⟨statusError_done c, statusError_not_busy c⟩

/-- Of the writes of an idle core only the one to CMD changes STATUS (R12, R51). -/
theorem writeReg_status {s : State} {r : Reg} (h : r ≠ .cmd) (v : Word) : (writeReg s r v).status = s.status := by
  cases r with
  | cmd => exact absurd rfl h
  | status | keyLen | dinLen | doutLen | cap | key k | iv k | din k | dout k | unmapped => rfl

theorem regAt_eq_cmd_iff (cap : Nat) {o : Nat} (ho : o % 4 = 0) : regAt cap o = .cmd ↔ o = 0x00000 := by
  refine ⟨fun h => ?_, fun h => h ▸ rfl⟩
  have hs := regAt_standsAt cap ho
  rwa [h] at hs

/-- A host access changes STATUS only as the start of a command by a write to CMD (R12, R48, R51, R53). -/
theorem access_status {s t : State} {a : Access} (ht : access s a = .next t) : t.status = s.status ∨
    (s.busy = false ∧ (∃ v, a = .write 0x00000 4 v) ∧ t.status = statusBusy) := by
  obtain ⟨o, -, -, rfl⟩ | ⟨o, v, ho, rfl, rfl⟩ := access_next ht
  · exact .inl rfl
  · cases hb : s.busy with
    | true => exact .inl (by rw [hostWrite_of_busy hb])
    | false =>
      rw [hostWrite_of_idle hb]
      by_cases hr : regAt s.cfg.bufCap o = .cmd
      · obtain rfl := (regAt_eq_cmd_iff _ ho.2).1 hr
        exact .inr ⟨rfl, ⟨v, rfl⟩, rfl⟩
      · exact .inl (writeReg_status hr v)

/-- Settles O18: the fields of the seven values, and the kinds of a step that write STATUS. -/
theorem statusKeepsItsValuesAndItsThreeWriters : Obligations.StatusKeepsItsValuesAndItsThreeWriters := by
  unfold Obligations.StatusKeepsItsValuesAndItsThreeWriters
  intro s h
  obtain ⟨hbusyDone, herr, hnoErr, hlow, hhigh⟩ := status_fields_of_mem h.status
  refine ⟨hbusyDone, herr, hnoErr, hlow, hhigh, h.status, fun t ht => ?_⟩
  have hseq (u : State) : (sequencerStep u).status = u.status := congrArg Visible.status (sequencerStep_visible u)
  obtain ⟨hn, hb, hs⟩ | ⟨-, -, hs⟩ | ⟨a, rest, hn, hs⟩ | ⟨rest, hn, hs⟩ | ⟨rest, hn, hb, hs⟩ | ⟨rest, -, -, hs⟩ |
    ⟨rest, -, -, hs⟩ | ⟨rest, -, -, hs⟩ := step_cases s <;> rw [hs] at ht
  · exact .inr (.inr (.inr ⟨hb, .inl hn, completeCommand_done ht⟩))
  · cases ht
    exact .inl rfl
  · obtain hsame | ⟨hb, ⟨v, rfl⟩, hst⟩ := access_status ht
    · exact .inl hsame
    · exact .inr (.inr (.inl ⟨hb, ⟨v, by rw [hn]; rfl⟩, hst⟩))
  · cases ht
    exact .inr (.inl ⟨by rw [hn]; rfl, rfl⟩)
  · exact .inr (.inr (.inr ⟨hb, .inr (by rw [hn]; rfl), completeCommand_done ht⟩))
  · cases ht
    exact .inl rfl
  · cases ht
    exact .inl (hseq _)
  · cases ht
    exact .inl rfl

/-! ### What a command leaves unchanged (R28) -/

/-- Settles O20: every command is a completion, and a completion is framed. -/
theorem aCommandChangesNoOperand : Obligations.ACommandChangesNoOperand := by
  unfold Obligations.ACommandChangesNoOperand
  intro i s
  obtain ⟨t, ht, -, -, -, -, -, -, hdin, hframed⟩ := complete_next s (runCommand s.cfg i.mode i.variant s.operands)
  exact ⟨t, (exec_eq i s).trans ht, hframed, hdin⟩

/-! ### Registers read back (R46) -/

/-- The registers the host may write (R41). -/
def Reg.IsWritable : Reg → Prop
  | .cmd | .keyLen | .dinLen | .key _ | .iv _ | .din _ => True
  | .status | .doutLen | .cap | .dout _ | .unmapped => False

/-- At a writable offset stands a writable register (R41). -/
theorem regAt_isWritable {cap o : Nat} (ho : o % 4 = 0) (h : Writable cap o) : (regAt cap o).IsWritable := by
  obtain rfl | rfl | rfl | ⟨hlo, hhi⟩ | ⟨hlo, hhi⟩ := h
  · exact trivial
  · exact trivial
  · exact trivial
  · by_cases hkey : o < 0x00040
    · obtain ⟨k, rfl⟩ : ∃ k : Fin 8, o = 0x00020 + 4 * k.val := ⟨⟨(o - 0x00020) / 4, by omega⟩, by dsimp only; omega⟩
      rw [regAt_key]
      exact trivial
    · obtain ⟨k, rfl⟩ : ∃ k : Fin 4, o = 0x00040 + 4 * k.val := ⟨⟨(o - 0x00040) / 4, by omega⟩, by dsimp only; omega⟩
      rw [regAt_iv]
      exact trivial
  · obtain ⟨k, rfl⟩ : ∃ k, o = 0x10000 + 4 * k := ⟨(o - 0x10000) / 4, by omega⟩
    rw [regAt_din (by omega)]
    exact trivial

/-- A writable register reads as it was written, all 32 bits (R11, R13, R14, R17 to R19). -/
theorem readReg_writeReg_same {s : State} (hd : s.din.wf) {r : Reg} (hr : r.IsWritable) (v : Word) :
    readReg (writeReg s r v) r = v := by
  cases r with
  | cmd | keyLen | dinLen => rfl
  | key k => exact Vector.getElem_set_self k.isLt
  | iv k => exact Vector.getElem_set_self k.isLt
  | din k => exact (Memory.readWord_writeWord hd k k v).trans (if_pos rfl)
  | status | doutLen | cap | dout k | unmapped => exact hr.elim

/-- Settles O9: the register at the offset is writable, and the write changes no parameter, so the map stays. -/
theorem anIdleWriteIsReadBack : Obligations.AnIdleWriteIsReadBack := by
  unfold Obligations.AnIdleWriteIsReadBack
  intro s offset v rest _ hd hb ho hw ht
  refine ⟨_, step_write_idle ho hb ht, ?_⟩
  rw [hostRead, writeReg_cfg]
  exact readReg_writeReg_same (s := { s with turns := rest }) hd (regAt_isWritable ho.2 hw) v

/-! ### The state after reset (R29) -/

/-- After RESET every register reads 0 but CAP (R29, R260). -/
theorem readReg_resetEvent (s : State) {r : Reg} (h : r ≠ .cap) : readReg (resetEvent s) r = 0 := by
  cases r with
  | cap => exact absurd rfl h
  | key k => simp [readReg]
  | iv k => simp [readReg]
  | din k | dout k => exact Memory.readWord_nil k
  | cmd | status | keyLen | dinLen | doutLen | unmapped => rfl

theorem regAt_eq_cap_iff (cap : Nat) {o : Nat} (ho : o % 4 = 0) : regAt cap o = .cap ↔ o = 0x00014 := by
  refine ⟨fun h => ?_, fun h => h ▸ rfl⟩
  have hs := regAt_standsAt cap ho
  rwa [h] at hs

/-- After RESET every offset of REG reads 0 but that of CAP, which reads BUF_CAP (R16, R29, R260). -/
theorem hostRead_resetEvent {s : State} (hc : s.cfg.wf = true) {o : Nat} (ho : o % 4 = 0) :
    (hostRead (resetEvent s) o).toNat = if o = 0x00014 then s.cfg.bufCap else 0 := by
  rw [hostRead, resetEvent_cfg]
  by_cases h : o = 0x00014
  · have hmax := ((Config.wf_iff s.cfg).1 hc).2.2
    rw [if_pos h, (regAt_eq_cap_iff _ ho).2 h]
    exact (BitVec.toNat_ofNat ..).trans (Nat.mod_eq_of_lt (by simp only [resetEvent_cfg]; omega))
  · rw [if_neg h, readReg_resetEvent s (mt (regAt_eq_cap_iff _ ho).1 h)]
    rfl

/-- The host sees the state after reset as RESET leaves it. -/
theorem resetEvent_reset_visible : (resetEvent State.reset).visible = State.reset.visible := rfl

/-- Settles O14: to the host `State.reset` is a state RESET has just left, and the named fields are its definition. -/
theorem theStateAfterResetReadsZero : Obligations.TheStateAfterResetReadsZero := by
  unfold Obligations.TheStateAfterResetReadsZero
  refine ⟨fun o ho => ?_, rfl, rfl, rfl, rfl, rfl, by decide, by decide, fun _ => rfl, fun _ => rfl, rfl, by decide⟩
  rw [hostRead, ← readReg_of_visible resetEvent_reset_visible]
  exact hostRead_resetEvent (s := State.reset) (by decide) ho.2

/-- Settles O16. -/
theorem theInvariantHoldsAfterReset : Obligations.TheInvariantHoldsAfterReset := by
  unfold Obligations.TheInvariantHoldsAfterReset
  exact
    { config := by decide
      status := by decide
      phase := by decide
      buffers := by decide
      result := by decide
      noPartial := by decide
      counters := by decide
      checks := State.checksPassed_of_idle rfl
      clean := fun _ => ⟨rfl, rfl⟩ }

end Sys2Proof.Machine
end

section
/-! PROOFS of the family 10_state, facts: the bytes of the buffers, the key and the IV, and the words of the key
schedule. -/

namespace Sys2Proof.Machine

/-! ### Bytes of words -/

/-- Byte `j` of word `k` of a buffer is the buffer's byte `4k + j` (R42). -/
theorem Memory.wordByte_readWord (m : Memory) (k : Nat) {j : Nat} (hj : j < 4) :
    wordByte (m.readWord k) j = m.read (4 * k + j) := by
  obtain ⟨h0, h1, h2, h3⟩ :=
    wordByte_be32 (m.read (4 * k)) (m.read (4 * k + 1)) (m.read (4 * k + 2)) (m.read (4 * k + 3))
  obtain rfl | rfl | rfl | rfl : j = 0 ∨ j = 1 ∨ j = 2 ∨ j = 3 := by omega
  · exact h0
  · exact h1
  · exact h2
  · exact h3

/-- Byte `i` of a sequence of words is byte `i mod 4` of its word `i div 4` (R17, R18). -/
theorem getD_flatMap_wordBytes (l : List Word) {i : Nat} (h : i < 4 * l.length) :
    (l.flatMap wordBytes).getD i 0 = wordByte (l.getD (i / 4) 0) (i % 4) := by
  induction l generalizing i with
  | nil => simp at h
  | cons w l ih =>
    obtain rfl | rfl | rfl | rfl | ⟨k, rfl⟩ : i = 0 ∨ i = 1 ∨ i = 2 ∨ i = 3 ∨ ∃ k, i = k + 4 := by
      by_cases hi : i < 4
      · omega
      · exact .inr (.inr (.inr (.inr ⟨i - 4, by omega⟩)))
    · rfl
    · rfl
    · rfl
    · rfl
    · rw [show (k + 4) / 4 = k / 4 + 1 by omega, show (k + 4) % 4 = k % 4 by omega]
      exact ih (by simp only [List.length_cons] at h; omega)

/-- The first `4n` bytes of a sequence of words are the bytes of its first `n` words. -/
theorem take_flatMap_wordBytes (l : List Word) (n : Nat) :
    (l.flatMap wordBytes).take (4 * n) = (l.take n).flatMap wordBytes := by
  induction n generalizing l with
  | zero => simp
  | succ n ih =>
    cases l with
    | nil => simp
    | cons w l => simpa [wordBytes, Nat.mul_succ] using ih l

theorem length_flatMap_wordBytes (l : List Word) : (l.flatMap wordBytes).length = 4 * l.length := by
  induction l with
  | nil => rfl
  | cons w l ih =>
    simp only [List.flatMap_cons, List.length_append, ih, List.length_cons, wordBytes, List.length_nil]
    omega

@[simp] theorem State.keyb_length (s : State) : s.keyb.length = 32 := by
  rw [State.keyb, length_flatMap_wordBytes, Vector.length_toList]

/-- Byte `i` of the key is byte `i mod 4` of `KEY<i div 4>` (R17). -/
theorem State.keyb_getD (s : State) {i : Nat} (h : i < 32) :
    s.keyb.getD i 0 = wordByte (s.key[i / 4]'(by omega)) (i % 4) := by
  rw [State.keyb, getD_flatMap_wordBytes _ (by simpa using h)]
  simp [List.getD_eq_getElem?_getD, show i / 4 < 8 by omega]

/-- Byte `i` of the IV is byte `i mod 4` of `IV<i div 4>` (R18). -/
theorem State.ivb_getD (s : State) {i : Nat} (h : i < 16) :
    s.ivb.toList.getD i 0 = wordByte (s.iv[i / 4]'(by omega)) (i % 4) := by
  have hget : s.ivb.toList.getD i 0 = s.ivb[i] := by simp [List.getD_eq_getElem?_getD, h]
  rw [hget, State.ivb, blockOf_get _ _ h, getD_flatMap_wordBytes _ (by simpa using h)]
  simp [List.getD_eq_getElem?_getD, show i / 4 < 4 by omega]

/-- The key of a variant is the bytes of KEY0 to `KEY<Nk-1>` (R17, R66). -/
theorem State.operands_key (s : State) (v : Variant) :
    s.operands.key v = (s.key.toList.take v.nk).flatMap wordBytes :=
  take_flatMap_wordBytes s.key.toList v.nk

/-! ### Words of the key schedule -/

@[simp] theorem keyWords_length (key : List Byte) (nk : Nat) : (keyWords key nk).length = nk := by simp [keyWords]

@[simp] theorem extendSchedule_length (nk : Nat) (w : List Word) (n : Nat) :
    (extendSchedule nk w n).length = w.length + n := by
  induction n generalizing w with
  | zero => rfl
  | succ n ih =>
    rw [extendSchedule, ih, List.length_append, List.length_singleton]
    omega

/-- The schedule keeps the words it already has (R133). -/
theorem extendSchedule_eq_append (nk : Nat) (w : List Word) (n : Nat) : ∃ rest, extendSchedule nk w n = w ++ rest := by
  induction n generalizing w with
  | zero => exact ⟨[], (List.append_nil w).symm⟩
  | succ n ih =>
    obtain ⟨rest, hrest⟩ := ih (w ++ [scheduleWord nk w w.length])
    exact ⟨_, hrest.trans (List.append_assoc ..)⟩

/-- A schedule has 4(Nr+1) words (R132). -/
@[simp] theorem expandKey_length (key : List Byte) (v : Variant) :
    (expandKey key v.nk v.nr).length = v.scheduleWords := by
  rw [expandKey, extendSchedule_length, keyWords_length]
  cases v <;> rfl

/-- The first Nk words of a schedule are the key's (R132, R133). -/
theorem expandKey_getElem? (key : List Byte) {nk k : Nat} (nr : Nat) (h : k < nk) :
    (expandKey key nk nr)[k]? = (keyWords key nk)[k]? := by
  obtain ⟨rest, hrest⟩ := extendSchedule_eq_append nk (keyWords key nk) (4 * (nr + 1) - nk)
  rw [expandKey, hrest, List.getElem?_append_left (by simpa using h)]

/-- Word `k` of the key is the register `KEY<k>` (R17, R21). -/
theorem State.keyWords_getElem? (s : State) (v : Variant) {k : Nat} (h : k < v.nk) :
    (keyWords (s.operands.key v) v.nk)[k]? = some (s.key[k]'(h.trans_le (nk_le v))) := by
  have hk : k < 8 := h.trans_le (nk_le v)
  have hbyte (j : Nat) (hj : j < 4) : (s.operands.key v).getD (4 * k + j) 0 = wordByte s.key[k] j := by
    have hb := s.keyb_getD (i := 4 * k + j) (by omega)
    simp only [show (4 * k + j) / 4 = k by omega, show (4 * k + j) % 4 = j by omega] at hb
    rw [← hb, Operands.key, slice, List.getD_eq_getElem?_getD, List.getD_eq_getElem?_getD, List.drop_zero,
      List.getElem?_take_of_lt (by omega)]
    rfl
  have h0 := hbyte 0 (by decide)
  rw [Nat.add_zero] at h0
  simp only [keyWords, List.getElem?_map, List.getElem?_range h, Option.map_some, h0, hbyte 1 (by decide),
    hbyte 2 (by decide), hbyte 3 (by decide), be32_wordByte]

end Sys2Proof.Machine
end

section
/-! PROOFS of the family 10_state: byte order at the host, the key words of the schedule, and what shows in no
result. -/

namespace Sys2Proof.Machine

/-! ### Byte order at the host (R42) -/

/-- Settles O38: each offset is that of its word, and a word's bytes are the buffer's or the register's. -/
theorem buffersAndKeyBytesArePackedBigEndian : Obligations.BuffersAndKeyBytesArePackedBigEndian := by
  unfold Obligations.BuffersAndKeyBytesArePackedBigEndian
  intro s hc
  have hmax := ((Config.wf_iff s.cfg).1 hc).2.2
  have hread (m : Memory) (i : Nat) : m.read i = wordByte (m.readWord (i / 4)) (i % 4) := by
    rw [Memory.wordByte_readWord _ _ (Nat.mod_lt _ (by decide)), Nat.div_add_mod]
  refine ⟨fun i hi => ?_, fun i hi => ?_, ⟨s.keyb_length, fun i hi => ?_⟩, fun i hi => ?_⟩
  · rw [hostRead, regAt_din (by omega)]
    exact hread s.din i
  · rw [hostRead, regAt_dout hmax (by omega)]
    exact hread s.dout i
  · rw [hostRead, regAt_key _ ⟨i / 4, by omega⟩]
    exact s.keyb_getD hi
  · rw [hostRead, regAt_iv _ ⟨i / 4, by omega⟩]
    exact s.ivb_getD hi

/-- Settles O39: the schedule starts with the key words, and these are the KEY registers. -/
theorem theScheduleStartsWithTheKeyRegisters : Obligations.TheScheduleStartsWithTheKeyRegisters := by
  unfold Obligations.TheScheduleStartsWithTheKeyRegisters
  intro v s
  exact ⟨expandKey_length _ v, fun k hk => (expandKey_getElem? _ v.nr hk).trans (s.keyWords_getElem? v hk)⟩

/-! ### Operands a command does not read (R17 to R19) -/

/-- A command reads of its operands the lengths, the text, its variant's key and, in CBC, the IV (R65, R66). -/
theorem runCommand_congr {cfg : Config} {m : Mode} {v : Variant} {o p : Operands} (hkl : o.keyLen = p.keyLen)
    (hdl : o.dinLen = p.dinLen) (htext : o.text = p.text) (hkey : o.key v = p.key v)
    (hiv : m = .cbcEncrypt ∨ m = .cbcDecrypt → o.ivb = p.ivb) : runCommand cfg m v o = runCommand cfg m v p := by
  have hbody : commandBody cfg m v p.text (p.key v) o.ivb = commandBody cfg m v p.text (p.key v) p.ivb := by
    cases m with
    | cbcEncrypt => rw [hiv (.inl rfl)]
    | cbcDecrypt => rw [hiv (.inr rfl)]
    | encrypt | decrypt | ecbEncrypt | ecbDecrypt | cmac => rfl
  rw [runCommand_eq, runCommand_eq, withOperands, withOperands, hkl, hdl, htext, hkey, hbody]

/-- The completion with one result shows the same over equal DOUT and DOUT_LEN (R52). -/
theorem complete_congr {s u : State} (hdout : s.dout = u.dout) (hlen : s.doutLen = u.doutLen) (r : Result) :
    ∃ t t', complete s r = .next t ∧ complete u r = .next t' ∧
      t.status = t'.status ∧ t.doutLen = t'.doutLen ∧ t.dout = t'.dout := by
  cases r with
  | ok out => exact ⟨_, _, complete_ok s out, complete_ok u out, rfl, rfl, by simp only [hdout]⟩
  | error c => exact ⟨_, _, complete_error s c, complete_error u c, rfl, hlen, hdout⟩

/-- The text is the bytes of DIN below DIN_LEN (R19, R66). -/
theorem State.text_congr {s u : State} (hlen : s.dinLen = u.dinLen)
    (hdin : ∀ k, k < s.dinLen.toNat → s.din.read k = u.din.read k) : s.operands.text = u.operands.text := by
  simp only [Operands.text, State.operands, Memory.readBytes, ← hlen, Nat.zero_add]
  exact List.map_congr_left fun k hk => hdin k (List.mem_range.1 hk)

/-- The key of a variant is read from KEY0 to `KEY<Nk-1>` (R17, R66). -/
theorem State.key_congr {s u : State} {v : Variant} (h : ∀ k : Fin 8, k.val < v.nk → s.key[k] = u.key[k]) :
    s.operands.key v = u.operands.key v := by
  rw [State.operands_key, State.operands_key]
  congr 1
  refine List.ext_getElem (by simp) fun k hk _ => ?_
  simp only [List.length_take, Vector.length_toList, Nat.lt_min] at hk
  simpa using h ⟨k, hk.2⟩ hk.1

/-- Settles O35: the two states give the command the same text, key and, in CBC, IV, so it has one result. -/
theorem aCommandIgnoresTheOperandsItDoesNotRead : Obligations.ACommandIgnoresTheOperandsItDoesNotRead := by
  unfold Obligations.ACommandIgnoresTheOperandsItDoesNotRead
  intro i s u hcfg hkl hdl hkey hdin hiv hdout hlen
  have hivb (hm : i.mode = .cbcEncrypt ∨ i.mode = .cbcDecrypt) : s.operands.ivb = u.operands.ivb := by
    simp only [State.operands, State.ivb, hiv hm]
  have hrun : runCommand s.cfg i.mode i.variant s.operands = runCommand s.cfg i.mode i.variant u.operands :=
    runCommand_congr (congrArg BitVec.toNat hkl) (congrArg BitVec.toNat hdl) (State.text_congr hdl hdin)
      (State.key_congr hkey) hivb
  rw [exec_eq, exec_eq, ← hcfg, hrun]
  exact complete_congr hdout hlen _

/-! ### What the host cannot see (R27) -/

/-- Two outcomes the host cannot tell apart: next states that look alike, or the same stop. -/
def SameToHost (a b : Host.Outcome State Fault Refusal) : Prop :=
  (∃ t r, a = .next t ∧ b = .next r ∧ t.visible = r.visible) ∨
    (∃ f, a = .fault f ∧ b = .fault f) ∨ ∃ f, a = .refused f ∧ b = .refused f

theorem sameToHost_next {t r : State} (h : t.visible = r.visible) : SameToHost (.next t) (.next r) :=
  .inl ⟨t, r, rfl, rfl, h⟩

theorem checkAccess_sameToHost (o w : Nat) {a b : Host.Outcome State Fault Refusal} (h : SameToHost a b) :
    SameToHost (checkAccess o w a) (checkAccess o w b) := by
  unfold checkAccess
  split
  · exact .inr (.inr ⟨_, rfl, rfl⟩)
  · split
    · exact .inr (.inr ⟨_, rfl, rfl⟩)
    · split
      · exact .inr (.inl ⟨_, rfl, rfl⟩)
      · exact h

section

variable {s u : State} (h : s.visible = u.visible)

include h

theorem State.visible_turns (turns : List Turn) :
    State.visible { s with turns := turns } = State.visible { u with turns := turns } :=
  congrArg (fun x : Visible => { x with turns := turns }) h

theorem hostRead_of_visible (o : Nat) : hostRead s o = hostRead u o := by
  have hcfg : s.cfg = u.cfg := congrArg Visible.cfg h
  rw [hostRead, hostRead, hcfg, readReg_of_visible h]

theorem writeReg_visible (r : Reg) (v : Word) : (writeReg s r v).visible = (writeReg u r v).visible := by
  simp only [State.visible, Visible.mk.injEq] at h
  cases r <;> simp [writeReg, startCommand, State.visible, h]

theorem hostWrite_visible (o : Nat) (v : Word) : (hostWrite s o v).visible = (hostWrite u o v).visible := by
  have hcfg : s.cfg = u.cfg := congrArg Visible.cfg h
  have hbusy := State.busy_of_visible h
  cases hb : u.busy with
  | true => rw [hostWrite_of_busy hb, hostWrite_of_busy (hbusy.trans hb), h]
  | false => rw [hostWrite_of_idle hb, hostWrite_of_idle (hbusy.trans hb), hcfg, writeReg_visible h]

theorem access_sameToHost (a : Access) : SameToHost (access s a) (access u a) := by
  cases a with
  | read o w =>
    refine checkAccess_sameToHost o w (sameToHost_next ?_)
    rw [hostRead_of_visible h]
    exact congrArg (fun x : Visible => { x with replies := hostRead u o :: x.replies }) h
  | write o w v => exact checkAccess_sameToHost o w (sameToHost_next (hostWrite_visible h o v))

theorem resetEvent_visible : (resetEvent s).visible = (resetEvent u).visible :=
  congrArg (fun x : Visible =>
    { State.reset.visible with cfg := x.cfg, turns := x.turns, replies := x.replies }) h

/-- A completion is decided by the registers the host can see (R52). -/
theorem completeCommand_sameToHost : SameToHost (completeCommand s) (completeCommand u) := by
  have hcfg : s.cfg = u.cfg := congrArg Visible.cfg h
  have hcmd : s.cmd = u.cmd := congrArg Visible.cmd h
  rw [completeCommand_eq, completeCommand_eq, hcfg, hcmd, State.operands_of_visible h]
  cases execute u.cfg u.cmd u.operands with
  | ok out =>
    rw [complete_ok, complete_ok]
    exact sameToHost_next (congrArg (fun x : Visible => { x with
      dout := x.dout.writeBytes 0 out, doutLen := BitVec.ofNat 32 out.length, status := statusDone }) h)
  | error c =>
    rw [complete_error, complete_error]
    exact sameToHost_next (congrArg (fun x : Visible => { x with status := statusError c }) h)

theorem takeLastTurn_sameToHost : SameToHost (takeLastTurn s) (takeLastTurn u) := by
  unfold takeLastTurn
  rw [State.busy_of_visible h]
  split
  · exact completeCommand_sameToHost h
  · exact sameToHost_next h

theorem takeTurn_sameToHost (a : Turn) : SameToHost (takeTurn s a) (takeTurn u a) := by
  cases a with
  | host a => exact access_sameToHost h a
  | reset => exact sameToHost_next (resetEvent_visible h)
  | core => exact takeLastTurn_sameToHost h
  | advance =>
    refine sameToHost_next ?_
    rw [State.busy_of_visible h]
    split
    · rw [sequencerStep_visible, sequencerStep_visible, h]
    · exact h

end

theorem step_nil {s : State} (h : s.turns = []) : step s = takeLastTurn s := by simp only [step, h]

theorem step_cons {s : State} {a : Turn} {rest : List Turn} (h : s.turns = a :: rest) :
    step s = takeTurn { s with turns := rest } a := by simp only [step, h]

/-- Settles O36: both states take the same turn, and no turn reads a working register into what the host sees. -/
theorem workingRegistersAreUnobservable : Obligations.WorkingRegistersAreUnobservable := by
  unfold Obligations.WorkingRegistersAreUnobservable
  intro s u h
  have hturns : s.turns = u.turns := congrArg Visible.turns h
  show SameToHost (step s) (step u)
  cases hu : u.turns with
  | nil =>
    rw [step_nil hu, step_nil (hturns.trans hu)]
    exact takeLastTurn_sameToHost h
  | cons a rest =>
    rw [step_cons hu, step_cons (hturns.trans hu)]
    exact takeTurn_sameToHost (State.visible_turns h rest) a

end Sys2Proof.Machine
end

section
/-! PROOFS of the family 10_state, facts: what `Execute` answers after the checks of R225, and the blocks of a command
as one recursion over the cipher, which gives every mode's command function. -/

namespace Sys2Proof.Machine

/-! ### The checks and `Execute` (R66, R225) -/

theorem execute_of_illegal {cfg : Config} {cmd : Word} {o : Operands} {e : DecodeError}
    (h : decodeWord cmd = .error e) : execute cfg cmd o = .error .illegal := by
  simp only [execute, h]

theorem execute_of_legal {cfg : Config} {cmd : Word} {o : Operands} {i : Instr} (h : decodeWord cmd = .ok i) :
    execute cfg cmd o = runCommand cfg i.mode i.variant o := by
  simp only [execute, h]

/-- A command whose checks fail answers the class of the first failure (R225). -/
theorem runCommand_of_failure {cfg : Config} {m : Mode} {v : Variant} {o : Operands} {c : ErrClass}
    (h : firstFailure cfg m v o = some c) : runCommand cfg m v o = .error c := by
  rw [runCommand_eq]
  unfold firstFailure at h
  unfold withOperands
  by_cases hk : o.keyLen ≠ 4 * v.nk
  · rw [if_pos hk] at h ⊢
    cases h
    rfl
  · rw [if_neg hk] at h ⊢
    by_cases hd : o.dinLen > cfg.bufCap
    · rw [if_pos hd] at h ⊢
      cases h
      rfl
    · rw [if_neg hd] at h ⊢
      cases m
      case cmac => cases h
      all_goals
        simp only [Option.ite_none_right_eq_some, Option.some.injEq] at h
        obtain ⟨hn, rfl⟩ := h
        simp only [commandBody, cmdEncrypt, cmdDecrypt, cmdEcbEncrypt, cmdEcbDecrypt, cmdCbcEncrypt, cmdCbcDecrypt,
          Operands.text_length, if_pos hn]

/-- A command whose checks pass is its command function (R66). -/
theorem runCommand_of_passed {cfg : Config} {m : Mode} {v : Variant} {o : Operands}
    (h : firstFailure cfg m v o = none) : runCommand cfg m v o = commandBody cfg m v o.text (o.key v) o.ivb := by
  obtain ⟨hk, hd, -⟩ := firstFailure_eq_none_iff.1 h
  rw [runCommand_eq, withOperands, if_neg (not_not.2 hk), if_neg (Nat.not_lt.2 hd)]

/-- A command whose checks pass has a block (R153, R154, R173 to R176, R202). -/
theorem blockCount_pos {cfg : Config} {m : Mode} {v : Variant} {o : Operands} (h : firstFailure cfg m v o = none) :
    0 < blockCount m o.text := by
  obtain ⟨-, -, hm⟩ := firstFailure_eq_none_iff.1 h
  cases m <;> simp only [blockCount, TextLengthOk, cmacBlocks, pad_length, Operands.text_length] at hm ⊢ <;> omega

/-! ### The blocks of a command -/

/-- The cipher of a mode, direct or inverse (R150, R151). -/
def blockCipher (m : Mode) (w : List Word) (nr : Nat) (b : Block) : Block :=
  if usesInverse m then invCipher b w nr else cipher b w nr

/-- The output of the blocks j, j+1, ... (n of them), as the block loop of R25 produces it: `f` is the mode's cipher. -/
def outputFrom (m : Mode) (text : List Byte) (f : Block → Block) (k1 k2 : Block) : (n j : Nat) → Block → List Byte
  | 0, _, _ => []
  | n + 1, j, chain =>
    let out := f (blockInput m text j chain k1 k2)
    blockOutput m text j chain out ++ outputFrom m text f k1 k2 n (j + 1) (blockChain m text j chain out)

theorem outputFrom_succ (m : Mode) (text : List Byte) (f : Block → Block) (k1 k2 : Block) (n j : Nat) (chain : Block) :
    outputFrom m text f k1 k2 (n + 1) j chain =
      blockOutput m text j chain (f (blockInput m text j chain k1 k2)) ++
        outputFrom m text f k1 k2 n (j + 1) (blockChain m text j chain (f (blockInput m text j chain k1 k2))) := rfl

/-- The result of a command whose blocks gave an output: STRIP removes the padding where the mode has one (R25). -/
def finalResult (strict : Bool) (m : Mode) (out : List Byte) : Result :=
  if stripsPadding m then unpad strict out else .ok out

/-- CHAIN when the block loop starts (R23). -/
def firstChain (m : Mode) (iv old : Block) : Block :=
  match m with
  | .cbcEncrypt | .cbcDecrypt => iv
  | .cmac => zeroBlock
  | .encrypt | .decrypt | .ecbEncrypt | .ecbDecrypt => old

section

variable (m : Mode) (text : List Byte) (f : Block → Block) (k1 k2 : Block)

/-- A mode that puts each block of a sequence through its cipher by itself maps them (R173, R174). -/
theorem outputFrom_eq_flatMap {q : List Byte}
    (hin : ∀ j chain, blockInput m text j chain k1 k2 = blockAt q j)
    (hout : ∀ j chain out, blockOutput m text j chain out = out.toList) (n j : Nat) (chain : Block) :
    outputFrom m text f k1 k2 n j chain = (List.range' j n).flatMap fun k => (f (blockAt q k)).toList := by
  induction n generalizing j chain with
  | zero => rfl
  | succ n ih => simp only [outputFrom, hin, hout, ih, List.range'_succ, List.flatMap_cons]

theorem outputFrom_ecbEncrypt (n : Nat) (chain : Block) :
    outputFrom .ecbEncrypt text f k1 k2 n 0 chain = mapBlocks f (pad text) n := by
  have hflat := outputFrom_eq_flatMap .ecbEncrypt text f k1 k2 (q := pad text) (fun _ _ => rfl) (fun _ _ _ => rfl) n 0 chain
  rw [hflat, mapBlocks, List.range_eq_range']

theorem outputFrom_ecbDecrypt (n : Nat) (chain : Block) :
    outputFrom .ecbDecrypt text f k1 k2 n 0 chain = mapBlocks f text n := by
  have hflat := outputFrom_eq_flatMap .ecbDecrypt text f k1 k2 (q := text) (fun _ _ => rfl) (fun _ _ _ => rfl) n 0 chain
  rw [hflat, mapBlocks, List.range_eq_range']

end

theorem outputFrom_cbcEncrypt (text : List Byte) (w : List Word) (nr : Nat) (k1 k2 : Block) (n j : Nat)
    (chain : Block) :
    outputFrom .cbcEncrypt text (blockCipher .cbcEncrypt w nr) k1 k2 n j chain =
      cbcEncryptFrom (pad text) w nr n j chain := by
  induction n generalizing j chain with
  | zero => rfl
  | succ n ih =>
    rw [outputFrom, cbcEncryptFrom, ih]
    rfl

theorem outputFrom_cbcDecrypt (text : List Byte) (w : List Word) (nr : Nat) (k1 k2 : Block) (n j : Nat)
    (chain : Block) :
    outputFrom .cbcDecrypt text (blockCipher .cbcDecrypt w nr) k1 k2 n j chain =
      cbcDecryptFrom text w nr n j chain := by
  induction n generalizing j chain with
  | zero => rfl
  | succ n ih =>
    rw [outputFrom, cbcDecryptFrom, ih]
    rfl

/-- `cmac` puts out its last block only, the cipher of the accumulator and the last block (R203, R204). -/
theorem outputFrom_cmac (text : List Byte) (w : List Word) (nr : Nat) (k1 k2 : Block) (n j : Nat) (chain : Block)
    (h : j + n + 1 = cmacBlocks text.length) :
    outputFrom .cmac text (blockCipher .cmac w nr) k1 k2 (n + 1) j chain =
      (cipher (xorBlock (cmacChain text w nr n j chain) (cmacLast text k1 k2)) w nr).toList := by
  induction n generalizing j chain with
  | zero =>
    have hlast : ¬ j + 1 < cmacBlocks text.length := by omega
    simp only [outputFrom, blockInput, blockOutput, if_neg hlast, List.append_nil, cmacChain]
    rfl
  | succ n ih =>
    have hmore : j + 1 < cmacBlocks text.length := by omega
    rw [outputFrom, ih _ _ (by omega)]
    simp only [blockInput, blockOutput, if_pos hmore, List.nil_append, cmacChain]
    rfl

/-- The block loop from its start, with the schedule of the key, gives what the command function answers (R25, R66). -/
theorem finalResult_outputFrom {cfg : Config} {m : Mode} {v : Variant} {text key : List Byte} {iv old k1 k2 : Block}
    (hlen : TextLengthOk cfg m text.length)
    (hk : m = .cmac → (k1, k2) = subkeys (expandKey key v.nk v.nr) v.nr) :
    finalResult cfg.padStrict m (outputFrom m text (blockCipher m (expandKey key v.nk v.nr) v.nr) k1 k2
      (blockCount m text) 0 (firstChain m iv old)) = commandBody cfg m v text key iv := by
  cases m with
  | encrypt =>
    have h16 : text.length = 16 := hlen
    simp only [commandBody, cmdEncrypt, if_neg (not_not.2 h16)]
    exact congrArg Result.ok (List.append_nil _)
  | decrypt =>
    have h16 : text.length = 16 := hlen
    simp only [commandBody, cmdDecrypt, if_neg (not_not.2 h16)]
    exact congrArg Result.ok (List.append_nil _)
  | ecbEncrypt =>
    simp only [commandBody, cmdEcbEncrypt, if_neg (Nat.not_lt.2 hlen), outputFrom_ecbEncrypt]
    rfl
  | cbcEncrypt =>
    simp only [commandBody, cmdCbcEncrypt, if_neg (Nat.not_lt.2 hlen), outputFrom_cbcEncrypt]
    rfl
  | ecbDecrypt =>
    have hpass : ¬ (text.length = 0 ∨ text.length % 16 ≠ 0) := by
      obtain ⟨h0, h16⟩ := hlen
      omega
    simp only [commandBody, cmdEcbDecrypt, if_neg hpass, outputFrom_ecbDecrypt]
    rfl
  | cbcDecrypt =>
    have hpass : ¬ (text.length = 0 ∨ text.length % 16 ≠ 0) := by
      obtain ⟨h0, h16⟩ := hlen
      omega
    simp only [commandBody, cmdCbcDecrypt, if_neg hpass, outputFrom_cbcDecrypt]
    rfl
  | cmac =>
    have hsub := hk rfl
    have hblocks : blockCount .cmac text = (cmacBlocks text.length - 1) + 1 := by
      simp only [blockCount, cmacBlocks]
      omega
    rw [hblocks, outputFrom_cmac _ _ _ _ _ _ _ _ (by simp only [blockCount] at hblocks; omega)]
    simp only [commandBody, cmdCmac, cmac, ← hsub]
    rfl

/-! ### The cipher reads 4(Nr+1) schedule words -/

/-- The words a round reads are among the first 4(Nr+1) (R116, R150, R151). -/
theorem addRoundKey_take (s : Matrix4) (w : List Word) {nr round : Nat} (h : round ≤ nr) :
    addRoundKey s (w.take (4 * (nr + 1))) round = addRoundKey s w round := by
  refine Matrix4.ext_cells fun r c => ?_
  have hc : 4 * round + c.val < 4 * (nr + 1) := by omega
  simp only [addRoundKey, matrixOf_get, List.getD_eq_getElem?_getD, List.getElem?_take_of_lt hc]

theorem cipherRounds_take (s : Matrix4) (w : List Word) {nr n : Nat} (h : n ≤ nr) :
    cipherRounds s (w.take (4 * (nr + 1))) n = cipherRounds s w n := by
  induction n with
  | zero => rfl
  | succ n ih => simp only [cipherRounds, cipherRound, ih (by omega), addRoundKey_take _ _ h]

theorem invCipherRounds_take (s : Matrix4) (w : List Word) {nr n : Nat} (h : n ≤ nr) :
    invCipherRounds s (w.take (4 * (nr + 1))) n = invCipherRounds s w n := by
  induction n generalizing s with
  | zero => rfl
  | succ n ih => simp only [invCipherRounds, invCipherRound, ih _ (by omega), addRoundKey_take _ _ h]

theorem cipher_take (b : Block) (w : List Word) (nr : Nat) :
    cipher b (w.take (4 * (nr + 1))) nr = cipher b w nr := by
  simp only [cipher, cipherFinal, addRoundKey_take _ _ (Nat.zero_le nr), addRoundKey_take _ _ (Nat.le_refl nr),
    cipherRounds_take _ _ (Nat.sub_le nr 1)]

theorem invCipher_take (b : Block) (w : List Word) (nr : Nat) :
    invCipher b (w.take (4 * (nr + 1))) nr = invCipher b w nr := by
  simp only [invCipher, invCipherFinal, addRoundKey_take _ _ (Nat.zero_le nr), addRoundKey_take _ _ (Nat.le_refl nr),
    invCipherRounds_take _ _ (Nat.sub_le nr 1)]

theorem blockCipher_take (m : Mode) (w : List Word) (nr : Nat) :
    blockCipher m (w.take (4 * (nr + 1))) nr = blockCipher m w nr := by
  funext b
  simp only [blockCipher, cipher_take, invCipher_take]

theorem subkeys_take (w : List Word) (nr : Nat) : subkeys (w.take (4 * (nr + 1))) nr = subkeys w nr := by
  simp only [subkeys, cmacL, cipher_take]

end Sys2Proof.Machine
end

section
/-! PROOFS of the family 10_state: the sequencer, step by step through the working registers, reaches `Execute`. -/

namespace Sys2Proof.Machine

/-! ### Runs of the sequencer -/

/-- Some number of steps of the sequencer leads from `s` to `t`. -/
def Reaches (s t : State) : Prop := ∃ n, sequencerSteps n s = t

theorem Reaches.refl (s : State) : Reaches s s := ⟨0, rfl⟩

theorem Reaches.step {s t : State} (h : sequencerStep s = t) : Reaches s t := ⟨1, h⟩

theorem sequencerSteps_add (a b : Nat) (s : State) :
    sequencerSteps (a + b) s = sequencerSteps b (sequencerSteps a s) := by
  induction a generalizing s with
  | zero => rw [Nat.zero_add]; rfl
  | succ a ih => rw [Nat.succ_add]; exact ih _

theorem Reaches.trans {s t u : State} (h : Reaches s t) (h' : Reaches t u) : Reaches s u := by
  obtain ⟨a, rfl⟩ := h
  obtain ⟨b, rfl⟩ := h'
  exact ⟨a + b, sequencerSteps_add a b s⟩

/-- The sequencer reaches the result `r` from `s`. -/
def Settles (s : State) (r : Result) : Prop := ∃ n, (sequencerSteps n s).settled = some r

theorem Settles.now {s : State} {r : Result} (h : s.settled = some r) : Settles s r := ⟨0, h⟩

theorem Reaches.settles {s t : State} {r : Result} (h : Reaches s t) (ht : Settles t r) : Settles s r := by
  obtain ⟨a, rfl⟩ := h
  obtain ⟨b, hb⟩ := ht
  exact ⟨a + b, by rwa [sequencerSteps_add]⟩

/-- The command `i` is in CMD, the sequencer is in the phase `p` and has no result yet. -/
structure State.Running (s : State) (i : Instr) (p : Phase) : Prop where
  decodes : decodeWord s.cmd = .ok i
  unsettled : s.settled = none
  phase : s.phase = p

section

variable {s : State} {i : Instr}

theorem sequencerStep_of_check (hs : s.settled = none) (hp : s.phase = .check) : sequencerStep s = seqCheck s := by
  simp only [sequencerStep, hs, hp]

theorem sequencerStep_of_expand (h : s.Running i .expand) : sequencerStep s = seqExpand s i.mode i.variant := by
  simp only [sequencerStep, h.unsettled, h.phase, h.decodes]

theorem sequencerStep_of_subkeys (h : s.Running i .subkeys) : sequencerStep s = seqSubkeys s i.mode i.variant := by
  simp only [sequencerStep, h.unsettled, h.phase, h.decodes]

theorem sequencerStep_of_blocks (h : s.Running i .blocks) : sequencerStep s = seqBlocks s i.mode i.variant := by
  simp only [sequencerStep, h.unsettled, h.phase, h.decodes]

theorem sequencerStep_of_strip (h : s.Running i .strip) :
    sequencerStep s = settle s (unpad s.cfg.padStrict s.staged) := by
  simp only [sequencerStep, h.unsettled, h.phase, h.decodes]

end

/-! ### One block: its rounds (R150, R151) -/

/-- The state in BLOCKS before the first round of the block BLK (R25). -/
structure State.AtBlock (s : State) (i : Instr) : Prop where
  running : s.Running i .blocks
  round : s.work.rnd = firstRound i.mode i.variant

/-- The input of the cipher for the block in progress. -/
def State.cipherInput (s : State) (m : Mode) : Block :=
  blockInput m s.operands.text s.work.blk s.work.chain s.work.k1 s.work.k2

section

variable {s : State} {m : Mode} (v : Variant)

theorem seqBlocks_first_cipher (hm : usesInverse m = false) (hr : s.work.rnd = 0) :
    seqBlocks s m v = withRound s (addRoundKey (toState (s.cipherInput m)) s.work.w.toList 0) 1 := by
  simp only [seqBlocks, hm, hr, if_true, Bool.false_eq_true, if_false]
  rfl

theorem seqBlocks_round_cipher (hm : usesInverse m = false) (y : Matrix4) {r : Nat} (h0 : 0 < r) (hr : r < v.nr) :
    seqBlocks (withRound s y r) m v = withRound s (cipherRound y s.work.w.toList r) (r + 1) := by
  simp only [seqBlocks, hm, withRound_rnd, Nat.ne_of_gt h0, hr, Bool.false_eq_true, if_true, if_false]
  rfl

theorem seqBlocks_last_cipher (hm : usesInverse m = false) (y : Matrix4) : seqBlocks (withRound s y v.nr) m v =
    finishBlock (withRound s y v.nr) m v (cipherFinal y s.work.w.toList v.nr) := by
  simp only [seqBlocks, hm, withRound_rnd, Nat.ne_of_gt (nr_pos v), Nat.lt_irrefl, Bool.false_eq_true,
    if_false]
  rfl

theorem seqBlocks_first_inverse (hm : usesInverse m = true) (hr : s.work.rnd = v.nr) : seqBlocks s m v =
    withRound s (addRoundKey (toState (s.cipherInput m)) s.work.w.toList v.nr) (v.nr - 1) := by
  simp only [seqBlocks, hm, hr, if_true]
  rfl

theorem seqBlocks_round_inverse (hm : usesInverse m = true) (y : Matrix4) {r : Nat} (h0 : 0 < r) (hr : r < v.nr) :
    seqBlocks (withRound s y r) m v = withRound s (invCipherRound y s.work.w.toList r) (r - 1) := by
  simp only [seqBlocks, hm, withRound_rnd, Nat.ne_of_lt hr, h0, if_true, if_false]
  rfl

theorem seqBlocks_last_inverse (hm : usesInverse m = true) (y : Matrix4) : seqBlocks (withRound s y 0) m v =
    finishBlock (withRound s y 0) m v (invCipherFinal y s.work.w.toList 0) := by
  simp only [seqBlocks, hm, withRound_rnd, Nat.ne_of_lt (nr_pos v), Nat.lt_irrefl, if_true, if_false]
  rfl

end

section

variable {s : State} {i : Instr} (h : s.Running i .blocks)

include h

theorem State.Running.withRound (y : Matrix4) (r : Nat) : (withRound s y r).Running i .blocks :=
  ⟨h.decodes, h.unsettled, h.phase⟩

/-- Rounds 1 to n of the cipher, one step each (R150). -/
theorem cipherRounds_reaches (hm : usesInverse i.mode = false) (y : Matrix4) {n : Nat} (hn : n < i.variant.nr) :
    Reaches (withRound s y 1) (withRound s (cipherRounds y s.work.w.toList n) (n + 1)) := by
  induction n with
  | zero => exact Reaches.refl _
  | succ n ih =>
    refine (ih (by omega)).trans (Reaches.step ?_)
    rw [sequencerStep_of_blocks (h.withRound _ _), seqBlocks_round_cipher _ hm _ (Nat.succ_pos n) hn]
    rfl

/-- Rounds n down to 1 of the inverse cipher, one step each (R151). -/
theorem invCipherRounds_reaches (hm : usesInverse i.mode = true) (y : Matrix4) {n : Nat} (hn : n < i.variant.nr) :
    Reaches (withRound s y n) (withRound s (invCipherRounds y s.work.w.toList n) 0) := by
  induction n generalizing y with
  | zero => exact Reaches.refl _
  | succ n ih =>
    refine (Reaches.step ?_).trans (ih _ (by omega))
    rw [sequencerStep_of_blocks (h.withRound _ _), seqBlocks_round_inverse _ hm _ (Nat.succ_pos n) hn]
    rfl

end

/-- The rounds of a block end it with the mode's cipher of its input (R25, R150, R151). -/
theorem State.AtBlock.reaches_finish {s : State} {i : Instr} (h : s.AtBlock i) : ∃ y r last,
    Reaches s (finishBlock (withRound s y r) i.mode i.variant last) ∧
      fromState last = blockCipher i.mode s.work.w.toList i.variant.nr (s.cipherInput i.mode) := by
  obtain ⟨hrun, hround⟩ := h
  have hpos := nr_pos i.variant
  cases hm : usesInverse i.mode with
  | false =>
    have hfirst := Reaches.step ((sequencerStep_of_blocks hrun).trans
      (seqBlocks_first_cipher i.variant hm (by simpa [firstRound, hm] using hround)))
    have hrounds := cipherRounds_reaches hrun hm
      (addRoundKey (toState (s.cipherInput i.mode)) s.work.w.toList 0) (n := i.variant.nr - 1) (by omega)
    rw [Nat.sub_add_cancel hpos] at hrounds
    have hlast (y : Matrix4) := Reaches.step ((sequencerStep_of_blocks (hrun.withRound y _)).trans
      (seqBlocks_last_cipher i.variant hm y))
    exact ⟨_, _, _, hfirst.trans (hrounds.trans (hlast _)), by simp only [blockCipher, hm]; rfl⟩
  | true =>
    have hfirst := Reaches.step ((sequencerStep_of_blocks hrun).trans
      (seqBlocks_first_inverse i.variant hm (by simpa [firstRound, hm] using hround)))
    have hrounds := invCipherRounds_reaches hrun hm
      (addRoundKey (toState (s.cipherInput i.mode)) s.work.w.toList i.variant.nr) (n := i.variant.nr - 1) (by omega)
    have hlast (y : Matrix4) := Reaches.step ((sequencerStep_of_blocks (hrun.withRound y _)).trans
      (seqBlocks_last_inverse i.variant hm y))
    exact ⟨_, _, _, hfirst.trans (hrounds.trans (hlast _)), by simp only [blockCipher, hm]; rfl⟩

/-! ### The block loop (R25) -/

/-- From block BLK, with n + 1 blocks left, the loop and the padding removal reach the final result (R25). -/
theorem blocks_settles {i : Instr} (n : Nat) {s : State} (h : s.AtBlock i)
    (hn : s.work.blk + n + 1 = blockCount i.mode s.operands.text) :
    Settles s (finalResult s.cfg.padStrict i.mode (s.staged ++ outputFrom i.mode s.operands.text
      (blockCipher i.mode s.work.w.toList i.variant.nr) s.work.k1 s.work.k2 (n + 1) s.work.blk s.work.chain)) := by
  induction n generalizing s with
  | zero =>
    obtain ⟨y, r, last, hreach, hlast⟩ := h.reaches_finish
    have hdone : ¬ (withRound s y r).work.blk + 1 < blockCount i.mode (withRound s y r).operands.text :=
      (Nat.le_of_eq hn.symm).not_gt
    refine hreach.settles ?_
    rw [State.cipherInput] at hlast
    rw [outputFrom_succ, ← hlast, outputFrom, List.append_nil]
    cases hm : stripsPadding i.mode with
    | true =>
      rw [finishBlock_of_strip _ _ hdone hm]
      have hstrip : State.Running { storeBlock (withRound s y r) i.mode last with phase := .strip } i .strip :=
        ⟨h.running.decodes, h.running.unsettled, rfl⟩
      refine (Reaches.step (sequencerStep_of_strip hstrip)).settles (Settles.now ?_)
      rw [settle_settled, finalResult, if_pos hm]
      rfl
    | false =>
      rw [finishBlock_of_last _ _ hdone hm]
      refine Settles.now ?_
      rw [settle_settled, finalResult, hm]
      rfl
  | succ n ih =>
    obtain ⟨y, r, last, hreach, hlast⟩ := h.reaches_finish
    have hmore : (withRound s y r).work.blk + 1 < blockCount i.mode (withRound s y r).operands.text :=
      hn ▸ (by omega : s.work.blk + 1 < s.work.blk + (n + 1) + 1)
    refine hreach.settles ?_
    rw [State.cipherInput] at hlast
    rw [outputFrom_succ, ← hlast, ← List.append_assoc, finishBlock_of_more _ _ hmore]
    have hn' : s.work.blk + 1 + n + 1 = blockCount i.mode s.operands.text := by omega
    exact ih (s := nextBlock (storeBlock (withRound s y r) i.mode last) i.mode i.variant)
      ⟨⟨h.running.decodes, h.running.unsettled, h.running.phase⟩, rfl⟩ hn'

/-! ### The key schedule (R25, R132) -/

/-- A schedule word is derived from the words before it (R132, R133). -/
theorem scheduleWord_take {nk i : Nat} (hnk : 0 < nk) (hi : 0 < i) (w : List Word) :
    scheduleWord nk (w.take i) i = scheduleWord nk w i := by
  simp only [scheduleWord, List.getD_eq_getElem?_getD, List.getElem?_take_of_lt (Nat.sub_lt hi hnk),
    List.getElem?_take_of_lt (Nat.sub_lt hi Nat.one_pos)]

/-- Storing a word extends the part of W that is derived by one word (R133). -/
theorem storeWord_take {s : State} {v : Variant} (hlo : v.nk ≤ s.work.ki) (hhi : s.work.ki < 60) :
    (storeWord s v).work.w.toList.take (s.work.ki + 1) =
      extendSchedule v.nk (s.work.w.toList.take s.work.ki) 1 := by
  have hlen : s.work.ki < s.work.w.toList.length := by simpa using hhi
  have hmin : (s.work.w.toList.take s.work.ki).length = s.work.ki := by simpa using hlen.le
  have hset : (storeWord s v).work.w.toList =
      s.work.w.toList.set s.work.ki (scheduleWord v.nk s.work.w.toList s.work.ki) := by
    simp only [storeWord, Vector.toList_setIfInBounds]
  rw [hset, extendSchedule, extendSchedule, hmin, scheduleWord_take (nk_pos v) ((nk_pos v).trans_le hlo),
    List.take_add_one, List.take_set_of_le (Nat.le_refl _), List.getElem?_set_self hlen]
  rfl

/-- From KI, with n + 1 words left, EXPAND derives the rest of the schedule and is left (R132). -/
theorem expand_settles {i : Instr} {r : Result} (n : Nat) {s : State} (h : s.Running i .expand)
    (hlo : i.variant.nk ≤ s.work.ki) (hn : s.work.ki + n + 1 = i.variant.scheduleWords)
    (hnext : ∀ t : State, t.visible = s.visible → t.settled = none →
      t.work.w.toList.take i.variant.scheduleWords =
        extendSchedule i.variant.nk (s.work.w.toList.take s.work.ki) (n + 1) →
      Settles (leaveExpand t i.mode i.variant) r) : Settles s r := by
  have hmax := scheduleWords_le i.variant
  induction n generalizing s with
  | zero =>
    have htake := storeWord_take hlo (by omega)
    rw [hn] at htake
    refine (Reaches.step ((sequencerStep_of_expand h).trans (seqExpand_eq ..))).settles ?_
    rw [if_neg (by omega)]
    exact hnext _ rfl h.unsettled htake
  | succ n ih =>
    have htake := storeWord_take hlo (by omega)
    refine (Reaches.step ((sequencerStep_of_expand h).trans (seqExpand_eq ..))).settles ?_
    rw [if_pos (by omega)]
    have hn' : s.work.ki + 1 + n + 1 = i.variant.scheduleWords := by omega
    refine ih (s := nextWord (storeWord s i.variant)) ⟨h.decodes, h.unsettled, h.phase⟩ (Nat.le_succ_of_le hlo) hn'
      fun t hv hs hw => hnext t hv hs (hw.trans ?_)
    exact congrArg (extendSchedule i.variant.nk · (n + 1)) htake

/-- CHECK leaves the key's words in the first Nk words of W (R21). -/
theorem enterExpand_take (s : State) (v : Variant) :
    (enterExpand s v).work.w.toList.take v.nk = keyWords (s.operands.key v) v.nk := by
  have hnk := nk_le v
  refine List.ext_getElem (by simp; omega) fun k hk hk' => ?_
  simp only [keyWords_length] at hk'
  simp [enterExpand, List.getD_eq_getElem?_getD, hk']

/-! ### From CHECK to the result -/

theorem enterBlocks_chain (s : State) (m : Mode) (v : Variant) :
    (enterBlocks s m v).work.chain = firstChain m s.operands.ivb s.work.chain := by cases m <;> rfl

section

variable {s : State} {i : Instr} (hd : decodeWord s.cmd = .ok i) (hs : s.settled = none)
  (hf : firstFailure s.cfg i.mode i.variant s.operands = none)
  (hw : s.work.w.toList.take i.variant.scheduleWords =
    expandKey (s.operands.key i.variant) i.variant.nk i.variant.nr)

include hd hs hf hw

/-- With the schedule and, in `cmac`, the subkeys ready, the block loop reaches what the command answers (R25). -/
theorem enterBlocks_settles
    (hk : i.mode = .cmac → (s.work.k1, s.work.k2) = subkeys s.work.w.toList i.variant.nr) :
    Settles (enterBlocks s i.mode i.variant) (runCommand s.cfg i.mode i.variant s.operands) := by
  have hcount : blockCount i.mode s.operands.text - 1 + 1 = blockCount i.mode s.operands.text :=
    Nat.sub_add_cancel (blockCount_pos hf)
  have hlen : TextLengthOk s.cfg i.mode s.operands.text.length := by
    simpa using (firstFailure_eq_none_iff.1 hf).2.2
  have hblocks := blocks_settles (blockCount i.mode s.operands.text - 1) (s := enterBlocks s i.mode i.variant)
    ⟨⟨hd, hs, rfl⟩, rfl⟩ (by show 0 + _ + 1 = blockCount i.mode s.operands.text; omega)
  rw [hcount, enterBlocks_chain, ← blockCipher_take] at hblocks
  rw [runCommand_of_passed hf, ← finalResult_outputFrom hlen (old := s.work.chain) fun hm => ?_]
  · rw [← hw]
    exact hblocks
  · rw [← hw]
    exact (hk hm).trans (subkeys_take _ _).symm

theorem leaveExpand_settles :
    Settles (leaveExpand s i.mode i.variant) (runCommand s.cfg i.mode i.variant s.operands) := by
  unfold leaveExpand
  split
  · have hrun : State.Running { s with phase := .subkeys } i .subkeys := ⟨hd, hs, rfl⟩
    refine (Reaches.step ((sequencerStep_of_subkeys hrun).trans (seqSubkeys_eq ..))).settles ?_
    exact enterBlocks_settles (s := storeSubkeys { s with phase := .subkeys } i.variant) hd hs hf
      (by rwa [storeSubkeys_w]) fun _ => storeSubkeys_subkeys _ _
  · exact enterBlocks_settles hd hs hf hw fun hm => absurd hm ‹_›

end

/-- From the entry of EXPAND the sequencer reaches what the command answers (R25). -/
theorem enterExpand_settles {s : State} {i : Instr} (hd : decodeWord s.cmd = .ok i) (hs : s.settled = none)
    (hf : firstFailure s.cfg i.mode i.variant s.operands = none) :
    Settles (enterExpand s i.variant) (runCommand s.cfg i.mode i.variant s.operands) := by
  have hwords : i.variant.nk + (i.variant.scheduleWords - i.variant.nk - 1) + 1 = i.variant.scheduleWords := by
    cases i.variant <;> rfl
  have hrest : i.variant.scheduleWords - i.variant.nk - 1 + 1 = 4 * (i.variant.nr + 1) - i.variant.nk := by
    cases i.variant <;> rfl
  refine expand_settles (i.variant.scheduleWords - i.variant.nk - 1) ⟨hd, hs, enterExpand_phase ..⟩ (Nat.le_refl _)
    hwords fun t hv ht hw => ?_
  rw [enterExpand_ki, enterExpand_take, hrest] at hw
  rw [enterExpand_visible] at hv
  have hcfg : t.cfg = s.cfg := congrArg Visible.cfg hv
  have hcmd : t.cmd = s.cmd := congrArg Visible.cmd hv
  have hops : t.operands = s.operands := State.operands_of_visible hv
  rw [← hcfg, ← hops] at hf ⊢
  rw [← hops] at hw
  exact leaveExpand_settles (hcmd ▸ hd) ht hf hw

/-- Settles O37, phase by phase from the end: each phase hands the next one the registers it needs. -/
theorem theSequencerReachesExecute : Obligations.TheSequencerReachesExecute := by
  unfold Obligations.TheSequencerReachesExecute
  intro s hp hs
  show Settles s (execute s.cfg s.cmd s.operands)
  refine (Reaches.step (sequencerStep_of_check hs hp)).settles ?_
  cases hd : decodeWord s.cmd with
  | error e =>
    rw [seqCheck_of_illegal hd, execute_of_illegal hd]
    exact Settles.now rfl
  | ok i =>
    rw [execute_of_legal hd]
    cases hf : firstFailure s.cfg i.mode i.variant s.operands with
    | some c =>
      rw [seqCheck_of_failure hd hf, runCommand_of_failure hf]
      exact Settles.now rfl
    | none =>
      rw [seqCheck_of_passed hd hf]
      exact enterExpand_settles hd hs hf

end Sys2Proof.Machine
end

section
/-! PROOFS of the family 20_memory, facts: the bytes of a word as a number, which registers an offset finds, what an
access, a busy core's turn and an idle core's turn do. -/

namespace Sys2Proof.Machine

/-! ### Words and bytes (R45) -/

/-- A byte put below a bit vector is a digit to base 256. -/
theorem toNat_append_byte {w : Nat} (x : BitVec w) (b : Byte) : (x ++ b).toNat = x.toNat * 2 ^ 8 + b.toNat := by
  rw [BitVec.toNat_append, ← Nat.shiftLeft_add_eq_or_of_lt b.isLt, Nat.shiftLeft_eq]

theorem be32_toNat (b0 b1 b2 b3 : Byte) : (be32 b0 b1 b2 b3).toNat =
    b0.toNat * 2 ^ 24 + b1.toNat * 2 ^ 16 + b2.toNat * 2 ^ 8 + b3.toNat := by
  unfold be32
  rw [toNat_append_byte, toNat_append_byte, toNat_append_byte]
  omega

/-! ### The map of REG (R41) -/

/-- At an unmapped offset stands no register (R41, R47). -/
theorem regAt_of_unmapped {cap o : Nat} (hc : cap ≤ 65536) (ho : o % 4 = 0) (h : Unmapped cap o) :
    regAt cap o = .unmapped := by
  have hs := regAt_standsAt cap ho
  unfold Unmapped at h
  cases hr : regAt cap o with
  | unmapped => rfl
  | _ =>
    rw [hr] at hs
    simp only [Reg.StandsAt] at hs
    omega

/-- At a read-only offset stands a register the host cannot write (R41, R47). -/
theorem regAt_not_isWritable_of_readOnly {cap o : Nat} (hc : cap ≤ 65536) (ho : o % 4 = 0) (h : ReadOnly cap o) :
    ¬ (regAt cap o).IsWritable := by
  obtain rfl | rfl | rfl | ⟨hlo, hhi⟩ := h
  · exact not_false
  · exact not_false
  · exact not_false
  · obtain ⟨k, rfl⟩ : ∃ k, o = 0x20000 + 4 * k := ⟨(o - 0x20000) / 4, by omega⟩
    rw [regAt_dout hc (by omega)]
    exact not_false

/-- From 0x20000 on there are words of DOUT and unmapped places only (R41). -/
theorem regAt_of_ge_dout {cap o : Nat} (hc : cap ≤ 65536) (ho : o % 4 = 0) (h : 0x20000 ≤ o) :
    (∃ k, regAt cap o = .dout k) ∨ regAt cap o = .unmapped := by
  have hs := regAt_standsAt cap ho
  cases hr : regAt cap o with
  | dout k => exact .inl ⟨k, rfl⟩
  | unmapped => exact .inr rfl
  | _ =>
    rw [hr] at hs
    simp only [Reg.StandsAt] at hs
    omega

/-! ### Accesses (R40, R46 to R48, R53) -/

/-- Of the writes of an idle core those to other than writable registers are ignored (R47). -/
theorem writeReg_of_not_isWritable (s : State) {r : Reg} (h : ¬ r.IsWritable) (v : Word) : writeReg s r v = s := by
  cases r with
  | status | doutLen | cap | dout k | unmapped => rfl
  | cmd | keyLen | dinLen | key k | iv k | din k => exact absurd trivial h

/-- A write to where no writable register stands is ignored, idle or busy (R47, R53). -/
theorem hostWrite_of_not_isWritable {s : State} {o : Nat} (h : ¬ (regAt s.cfg.bufCap o).IsWritable) (v : Word) :
    hostWrite s o v = s := by
  cases hb : s.busy with
  | true => exact hostWrite_of_busy hb o v
  | false => rw [hostWrite_of_idle hb, writeReg_of_not_isWritable s h]

/-- Only a write to CMD changes STATUS (R47, R51). -/
theorem hostWrite_status {s : State} {o : Nat} (ho : o % 4 = 0) (h : o ≠ 0x00000) (v : Word) :
    (hostWrite s o v).status = s.status := by
  cases hb : s.busy with
  | true => rw [hostWrite_of_busy hb]
  | false => rw [hostWrite_of_idle hb, writeReg_status (mt (regAt_eq_cmd_iff _ ho).1 h)]

/-- A write of an idle core to another offset than CMD leaves what every other offset reads (R48). -/
theorem hostRead_writeReg_ne {s : State} (hd : s.din.wf) {o p : Nat} (ho : o % 4 = 0) (hp : p % 4 = 0)
    (hcmd : o ≠ 0x00000) (hne : p ≠ o) (v : Word) :
    hostRead (writeReg s (regAt s.cfg.bufCap o) v) p = hostRead s p := by
  rw [hostRead, hostRead, writeReg_cfg]
  by_cases hreg : regAt s.cfg.bufCap p = regAt s.cfg.bufCap o
  · have hun : regAt s.cfg.bufCap o = .unmapped := by
      by_contra hmapped
      exact hne (regAt_inj hp ho hreg (hreg ▸ hmapped))
    rw [hun]
    rfl
  · exact readReg_writeReg_ne hd (mt (regAt_eq_cmd_iff _ ho).1 hcmd) hreg v

theorem checkAccess_of_width {o w : Nat} (h : w ≠ 4) (go : Host.Outcome State Fault Refusal) :
    checkAccess o w go = .refused (.accessWidth w) := if_pos h

theorem checkAccess_of_misaligned {o : Nat} (h : o % 4 ≠ 0) (go : Host.Outcome State Fault Refusal) :
    checkAccess o 4 go = .refused (.misaligned o) := by
  rw [checkAccess, if_neg (not_not.2 rfl), if_pos h]

theorem checkAccess_of_outside {o : Nat} (ha : o % 4 = 0) (h : 0x30000 ≤ o)
    (go : Host.Outcome State Fault Refusal) : checkAccess o 4 go = .fault (.outsideReg o) := by
  rw [checkAccess, if_neg (not_not.2 rfl), if_neg (not_not.2 ha)]
  exact if_pos h

/-- Reads and writes pass the same check, and past it they answer a next state (R46). -/
theorem access_eq_checkAccess (s : State) {a : Access} {o w : Nat} {v : Word}
    (h : a = .read o w ∨ a = .write o w v) : ∃ t, access s a = checkAccess o w (.next t) := by
  obtain rfl | rfl := h
  · exact ⟨_, rfl⟩
  · exact ⟨_, rfl⟩

/-! ### Turns of a busy core (R50, R52, R53) -/

/-- When the next turn is the core's, or there is none left, a busy core completes (R52). -/
theorem step_completes {s : State} (hb : s.busy = true) (ht : s.turns = [] ∨ s.turns.head? = some .core) :
    step s = completeCommand { s with turns := s.turns.tail } := by
  obtain hnil | hcore := ht
  · have hsame : ({ s with turns := s.turns.tail } : State) = s := by
      rw [hnil]
      exact congrArg (fun l => ({ s with turns := l } : State)) hnil.symm
    rw [hsame, step_nil_busy hnil hb]
  · obtain ⟨rest, hrest⟩ := List.head?_eq_some_iff.1 hcore
    rw [step_core_busy hrest hb, hrest]
    rfl

theorem completeCommand_of_legal {s : State} {i : Instr} (h : decodeWord s.cmd = .ok i) :
    completeCommand s = exec i s := by
  simp only [completeCommand, h]

/-- A turn of a busy core that neither completes the command nor resets shows the host nothing but what its reads
return (R50, R53). -/
theorem step_busy_visible {s : State} {a : Turn} {rest : List Turn} (hb : s.busy = true) (ht : s.turns = a :: rest)
    (hl : a.legal = true) (hcore : a ≠ .core) (hreset : a ≠ .reset) :
    ∃ t, step s = .next t ∧ t.visible = { s.visible with turns := rest, replies := t.replies } := by
  cases a with
  | core => exact absurd rfl hcore
  | reset => exact absurd rfl hreset
  | host a =>
    obtain ⟨o, ho, rfl⟩ | ⟨o, v, ho, rfl⟩ := legal_host hl
    · exact ⟨_, step_read ho ht, rfl⟩
    · exact ⟨_, step_write_busy ho hb ht, rfl⟩
  | advance =>
    have hv := sequencerStep_visible { s with turns := rest }
    refine ⟨_, step_advance_busy ht hb, hv.trans ?_⟩
    rw [show (sequencerStep { s with turns := rest }).replies = s.replies from congrArg Visible.replies hv]
    rfl

/-- STATUS at the completion with a result (R52). -/
def Result.status : Result → Word
  | .ok _ => statusDone
  | .error c => statusError c

/-- A core has completed its command: it is idle, DONE is set, CMD and the operands are those of the state it started
from, and STATUS is that of `Execute` of them (R52). -/
structure State.CompletedFrom (s t : State) : Prop where
  idle : t.busy = false
  phase : t.phase = .idle
  done : t.done = true
  cmd : t.cmd = s.cmd
  operands : t.operands = s.operands
  status : t.status = (execute s.cfg s.cmd s.operands).status

theorem statusDone_not_busy : statusDone.getLsbD 0 = false := by decide

theorem statusDone_done : statusDone.getLsbD 1 = true := by decide

theorem completeCommand_completedFrom (s : State) : ∃ t, completeCommand s = .next t ∧ s.CompletedFrom t := by
  rw [completeCommand_eq]
  cases hr : execute s.cfg s.cmd s.operands with
  | ok out =>
    exact ⟨_, complete_ok s out, statusDone_not_busy, rfl, statusDone_done, rfl, rfl,
      (congrArg Result.status hr).symm⟩
  | error c =>
    exact ⟨_, complete_error s c, statusError_not_busy c, rfl, statusError_done c, rfl, rfl,
      (congrArg Result.status hr).symm⟩

/-- What completes a state completes any state with the same parameters, command and operands. -/
theorem State.CompletedFrom.congr {s u t : State} (h : u.CompletedFrom t) (hcfg : u.cfg = s.cfg)
    (hcmd : u.cmd = s.cmd) (hops : u.operands = s.operands) : s.CompletedFrom t where
  idle := h.idle
  phase := h.phase
  done := h.done
  cmd := h.cmd.trans hcmd
  operands := h.operands.trans hops
  status := by rw [h.status, hcfg, hcmd, hops]

theorem run_one {s t : State} (h : step s = .next t) : Host.Core.run Sys2Proof.core 1 s = .next t :=
  (run_succ_next 0 h).trans (run_zero t)

theorem run_completes {s : State} (hb : s.busy = true) (ht : s.turns = [] ∨ s.turns.head? = some .core) :
    ∃ t, Host.Core.run Sys2Proof.core 1 s = .next t ∧ s.CompletedFrom t := by
  obtain ⟨t, hc, hdone⟩ := completeCommand_completedFrom { s with turns := s.turns.tail }
  exact ⟨t, run_one ((step_completes hb ht).trans hc), hdone.congr rfl rfl rfl⟩

/-- A run of a busy core ends the command: it completes, or a RESET of the schedule abandons it (R52, R260). -/
theorem run_ends_command (turns : List Turn) {s : State} (hb : s.busy = true) (ht : s.turns = turns)
    (hl : ∀ a ∈ turns, a.legal = true) :
    ∃ n t, n ≤ turns.length + 1 ∧ Host.Core.run Sys2Proof.core n s = .next t ∧
      (s.CompletedFrom t ∨ .reset ∈ turns ∧ ∃ u, t = resetEvent u) := by
  induction turns generalizing s with
  | nil =>
    obtain ⟨t, hrun, hdone⟩ := run_completes hb (.inl ht)
    exact ⟨1, t, Nat.le_add_left .., hrun, .inl hdone⟩
  | cons a rest ih =>
    obtain ⟨ha, hrest⟩ := List.forall_mem_cons.1 hl
    by_cases hcore : a = .core
    · obtain ⟨t, hrun, hdone⟩ := run_completes hb (.inr (by rw [ht, hcore]; rfl))
      exact ⟨1, t, Nat.le_add_left .., hrun, .inl hdone⟩
    by_cases hreset : a = .reset
    · subst hreset
      exact ⟨1, _, Nat.le_add_left .., run_one (step_reset ht), .inr ⟨List.mem_cons_self, _, rfl⟩⟩
    obtain ⟨u, hs, hv⟩ := step_busy_visible hb ht ha hcore hreset
    have hv : u.visible = State.visible { s with turns := rest, replies := u.replies } := hv
    obtain ⟨n, t, hn, hrun, hend⟩ := ih ((State.busy_of_visible hv).trans hb) (congrArg Visible.turns hv) hrest
    refine ⟨n + 1, t, Nat.succ_le_succ hn, (run_succ_next n hs).trans hrun, ?_⟩
    exact hend.imp
      (fun h => h.congr (congrArg Visible.cfg hv) (congrArg Visible.cmd hv) ((State.operands_of_visible hv).trans rfl))
      fun ⟨hmem, hu⟩ => ⟨List.mem_cons_of_mem a hmem, hu⟩

/-! ### Turns of an idle core (R52, R234) -/

theorem step_idle_core {s : State} {a : Turn} {rest : List Turn} (hb : s.busy = false)
    (ha : a = .core ∨ a = .advance) (ht : s.turns = a :: rest) : step s = .next { s with turns := rest } := by
  obtain rfl | rfl := ha
  · exact step_core_idle ht hb
  · exact step_advance_idle ht hb

/-- Turns of an idle core and of its sequencer, in any mix and number, only use up the schedule. -/
theorem run_idle_core (n : Nat) {s : State} (hb : s.busy = false)
    (h : ∀ a ∈ s.turns.take n, a = .core ∨ a = .advance) :
    Host.Core.run Sys2Proof.core n s = .next { s with turns := s.turns.drop n } := by
  induction n generalizing s with
  | zero => rfl
  | succ n ih =>
    cases ht : s.turns with
    | nil =>
      rw [run_succ_next n (step_nil_idle ht hb), ih hb (by rw [ht]; simp), ht, List.drop_nil, List.drop_nil]
    | cons a rest =>
      rw [ht, List.take_succ_cons] at h
      rw [run_succ_next n (step_idle_core hb (h a (List.mem_cons_self ..)) ht)]
      exact ih (s := { s with turns := rest }) hb fun b hmem => h b (List.mem_cons_of_mem _ hmem)

end Sys2Proof.Machine
end

section
/-! PROOFS of the family 20_memory: the map of REG and its accesses, the start, the completion and the abandonment of a
command, and the order of bytes in words and of words in the state. -/

namespace Sys2Proof.Machine

/-! ### The order of bytes (R43 to R45) -/

/-- Settles O40: byte `i` stands at row `i mod 4` and column `i div 4`, and `4(i div 4) + i mod 4` is `i`. -/
theorem blocksLoadTheStateColumnByColumn : Obligations.BlocksLoadTheStateColumnByColumn := by
  unfold Obligations.BlocksLoadTheStateColumnByColumn
  refine ⟨fun b i => ?_, fun s i => ?_, fromState_toState⟩
  · simp only [toState, matrixOf, Vector.getElem_ofFn, Nat.div_add_mod, Fin.getElem_fin]
  · simp only [fromState, Fin.getElem_fin, Vector.getElem_ofFn]

/-- Settles O41. -/
theorem wordsAndBytesConvertBigEndian : Obligations.WordsAndBytesConvertBigEndian := by
  unfold Obligations.WordsAndBytesConvertBigEndian
  exact ⟨be32_toNat, fun _ => rfl, wordBytes_be32, fun _ _ _ r c => matrixOf_get _ r c⟩

/-! ### The map of REG and its accesses (R40 to R42, R46 to R48) -/

/-- Settles O11: the map finds the register at the offset, and the read is the register. -/
theorem everyRegisterIsReadAtItsOffset : Obligations.EveryRegisterIsReadAtItsOffset := by
  unfold Obligations.EveryRegisterIsReadAtItsOffset
  intro s hc
  have hmax := ((Config.wf_iff s.cfg).1 hc).2.2
  refine ⟨rfl, rfl, rfl, rfl, rfl, ?_, fun k => ?_, fun k => ?_, fun k hk => ?_, fun k hk => ?_⟩
  · exact (BitVec.toNat_ofNat ..).trans (Nat.mod_eq_of_lt (by omega))
  · rw [hostRead, regAt_key]
    rfl
  · rw [hostRead, regAt_iv]
    rfl
  · rw [hostRead, regAt_din hk]
    rfl
  · rw [hostRead, regAt_dout hmax hk]
    rfl

/-- Settles O12: both kinds of access pass the one check. -/
theorem onlyAlignedWordAccessesInsideRegAreDefined : Obligations.OnlyAlignedWordAccessesInsideRegAreDefined := by
  unfold Obligations.OnlyAlignedWordAccessesInsideRegAreDefined
  intro s offset width v a ha
  obtain ⟨t, hcheck⟩ := access_eq_checkAccess s ha
  rw [hcheck]
  split_ifs with hwidth halign hout
  · exact checkAccess_of_width hwidth _
  · obtain rfl := not_not.1 hwidth
    exact checkAccess_of_misaligned halign _
  · obtain rfl := not_not.1 hwidth
    exact checkAccess_of_outside (not_not.1 halign) hout _
  · obtain rfl := not_not.1 hwidth
    exact ⟨t, checkAccess_inReg ⟨Nat.not_le.1 hout, not_not.1 halign⟩ _⟩

/-- Settles O8: a read changes the schedule and the host's record only; a write changes the register at its offset. -/
theorem readsHaveNoSideEffect : Obligations.ReadsHaveNoSideEffect := by
  unfold Obligations.ReadsHaveNoSideEffect
  refine ⟨fun s offset rest ho ht => ?_, fun s offset v rest _ hd hb ho hcmd ht => ?_⟩
  · exact ⟨_, step_read ho ht, rfl, fun o => rfl⟩
  · refine ⟨_, step_write_idle ho hb ht, ?_, fun o ho' hne => ?_⟩
    · have hst := writeReg_status (s := { s with turns := rest }) (mt (regAt_eq_cmd_iff s.cfg.bufCap ho.2).1 hcmd) v
      rw [State.busy, hst]
      exact hb
    · exact hostRead_writeReg_ne (s := { s with turns := rest }) hd ho.2 ho'.2 hcmd hne v

/-- Settles O10: a write to where no writable register stands is ignored. -/
theorem unmappedAndReadOnlyOffsetsIgnoreWrites : Obligations.UnmappedAndReadOnlyOffsetsIgnoreWrites := by
  unfold Obligations.UnmappedAndReadOnlyOffsetsIgnoreWrites
  refine ⟨fun s offset hc ho hun => ?_, fun s offset v rest hc ho hplace ht => ?_,
    fun s offset v rest ho => ⟨fun ht => ?_, fun hcmd ht => ?_⟩⟩
  · rw [hostRead, regAt_of_unmapped ((Config.wf_iff s.cfg).1 hc).2.2 ho.2 hun]
    rfl
  · have hmax := ((Config.wf_iff s.cfg).1 hc).2.2
    have hreg : ¬ (regAt s.cfg.bufCap offset).IsWritable := by
      obtain hun | hro := hplace
      · rw [regAt_of_unmapped hmax ho.2 hun]
        exact not_false
      · exact regAt_not_isWritable_of_readOnly hmax ho.2 hro
    exact (step_write ho ht).trans
      (congrArg _ (hostWrite_of_not_isWritable (s := { s with turns := rest }) hreg v))
  · exact ⟨_, step_read ho ht, rfl⟩
  · exact ⟨_, step_write ho ht, hostWrite_status ho.2 hcmd v⟩

/-! ### A busy core (R50 to R54) -/

/-- Settles O6. -/
theorem aWriteToCmdStartsACommand : Obligations.AWriteToCmdStartsACommand := by
  unfold Obligations.AWriteToCmdStartsACommand
  intro s v rest hb ht
  have hfields : statusBusy.getLsbD 0 = true ∧ statusBusy.getLsbD 1 = false ∧ statusBusy.getLsbD 2 = false ∧
      statusBusy.extractLsb' 8 3 = 0 := by decide
  exact ⟨_, step_start hb ht, rfl, rfl, hfields, rfl, fun _ => rfl, rfl, rfl, rfl, rfl, rfl, rfl, rfl, rfl, rfl⟩

/-- Settles O7: the write lock. -/
theorem writesWhileBusyAreIgnored : Obligations.WritesWhileBusyAreIgnored := by
  unfold Obligations.WritesWhileBusyAreIgnored
  intro s offset v rest hb ho ht
  exact step_write_busy ho hb ht

/-- Settles O13: the invariant gives a busy core's STATUS and its empty result. -/
theorem readsWhileBusyShowNoResult : Obligations.ReadsWhileBusyShowNoResult := by
  unfold Obligations.ReadsWhileBusyShowNoResult
  intro s offset rest h hb ho ht
  obtain ⟨hlen, hdout⟩ := h.no_result_of_busy hb
  refine ⟨_, _, step_read ho ht, rfl, rfl, ?_, ?_, fun hge => ?_⟩
  · rintro rfl
    exact h.status_of_busy hb
  · rintro rfl
    exact hlen
  · rw [hostRead]
    obtain ⟨k, hreg⟩ | hreg := regAt_of_ge_dout ((Config.wf_iff s.cfg).1 h.config).2.2 ho.2 hge
    · rw [hreg, readReg, hdout]
      exact Memory.readWord_nil k
    · rw [hreg, readReg]

/-- Settles O19. -/
theorem nothingVisibleChangesBetweenStartAndCompletion :
    Obligations.NothingVisibleChangesBetweenStartAndCompletion := by
  unfold Obligations.NothingVisibleChangesBetweenStartAndCompletion
  intro s a rest hb ht hl hcore hreset
  obtain ⟨t, hs, hv⟩ := step_busy_visible hb ht hl hcore hreset
  have hbusy : t.busy = s.busy := State.busy_of_visible (t := { s with turns := rest, replies := t.replies }) hv
  exact ⟨t, hs, hbusy.trans hb, hv⟩

/-! ### The completion (R52, R66) -/

/-- Settles O5: the core's turn is the completion, and the completion of a legal word is `exec`. -/
theorem aStepRunsTheCommandInCmd : Obligations.AStepRunsTheCommandInCmd := by
  unfold Obligations.AStepRunsTheCommandInCmd
  refine ⟨fun s i hd hb => ⟨fun ht => ?_, fun rest ht => ?_⟩, fun s i => ?_⟩
  · rw [step_nil_busy ht hb, completeCommand_of_legal hd]
  · rw [step_core_busy ht hb]
    exact completeCommand_of_legal hd
  · have hword : BitVec.ofNat 32 ((encodeWord i).toNat % 2 ^ 32) = encodeWord i := by
      rw [Nat.mod_eq_of_lt (encodeWord i).isLt, BitVec.ofNat_toNat, BitVec.setWidth_eq]
    rw [State.withFetchWord, hword, step_core_busy (loadCommand_turns s _) (loadCommand_busy s _)]
    exact completeCommand_of_legal (decodeWord_encodeWord i)

/-- Settles O24: the completion applies `Execute`, whose outputs fit DOUT. -/
theorem theCompletionShowsExecute : Obligations.TheCompletionShowsExecute := by
  unfold Obligations.TheCompletionShowsExecute
  intro s hc hd hb ht
  have hmax := ((Config.wf_iff s.cfg).1 hc).2.2
  have hstep : step s = complete { s with turns := s.turns.tail } (execute s.cfg s.cmd s.operands) :=
    (step_completes hb ht).trans (completeCommand_eq _)
  cases hr : execute s.cfg s.cmd s.operands with
  | ok out =>
    have hlen := execute_ok_length hc hr
    obtain ⟨t, hcomplete, hshown⟩ :=
      complete_ok_completedWith (s := { s with turns := s.turns.tail }) hd (out := out) (by omega)
    exact ⟨t, by rw [hstep, hr, hcomplete], hlen, hshown⟩
  | error c =>
    obtain ⟨t, hcomplete, hshown⟩ := complete_error_failedWith { s with turns := s.turns.tail } c
    exact ⟨t, by rw [hstep, hr, hcomplete], hshown⟩

/-- Settles O22, by induction on the schedule: each turn completes the command, resets, or leaves it in progress. -/
theorem everyCommandCompletesUnlessReset : Obligations.EveryCommandCompletesUnlessReset := by
  unfold Obligations.EveryCommandCompletesUnlessReset
  intro s hb hl
  obtain ⟨n, t, hn, hrun, h | ⟨hmem, u, rfl⟩⟩ := run_ends_command s.turns hb rfl hl
  · refine ⟨n, t, hn, hrun, h.idle, h.phase, .inl ⟨h.done, h.cmd, h.operands, h.status.trans ?_⟩⟩
    cases execute s.cfg s.cmd s.operands <;> rfl
  · exact ⟨n, _, hn, hrun, resetEvent_busy u, resetEvent_phase u, .inr ⟨hmem, resetEvent_status u⟩⟩

/-! ### RESET and an idle core (R234, R260) -/

/-- Settles O15: RESET leaves an idle core, and an idle core only uses up its turns. -/
theorem resetAbandonsTheCommandAndZeroesEveryRegister :
    Obligations.ResetAbandonsTheCommandAndZeroesEveryRegister := by
  unfold Obligations.ResetAbandonsTheCommandAndZeroesEveryRegister
  intro s rest hc ht
  have hidle := resetEvent_busy { s with turns := rest }
  have hfields : (0 : Word).getLsbD 1 = false ∧ (0 : Word).getLsbD 2 = false := by decide
  exact ⟨_, step_reset ht, fun o ho => hostRead_resetEvent (s := { s with turns := rest }) hc ho.2, fun _ => rfl,
    fun _ => rfl, rfl, hidle, hfields.1, hfields.2, rfl, rfl, rfl, fun n hturns => run_idle_core n hidle hturns⟩

/-- Settles O21. -/
theorem anIdleCoreKeepsItsState : Obligations.AnIdleCoreKeepsItsState := by
  unfold Obligations.AnIdleCoreKeepsItsState
  intro s hb
  exact ⟨fun ht => step_nil_idle ht hb, fun a rest ha ht => step_idle_core hb ha ht⟩

end Sys2Proof.Machine
end

section
/-! PROOFS of the family 30_encoding: the command word and its decoder, and what an illegal word does. -/

namespace Sys2Proof

/-! ### The word and its fields (R60 to R64) -/

/-- A word is made of its three fields (R60). -/
theorem word_fieldsOfWord (w : Word) : (fieldsOfWord w).word = w := by
  have hhigh : w.extractLsb' 6 26 ++ w.extractLsb' 4 2 = w.extractLsb' 4 28 :=
    BitVec.extractLsb'_append_extractLsb'_eq_extractLsb' rfl
  have hall : w.extractLsb' 4 28 ++ w.extractLsb' 0 4 = w.extractLsb' 0 32 :=
    BitVec.extractLsb'_append_extractLsb'_eq_extractLsb' rfl
  rw [CommandFields.word, fieldsOfWord, hhigh, hall, BitVec.extractLsb'_eq_self]

/-- Each mode is selected by its own OP only (R61). -/
theorem eq_op_of_modeOfOp {op : BitVec 4} {m : Mode} (h : modeOfOp op = some m) : op = m.op := by
  revert op
  cases m <;> decide

/-- Each variant is selected by its own KSEL only (R62). -/
theorem eq_ksel_of_variantOfKsel {ksel : BitVec 2} {v : Variant} (h : variantOfKsel ksel = some v) : ksel = v.ksel := by
  revert ksel
  cases v <;> decide

/-- A word that decodes has the fields of the command it decodes to (R60, R64). -/
theorem fieldsOfWord_of_decodeWord {w : Word} {i : Instr} (h : decodeWord w = .ok i) : fieldsOfWord w = i.fields := by
  unfold decodeWord at h
  by_cases hr : (fieldsOfWord w).rsvd = 0
  · rw [if_neg (not_not.2 hr)] at h
    cases hm : modeOfOp (fieldsOfWord w).op with
    | none => simp [hm] at h
    | some m =>
      cases hv : variantOfKsel (fieldsOfWord w).ksel with
      | none => simp [hm, hv] at h
      | some v =>
        obtain rfl : Instr.of m v = i := by simpa [hm, hv] using h
        rw [Instr.fields, Instr.mode_of, Instr.variant_of, ← eq_op_of_modeOfOp hm, ← eq_ksel_of_variantOfKsel hv, ← hr]
  · rw [if_pos hr] at h
    cases h

/-- The byte decoder reads a word from its four bytes and leaves the rest (log entry 8). -/
theorem decode_wordBytes_append (w : Word) (rest : List Byte) :
    decode (Machine.wordBytes w ++ rest) = (decodeWord w).map (·, rest) := by
  simp only [Machine.wordBytes, List.cons_append, List.nil_append, decode, Machine.be32_wordByte]
  cases decodeWord w <;> rfl

/-- Settles O1: a word is made of its bytes, and decodes to the command it is the word of. -/
theorem decodingAnEncodedCommandGivesItBack : Obligations.DecodingAnEncodedCommandGivesItBack := by
  unfold Obligations.DecodingAnEncodedCommandGivesItBack
  intro i rest _
  refine ⟨decodeWord_encodeWord i, ?_⟩
  rw [encode, decode_wordBytes_append, decodeWord_encodeWord]
  rfl

/-- Settles O2: the word is that of its fields, and these are the command's. -/
theorem onlyItsEncodingDecodesToACommand : Obligations.OnlyItsEncodingDecodesToACommand := by
  unfold Obligations.OnlyItsEncodingDecodesToACommand
  intro w i h
  rw [encodeWord, ← fieldsOfWord_of_decodeWord h, word_fieldsOfWord]

/-- Settles O3, by evaluating the decoder on the 21 words. -/
theorem theTableWordsAreTheVariantsCommands : Obligations.TheTableWordsAreTheVariantsCommands := by
  unfold Obligations.TheTableWordsAreTheVariantsCommands
  decide

namespace Machine

/-! ### Illegal words (R63) -/

/-- A word is illegal exactly when one of its fields is reserved (R63). -/
theorem decodeWord_illegal_iff (w : Word) : (¬ ∃ i, decodeWord w = .ok i) ↔
    w.toNat / 64 ≠ 0 ∨ w.toNat % 16 = 0 ∨ 8 ≤ w.toNat % 16 ∨ w.toNat / 16 % 4 = 3 := by
  rw [decodeWord_ok_iff]
  omega

theorem completeCommand_of_illegal {s : State} (h : ¬ ∃ i, decodeWord s.cmd = .ok i) :
    completeCommand s = .next { leaveCommand s with status := statusError .illegal } := by
  cases hd : decodeWord s.cmd with
  | ok i => exact absurd ⟨i, hd⟩ h
  | error e => rw [completeCommand_eq, execute_of_illegal hd, complete_error]

/-- Settles O4: the write starts the command whatever its word, and an illegal word completes with ILLEGAL. -/
theorem illegalWordsAreTheReservedOnesAndCompleteWithIllegal :
    Obligations.IllegalWordsAreTheReservedOnesAndCompleteWithIllegal := by
  unfold Obligations.IllegalWordsAreTheReservedOnesAndCompleteWithIllegal
  refine ⟨decodeWord_illegal_iff, fun s w rest hw hb ht => ?_⟩
  have hstarted := startCommand_busy { s with turns := .core :: rest } w
  have hcompletes := completeCommand_of_illegal
    (s := { startCommand { s with turns := .core :: rest } w with turns := rest }) hw
  exact ⟨_, _, step_start hb ht, hstarted, (step_core_busy rfl hstarted).trans hcompletes, rfl, rfl, fun _ => rfl, rfl,
    rfl, rfl, rfl, rfl, rfl, rfl, rfl, rfl, rfl⟩

end Machine

end Sys2Proof
end

section
/-! PROOFS of the family 30_encoding: the hexadecimal wire form. -/

namespace Sys2Proof.Machine

/-! ### Digits -/

theorem hexValue_hexDigit {n : Nat} (h : n < 16) : hexValue (hexDigit n) = some n := by
  revert n
  decide

/-- The characters that are no digit (R68). -/
theorem hexValue_eq_none_iff (c : Char) : hexValue c = none ↔
    ¬ (('0' ≤ c ∧ c ≤ '9') ∨ ('a' ≤ c ∧ c ≤ 'f') ∨ ('A' ≤ c ∧ c ≤ 'F')) := by
  have hle (a b : Char) : a ≤ b ↔ a.toNat ≤ b.toNat := UInt32.le_iff_toNat_le
  have hbounds : '0'.toNat = 0x30 ∧ '9'.toNat = 0x39 ∧ 'a'.toNat = 0x61 ∧ 'f'.toNat = 0x66 ∧ 'A'.toNat = 0x41 ∧
    'F'.toNat = 0x46 := by decide
  obtain ⟨h0, h9, ha, hf, hA, hF⟩ := hbounds
  simp only [hle, h0, h9, ha, hf, hA, hF, hexValue]
  split_ifs <;> simp <;> omega

/-- Only characters below 0x67 have a value (R68). -/
theorem toNat_lt_of_hexValue {c : Char} {v : Nat} (h : hexValue c = some v) : c.toNat < 0x67 := by
  by_contra hge
  rw [hexValue, if_neg (by omega), if_neg (by omega), if_neg (by omega)] at h
  cases h

/-- A digit has a value below 16, whose digit is the lowercase of it (R67, R68). -/
theorem hexDigit_of_hexValue {c : Char} {v : Nat} (h : hexValue c = some v) : v < 16 ∧ hexDigit v = c.toLower := by
  have hall : ∀ n < 0x67, ∀ v ∈ hexValue (Char.ofNat n), v < 16 ∧ hexDigit v = (Char.ofNat n).toLower := by decide
  have hc := hall c.toNat (toNat_lt_of_hexValue h) v
  rw [Char.ofNat_toNat] at hc
  exact hc h

/-! ### Texts -/

@[simp] theorem hexEncode_cons (x : Byte) (b : List Byte) :
    hexEncode (x :: b) = hexDigit (x.toNat / 16) :: hexDigit (x.toNat % 16) :: hexEncode b := rfl

theorem hexEncode_length (b : List Byte) : (hexEncode b).length = 2 * b.length := by
  induction b with
  | nil => rfl
  | cons x b ih =>
    simp only [hexEncode_cons, List.length_cons, ih]
    omega

/-- A byte has two digits, its nibbles. -/
theorem hexValue_nibbles (x : Byte) : hexValue (hexDigit (x.toNat / 16)) = some (x.toNat / 16) ∧
    hexValue (hexDigit (x.toNat % 16)) = some (x.toNat % 16) := by
  have := x.isLt
  exact ⟨hexValue_hexDigit (by omega), hexValue_hexDigit (by omega)⟩

theorem hexValue_of_mem_hexEncode {b : List Byte} {c : Char} (h : c ∈ hexEncode b) : hexValue c ≠ none := by
  obtain ⟨x, -, hx⟩ := List.mem_flatMap.1 h
  obtain ⟨hhi, hlo⟩ := hexValue_nibbles x
  simp only [List.mem_cons, List.not_mem_nil, or_false] at hx
  obtain rfl | rfl := hx
  · rw [hhi]
    exact Option.some_ne_none _
  · rw [hlo]
    exact Option.some_ne_none _

theorem hexPairs_hexEncode (b : List Byte) : hexPairs (hexEncode b) = b := by
  induction b with
  | nil => rfl
  | cons x b ih =>
    obtain ⟨hhi, hlo⟩ := hexValue_nibbles x
    rw [hexEncode_cons, hexPairs, ih, hhi, hlo, Option.getD_some, Option.getD_some, Nat.div_add_mod,
      BitVec.ofNat_toNat, BitVec.setWidth_eq]

/-- Digits in pairs are the text of their bytes, in lowercase (R67, R68). -/
theorem hexEncode_hexPairs : (t : List Char) → t.length % 2 = 0 → (∀ c ∈ t, hexValue c ≠ none) →
    hexEncode (hexPairs t) = t.map Char.toLower
  | [], _, _ => rfl
  | [_], h, _ => by cases h
  | hi :: lo :: rest, h, hd => by
    simp only [List.forall_mem_cons] at hd
    obtain ⟨hhi, hlo, hrest⟩ := hd
    obtain ⟨a, ha⟩ := Option.ne_none_iff_exists'.1 hhi
    obtain ⟨b, hb⟩ := Option.ne_none_iff_exists'.1 hlo
    obtain ⟨ha16, hadigit⟩ := hexDigit_of_hexValue ha
    obtain ⟨hb16, hbdigit⟩ := hexDigit_of_hexValue hb
    have hbyte : (BitVec.ofNat 8 (16 * a + b)).toNat = 16 * a + b := by
      rw [BitVec.toNat_ofNat]
      omega
    rw [hexPairs, hexEncode_cons, ha, hb, Option.getD_some, Option.getD_some, hbyte,
      show (16 * a + b) / 16 = a by omega, show (16 * a + b) % 16 = b by omega, hadigit, hbdigit,
      hexEncode_hexPairs rest (by simp only [List.length_cons] at h; omega) hrest]
    rfl

/-- What `HexDecode` answers: FORMAT for an odd length or another character, else the bytes of the pairs (R68). -/
theorem hexDecode_eq (t : List Char) : hexDecode t =
    if t.length % 2 = 1 ∨ ∃ c ∈ t, hexValue c = none then .error .format else .ok (hexPairs t) := by
  rw [ite_or]
  simp only [hexDecode, List.any_eq_true, Option.isNone_iff_eq_none]

/-- Settles O58: both directions go pair by pair, and a failure is an odd length or a character without a value. -/
theorem hexTextRoundTrips : Obligations.HexTextRoundTrips := by
  unfold Obligations.HexTextRoundTrips
  refine ⟨fun b => ⟨?_, hexEncode_length b⟩, fun t => ?_, fun t b h => ?_⟩
  · rw [hexDecode_eq, if_neg, hexPairs_hexEncode]
    rintro (hodd | ⟨c, hc, hnone⟩)
    · rw [hexEncode_length] at hodd
      omega
    · exact hexValue_of_mem_hexEncode hc hnone
  · simp only [← hexValue_eq_none_iff]
    rw [hexDecode_eq]
    split_ifs with hbad <;> simp [hbad]
  · rw [hexDecode_eq] at h
    split_ifs at h with hbad
    obtain ⟨hlen, hdigits⟩ := not_or.1 hbad
    cases h
    exact hexEncode_hexPairs t (by omega) fun c hc hnone => hdigits ⟨c, hc, hnone⟩

end Sys2Proof.Machine
end

section
/-! PROOFS of the family 30_encoding, facts: REG byte by byte, and the bytes the host writes to an idle
core's operands. -/

namespace Sys2Proof.Machine

/-! ### REG by bytes (R41, R42) -/

theorem wordBytes_getD (w : Word) {k : Nat} (h : k < 4) : (wordBytes w).getD k 0 = wordByte w k := by
  obtain rfl | rfl | rfl | rfl : k = 0 ∨ k = 1 ∨ k = 2 ∨ k = 3 := by omega
  · rfl
  · rfl
  · rfl
  · rfl

/-- The bytes of a word with one byte replaced. -/
theorem wordByte_setWordByte (w : Word) (b : Byte) {k j : Nat} (hj : j < 4) :
    wordByte (setWordByte w k b) j = if j = k then b else wordByte w j := by
  have hbyte : (wordBytes (setWordByte w k b)).getD j 0 = if j = k then b else wordByte w j := by
    rw [setWordByte, wordBytes_be32]
    obtain rfl | rfl | rfl | rfl : j = 0 ∨ j = 1 ∨ j = 2 ∨ j = 3 := by omega
    · exact if_congr eq_comm rfl rfl
    · exact if_congr eq_comm rfl rfl
    · exact if_congr eq_comm rfl rfl
    · exact if_congr eq_comm rfl rfl
  rwa [wordBytes_getD _ hj] at hbyte

/-- The byte of REG at byte offset `p`, as the host reads it: byte `p mod 4` of the word there (R41, R42). -/
def State.regByte (s : State) (p : Nat) : Byte := wordByte (hostRead s (4 * (p / 4))) (p % 4)

/-- From byte offset `a` on REG reads as the bytes `bs`. -/
def State.Shows (s : State) (a : Nat) (bs : List Byte) : Prop := ∀ k, k < bs.length → s.regByte (a + k) = bs.getD k 0

theorem State.regByte_add (s : State) {base : Nat} (hb : base % 4 = 0) (i : Nat) :
    s.regByte (base + i) = wordByte (hostRead s (base + 4 * (i / 4))) (i % 4) := by
  rw [State.regByte, show 4 * ((base + i) / 4) = base + 4 * (i / 4) by omega, show (base + i) % 4 = i % 4 by omega]

/-- What a word of REG reads is made of the four bytes there. -/
theorem State.Shows.hostRead_eq {s : State} {o : Nat} {v : Word} (ho : o % 4 = 0) (h : s.Shows o (wordBytes v)) :
    hostRead s o = v := by
  have hbyte (k : Nat) (hk : k < 4) : wordByte (hostRead s o) k = wordByte v k := by
    have hs := h k hk
    rwa [wordBytes_getD v hk, s.regByte_add ho, show o + 4 * (k / 4) = o by omega, Nat.mod_eq_of_lt hk] at hs
  rw [← be32_wordByte (hostRead s o), ← be32_wordByte v, hbyte 0 (by decide), hbyte 1 (by decide), hbyte 2 (by decide),
    hbyte 3 (by decide)]

section

variable {s : State} (hc : s.cfg.wf = true) {i : Nat}
include hc

theorem State.din_read_eq_regByte (hi : i < s.cfg.bufCap) : s.din.read i = s.regByte (0x10000 + i) := by
  obtain ⟨hdin, -, -, -⟩ := buffersAndKeyBytesArePackedBigEndian s hc
  exact (hdin i hi).trans (s.regByte_add rfl i).symm

theorem State.dout_read_eq_regByte (hi : i < s.cfg.bufCap) : s.dout.read i = s.regByte (0x20000 + i) := by
  obtain ⟨-, hdout, -, -⟩ := buffersAndKeyBytesArePackedBigEndian s hc
  exact (hdout i hi).trans (s.regByte_add rfl i).symm

theorem State.keyb_eq_regByte (hi : i < 32) : s.keyb.getD i 0 = s.regByte (0x00020 + i) := by
  obtain ⟨-, -, ⟨-, hkey⟩, -⟩ := buffersAndKeyBytesArePackedBigEndian s hc
  exact (hkey i hi).trans (s.regByte_add rfl i).symm

theorem State.ivb_eq_regByte (hi : i < 16) : s.ivb[i] = s.regByte (0x00040 + i) := by
  obtain ⟨-, -, -, hiv⟩ := buffersAndKeyBytesArePackedBigEndian s hc
  rw [s.regByte_add rfl]
  refine Eq.trans ?_ (hiv i hi)
  simp [List.getD_eq_getElem?_getD, hi]

end

/-- From the idle state `s` the host has got to `t` by writing the bytes `bs` to the operands from byte offset `a` on:
these bytes stand there, and every other byte of REG reads as before. -/
structure State.Wrote (s t : State) (a : Nat) (bs : List Byte) : Prop where
  inv : t.Inv
  idle : t.busy = false
  cfg : t.cfg = s.cfg
  shows : t.Shows a bs
  keeps : ∀ p, p < a ∨ a + bs.length ≤ p → t.regByte p = s.regByte p

theorem State.Shows.of_wrote {s t : State} {a b : Nat} {bs cs : List Byte} (h : s.Shows a bs) (hw : s.Wrote t b cs)
    (hd : a + bs.length ≤ b ∨ b + cs.length ≤ a) : t.Shows a bs := fun k hk => by
  rw [hw.keeps (a + k) (by omega), h k hk]

theorem State.Wrote.nil {s : State} (h : s.Inv) (hb : s.busy = false) (a : Nat) : s.Wrote s a [] :=
  ⟨h, hb, rfl, fun k hk => absurd hk (Nat.not_lt_zero k), fun _ _ => rfl⟩

theorem State.Wrote.cons {s t u : State} {a : Nat} {b : Byte} {bs : List Byte} (h : s.Wrote t a [b])
    (h' : t.Wrote u (a + 1) bs) : s.Wrote u a (b :: bs) where
  inv := h'.inv
  idle := h'.idle
  cfg := h'.cfg.trans h.cfg
  shows k hk := by
    cases k with
    | zero => exact (h'.keeps a (by omega)).trans (h.shows 0 Nat.zero_lt_one)
    | succ k =>
      rw [show a + (k + 1) = a + 1 + k by omega, List.getD_cons_succ]
      exact h'.shows k (Nat.lt_of_succ_lt_succ hk)
  keeps p hp := by
    rw [List.length_cons] at hp
    rw [h'.keeps p (by omega), h.keeps p (by simp only [List.length_singleton]; omega)]

/-- An offset of an operand register: any the host may write but CMD (R41). -/
def OperandOffset (cap o : Nat) : Prop := o % 4 = 0 ∧ o ≠ 0x00000 ∧ Writable cap o

/-- A write of an idle core's host to an operand register (R46). -/
theorem wrote_hostWrite {s : State} (h : s.Inv) (hb : s.busy = false) {o : Nat} (ho : OperandOffset s.cfg.bufCap o)
    (v : Word) : s.Wrote (hostWrite s o v) o (wordBytes v) := by
  obtain ⟨ha, hcmd, hw⟩ := ho
  obtain ⟨⟨hdin, -⟩, -⟩ := h.buffers
  have hlen : (wordBytes v).length = 4 := rfl
  have hcfg : (hostWrite s o v).cfg = s.cfg := by rw [hostWrite_of_idle hb, writeReg_cfg]
  refine ⟨hostWrite_inv h ha v, ?_, hcfg, fun k hk => ?_, fun p hp => ?_⟩
  · rw [State.busy, hostWrite_status ha hcmd v]
    exact hb
  · have hk4 : k < 4 := hk
    rw [State.regByte_add _ ha, show o + 4 * (k / 4) = o by omega, Nat.mod_eq_of_lt hk4, wordBytes_getD v hk4, hostRead,
      hcfg, hostWrite_of_idle hb, readReg_writeReg_same hdin (regAt_isWritable ha hw)]
  · rw [State.regByte, hostWrite_of_idle hb, hostRead_writeReg_ne hdin ha (by omega) hcmd (by omega)]
    rfl

/-- A byte written by way of its word (log entry 10). -/
theorem wrote_setWordByte {s : State} (h : s.Inv) (hb : s.busy = false) {p : Nat}
    (ho : OperandOffset s.cfg.bufCap (4 * (p / 4))) (b : Byte) :
    s.Wrote (hostWrite s (4 * (p / 4)) (setWordByte (hostRead s (4 * (p / 4))) (p % 4) b)) p [b] := by
  have hw := wrote_hostWrite h hb ho (setWordByte (hostRead s (4 * (p / 4))) (p % 4) b)
  have hword (q : Nat) (hq : q / 4 = p / 4) :
      (hostWrite s (4 * (p / 4)) (setWordByte (hostRead s (4 * (p / 4))) (p % 4) b)).regByte q =
        if q = p then b else s.regByte q := by
    have hlt : q % 4 < 4 := Nat.mod_lt q (by decide)
    have hs := hw.shows (q % 4) hlt
    rw [show 4 * (p / 4) + q % 4 = q by omega] at hs
    rw [hs, wordBytes_getD _ hlt, wordByte_setWordByte _ _ hlt, State.regByte, hq]
    exact if_congr (by omega) rfl rfl
  refine ⟨hw.inv, hw.idle, hw.cfg, fun k hk => ?_, fun q hq => ?_⟩
  · obtain rfl : k = 0 := by simpa using hk
    exact (hword p rfl).trans (if_pos rfl)
  · rw [List.length_singleton] at hq
    by_cases hsame : q / 4 = p / 4
    · rw [hword q hsame, if_neg (by omega)]
    · refine hw.keeps q ?_
      rw [show (wordBytes _).length = 4 from rfl]
      omega

/-- The bytes `bs` written from byte `i` on of the words from `base` on, all in operand registers (R70). -/
theorem wrote_hostWriteBytes {base : Nat} (hbase : base % 4 = 0) (bs : List Byte) {s : State} (h : s.Inv)
    (hb : s.busy = false) (i : Nat)
    (ho : ∀ p, base + i ≤ p → p < base + i + bs.length → OperandOffset s.cfg.bufCap (4 * (p / 4))) :
    s.Wrote (hostWriteBytes base i bs s) (base + i) bs := by
  induction bs generalizing s i with
  | nil => exact .nil h hb _
  | cons b bs ih =>
    rw [List.length_cons] at ho
    have hfirst := wrote_setWordByte h hb (ho (base + i) (by omega) (by omega)) b
    rw [show 4 * ((base + i) / 4) = base + 4 * (i / 4) by omega, show (base + i) % 4 = i % 4 by omega] at hfirst
    refine hfirst.cons (ih hfirst.inv hfirst.idle (i + 1) fun p hlo hhi => ?_)
    rw [hfirst.cfg]
    exact ho p (by omega) (by omega)

end Sys2Proof.Machine
end

section
/-! PROOFS of the family 30_encoding: a request of the text front end, from its operands in the registers to
its reply. -/

namespace Sys2Proof.Machine

/-! ### The operands a request leaves in the registers (R70) -/

/-- The operand writes of R70. -/
def writeOperands (d : RequestBytes) (s : State) : State :=
  let ivDone := hostWriteBytes 0x00040 0 (d.iv.getD []) s
  let keyDone := hostWriteBytes 0x00020 0 (d.key.take 32) (hostWrite ivDone 0x00008 (lengthWord d.key.length))
  let lengthsDone := hostWrite keyDone 0x0000C (lengthWord d.text.length)
  hostWriteBytes 0x10000 0 (d.text.take lengthsDone.cfg.bufCap) lengthsDone

/-- A request is loaded by its operands and then the start of its command (R70). -/
theorem loadRequest_eq (r : Request) (d : RequestBytes) (s : State) :
    loadRequest r d s = hostWrite (writeOperands d s) 0x00000 (encodeWord (Instr.of r.op.mode r.variant)) := by
  unfold loadRequest writeOperands
  cases d.iv <;> rfl

/-- The operands of a request stand in the registers of an idle core (R70): the lengths, the key, the text and, where
there is one, the IV, each as far as its registers go. -/
structure RequestBytes.LoadedIn (d : RequestBytes) (s : State) : Prop where
  inv : s.Inv
  idle : s.busy = false
  keyLen : s.keyLen = lengthWord d.key.length
  dinLen : s.dinLen = lengthWord d.text.length
  key : s.Shows 0x00020 (d.key.take 32)
  text : s.Shows 0x10000 (d.text.take s.cfg.bufCap)
  iv : s.Shows 0x00040 (d.iv.getD [])

theorem operandOffset_of_register {cap p : Nat} (hlo : 0x00020 ≤ p) (hhi : p < 0x00050) :
    OperandOffset cap (4 * (p / 4)) :=
  ⟨by omega, by omega, .inr (.inr (.inr (.inl ⟨by omega, by omega⟩)))⟩

theorem operandOffset_of_din {cap p : Nat} (hlo : 0x10000 ≤ p) (hhi : p < 0x10000 + cap) :
    OperandOffset cap (4 * (p / 4)) :=
  ⟨by omega, by omega, .inr (.inr (.inr (.inr ⟨by omega, by omega⟩)))⟩

theorem operandOffset_keyLen (cap : Nat) : OperandOffset cap 0x00008 := ⟨rfl, by decide, .inr (.inl rfl)⟩

theorem operandOffset_dinLen (cap : Nat) : OperandOffset cap 0x0000C := ⟨rfl, by decide, .inr (.inr (.inl rfl))⟩

/-- The writes of R70 load the operands: each of the five leaves what the others wrote. -/
theorem writeOperands_loadedIn {d : RequestBytes} (hiv : (d.iv.getD []).length ≤ 16) {s : State} (h : s.Inv)
    (hb : s.busy = false) : (writeOperands d s).cfg = s.cfg ∧ d.LoadedIn (writeOperands d s) := by
  have hkey : (d.key.take 32).length ≤ 32 := List.length_take_le ..
  have hkeyLen : (wordBytes (lengthWord d.key.length)).length = 4 := rfl
  have htextLen : (wordBytes (lengthWord d.text.length)).length = 4 := rfl
  have w1 := wrote_hostWriteBytes (base := 0x00040) rfl (d.iv.getD []) h hb 0 fun p hlo hhi =>
    operandOffset_of_register (by omega) (by omega)
  have w2 := wrote_hostWrite w1.inv w1.idle (operandOffset_keyLen _) (lengthWord d.key.length)
  have w3 := wrote_hostWriteBytes (base := 0x00020) rfl (d.key.take 32) w2.inv w2.idle 0 fun p hlo hhi =>
    operandOffset_of_register (by omega) (by omega)
  have w4 := wrote_hostWrite w3.inv w3.idle (operandOffset_dinLen _) (lengthWord d.text.length)
  have w5 := wrote_hostWriteBytes (base := 0x10000) rfl (d.text.take _) w4.inv w4.idle 0 fun p hlo hhi =>
    operandOffset_of_din hlo (hhi.trans_le (Nat.add_le_add_left (List.length_take_le _ d.text) _))
  refine ⟨w5.cfg.trans (w4.cfg.trans (w3.cfg.trans (w2.cfg.trans w1.cfg))), w5.inv, w5.idle, ?_, ?_, ?_, ?_, ?_⟩
  · have hshows := w2.shows.of_wrote w3 (.inl (by omega))
    exact ((hshows.of_wrote w4 (.inl (by omega))).of_wrote w5 (.inl (by omega))).hostRead_eq rfl
  · exact (w4.shows.of_wrote w5 (.inl (by omega))).hostRead_eq rfl
  · exact (w3.shows.of_wrote w4 (.inr (by omega))).of_wrote w5 (.inl (by omega))
  · exact w5.cfg ▸ w5.shows
  · have hshows := w1.shows.of_wrote w2 (.inr (by omega))
    exact ((hshows.of_wrote w3 (.inr (by omega))).of_wrote w4 (.inr (by omega))).of_wrote w5 (.inl (by omega))

/-! ### The request's result (R66, R70) -/

theorem lengthWord_toNat (n : Nat) : (lengthWord n).toNat = min n (2 ^ 32 - 1) := by
  rw [lengthWord, BitVec.toNat_ofNat]
  omega

/-- What the core answers is the command function on the request's bytes, past the common checks (R66, R70). -/
theorem requestResult_eq (cfg : Config) (r : Request) (d : RequestBytes) : requestResult cfg r d =
    if d.key.length ≠ r.variant.keyBytes then .error .length
    else if d.text.length > cfg.bufCap then .error .length
    else commandBody cfg r.op.mode r.variant d.text d.key (blockOf (d.iv.getD [])) := by
  unfold requestResult
  cases r.op <;> rfl

/-- Only the CBC modes read the IV (R65, R66). -/
theorem commandBody_congr_iv {cfg : Config} {m : Mode} {v : Variant} {text key : List Byte} {iv iv' : Block}
    (h : m = .cbcEncrypt ∨ m = .cbcDecrypt → iv = iv') :
    commandBody cfg m v text key iv = commandBody cfg m v text key iv' := by
  cases m with
  | cbcEncrypt => rw [h (.inl rfl)]
  | cbcDecrypt => rw [h (.inr rfl)]
  | encrypt | decrypt | ecbEncrypt | ecbDecrypt | cmac => rfl

/-- The IV of a decoded request: 16 bytes in the CBC modes, none in the others (R70, R71). -/
theorem decodeRequest_iv {r : Request} {d : RequestBytes} (h : decodeRequest r = .ok d) :
    (d.iv.getD []).length = 16 ∨ d.iv = none ∧ ¬ (r.op.mode = .cbcEncrypt ∨ r.op.mode = .cbcDecrypt) := by
  unfold decodeRequest at h
  split at h; · cases h
  split at h; · cases h
  split at h
  next hnone =>
    cases h
    refine .inr ⟨rfl, ?_⟩
    cases hop : r.op with
    | cbcEncrypt t | cbcDecrypt t =>
      rw [hop] at hnone
      cases hnone
    | encrypt | decrypt | ecbEncrypt | ecbDecrypt | cmac => simp [Operation.mode]
  next t _ =>
    split at h; · cases h
    split at h; · cases h
    cases h
    exact .inl (not_not.1 ‹_›)

/-- Byte sequences of one length with equal bytes are equal. -/
theorem eq_of_getD_eq {a b : List Byte} (hl : a.length = b.length)
    (h : ∀ k, k < b.length → a.getD k 0 = b.getD k 0) : a = b := by
  refine List.ext_getElem hl fun k ha hb => ?_
  rw [← List.getD_eq_getElem a 0 ha, ← List.getD_eq_getElem b 0 hb, h k hb]

section

variable {d : RequestBytes} {s : State} (h : d.LoadedIn s)
include h

theorem RequestBytes.LoadedIn.operands_text (hl : d.text.length ≤ s.cfg.bufCap) : s.operands.text = d.text := by
  have hcap := ((Config.wf_iff s.cfg).1 h.inv.config).2.2
  have hlen : s.dinLen.toNat = d.text.length := by
    rw [h.dinLen, lengthWord_toNat]
    omega
  refine eq_of_getD_eq ((State.text_length s).trans hlen) fun k hk => ?_
  have hshows := h.text
  rw [List.take_of_length_le hl] at hshows
  rw [State.text_getD s (by omega), ← hshows k hk]
  exact State.din_read_eq_regByte h.inv.config (by omega)

theorem RequestBytes.LoadedIn.operands_key {v : Variant} (hl : d.key.length = v.keyBytes) :
    s.operands.key v = d.key := by
  have h32 : v.keyBytes ≤ 32 := Nat.mul_le_mul_left 4 (nk_le v)
  have hlen : (s.operands.key v).length = d.key.length := by
    rw [hl, Operands.key, slice, List.drop_zero, List.length_take]
    exact min_eq_left (s.keyb_length.symm ▸ h32)
  refine eq_of_getD_eq hlen fun k hk => ?_
  have hshows := h.key
  rw [List.take_of_length_le (by omega)] at hshows
  rw [← hshows k hk, Operands.key, slice, List.drop_zero, List.getD_eq_getElem?_getD,
    List.getElem?_take_of_lt (by rw [hl] at hk; exact hk), ← List.getD_eq_getElem?_getD]
  exact State.keyb_eq_regByte h.inv.config (by omega)

theorem RequestBytes.LoadedIn.operands_ivb (hl : (d.iv.getD []).length = 16) :
    s.operands.ivb = blockOf (d.iv.getD []) := by
  refine Vector.ext fun k hk => ?_
  rw [blockOf_get _ k hk, ← h.iv k (by omega)]
  exact State.ivb_eq_regByte h.inv.config hk

/-- The command on the loaded operands answers what the request asks for (R66, R70). -/
theorem RequestBytes.LoadedIn.runCommand_eq {r : Request} (hd : decodeRequest r = .ok d) :
    runCommand s.cfg r.op.mode r.variant s.operands = requestResult s.cfg r d := by
  have hcap := ((Config.wf_iff s.cfg).1 h.inv.config).2.2
  have h32 : r.variant.keyBytes ≤ 32 := Nat.mul_le_mul_left 4 (nk_le r.variant)
  have hkl : s.keyLen.toNat = min d.key.length (2 ^ 32 - 1) := by rw [h.keyLen, lengthWord_toNat]
  have hdl : s.dinLen.toNat = min d.text.length (2 ^ 32 - 1) := by rw [h.dinLen, lengthWord_toNat]
  rw [requestResult_eq]
  by_cases hk : d.key.length = r.variant.keyBytes
  · rw [if_neg (not_not.2 hk)]
    by_cases ht : d.text.length ≤ s.cfg.bufCap
    · rw [if_neg (Nat.not_lt.2 ht), runCommand_accepts _ ⟨by omega, by omega⟩, h.operands_text ht, h.operands_key hk]
      refine commandBody_congr_iv fun hcbc => h.operands_ivb ?_
      exact (decodeRequest_iv hd).resolve_right fun hnone => hnone.2 hcbc
    · rw [if_pos (Nat.lt_of_not_le ht), runCommand_rejects _ fun ⟨_, hfits⟩ => ht (by omega)]
  · rw [if_pos hk, runCommand_rejects _ fun ⟨hright, _⟩ => hk (by omega)]

end

/-! ### The reply (R52, R70) -/

/-- A result as the front end answers it (R70). -/
def Result.reply : Result → Except ErrClass (List Char)
  | .ok out => .ok (hexEncode out)
  | .error c => .error c

theorem errClassOfStatus_statusDone : errClassOfStatus statusDone = none := by decide

theorem errClassOfStatus_statusError (c : ErrClass) : errClassOfStatus (statusError c) = some c := by
  cases c <;> decide

/-- The bytes of DOUT as the host reads them, word by word (R42). -/
theorem hostReadBytes_dout {s : State} (hc : s.cfg.wf = true) {n : Nat} (hn : n ≤ s.cfg.bufCap) :
    hostReadBytes s 0x20000 n = s.dout.readBytes 0 n := by
  refine List.map_congr_left fun k hk => ?_
  rw [Nat.zero_add, State.dout_read_eq_regByte hc ((List.mem_range.1 hk).trans_le hn), s.regByte_add rfl]

/-- The bytes of a completion's output are those DOUT holds. -/
theorem State.CompletedWith.readBytes_dout {s t : State} {out : List Byte}
    (h : s.CompletedWith t out.length fun k => out.getD k 0) : t.dout.readBytes 0 out.length = out := by
  refine eq_of_getD_eq (Memory.readBytes_length ..) fun k hk => ?_
  rw [Memory.readBytes_getD _ _ _ _ hk, Nat.zero_add, h.dout k, if_pos hk]

/-- After the completion with a result that fits DOUT the front end reads that result (R52, R70). -/
theorem complete_readReply {s : State} (hc : s.cfg.wf = true) (hd : s.dout.wf) {r : Result}
    (hr : ∀ out, r = .ok out → out.length ≤ s.cfg.bufCap) : ∃ t, complete s r = .next t ∧ readReply t = r.reply := by
  have hmax := ((Config.wf_iff s.cfg).1 hc).2.2
  cases r with
  | error c =>
    refine ⟨_, complete_error s c, ?_⟩
    rw [readReply, show hostRead _ 0x00004 = statusError c from rfl, errClassOfStatus_statusError]
    rfl
  | ok out =>
    have hlen := hr out rfl
    obtain ⟨t, ht, hshown⟩ := complete_ok_completedWith hd (out := out) (by omega)
    have hcfg := hshown.frame.cfg
    refine ⟨t, ht, ?_⟩
    rw [readReply, show hostRead t 0x00004 = t.status from rfl, hshown.status, errClassOfStatus_statusDone,
      show hostRead t 0x00010 = t.doutLen from rfl, hshown.doutLen,
      hostReadBytes_dout (hcfg ▸ hc) (hcfg ▸ hlen), hshown.readBytes_dout]
    rfl

/-! ### Serving a request (R70) -/

theorem serveRequest_of_failure {r : Request} {c : ErrClass} (h : decodeRequest r = .error c) (s : State) :
    serveRequest r s = .next (s, .error c) := by
  simp only [serveRequest, h]

theorem serveRequest_of_served {r : Request} {d : RequestBytes} {s u t : State} (h : decodeRequest r = .ok d)
    (hidle : takeLastTurn s = .next u) (hdone : takeLastTurn (loadRequest r d u) = .next t) :
    serveRequest r s = .next (t, readReply t) := by
  simp only [serveRequest, h, hidle, hdone]

/-- A core left to itself comes to be idle, with its parameters and the invariant (R52). -/
theorem takeLastTurn_idle {s : State} (h : s.Inv) :
    ∃ t, takeLastTurn s = .next t ∧ t.Inv ∧ t.busy = false ∧ t.cfg = s.cfg := by
  cases hb : s.busy with
  | false => exact ⟨s, if_neg (by simp [hb]), h, hb, rfl⟩
  | true =>
    obtain ⟨t, ht, hidle, -, -, -, -, -, -, hframed⟩ := complete_next s (execute s.cfg s.cmd s.operands)
    rw [← completeCommand_eq] at ht
    exact ⟨t, (if_pos hb).trans ht, completeCommand_inv h hb ht, hidle, hframed.cfg⟩

/-- An idle core into which a request is loaded completes with the request's result (R51, R52, R70). -/
theorem loadRequest_completes {r : Request} {d : RequestBytes} (hd : decodeRequest r = .ok d) {s : State} (h : s.Inv)
    (hb : s.busy = false) :
    ∃ t, takeLastTurn (loadRequest r d s) = .next t ∧ readReply t = (requestResult s.cfg r d).reply := by
  have hiv : (d.iv.getD []).length ≤ 16 := by
    obtain hlen | ⟨hnone, -⟩ := decodeRequest_iv hd
    · exact hlen.le
    · simp [hnone]
  obtain ⟨hcfg, hloaded⟩ := writeOperands_loadedIn hiv h hb
  have hresult := hloaded.runCommand_eq hd
  rw [loadRequest_eq]
  generalize writeOperands d s = u at hcfg hloaded hresult
  generalize hi : Instr.of r.op.mode r.variant = i
  have hrun : execute u.cfg (encodeWord i) u.operands = requestResult s.cfg r d := by
    rw [execute_of_legal (decodeWord_encodeWord i), ← hi, Instr.mode_of, Instr.variant_of, hresult, hcfg]
  have hturn : takeLastTurn (hostWrite u 0x00000 (encodeWord i)) =
      complete (startCommand u (encodeWord i)) (requestResult s.cfg r d) := by
    rw [hostWrite_of_idle hloaded.idle, ← hrun]
    exact (if_pos (startCommand_busy u _)).trans (completeCommand_eq _)
  rw [hturn]
  exact complete_readReply (s := startCommand u (encodeWord i)) hloaded.inv.config Memory.wf_nil fun out hout =>
    execute_ok_length hloaded.inv.config (hrun.trans hout)

/-- Settles O59: the core comes to be idle, takes the operands and the command, and completes with the result. -/
theorem theFrontEndAnswersWhatTheCommandAnswers : Obligations.TheFrontEndAnswersWhatTheCommandAnswers := by
  unfold Obligations.TheFrontEndAnswersWhatTheCommandAnswers
  intro r s h
  refine ⟨fun c hc => serveRequest_of_failure hc s, fun d hd => ?_⟩
  obtain ⟨u, hidle, hinv, hb, hcfg⟩ := takeLastTurn_idle h
  obtain ⟨t, hdone, hreply⟩ := loadRequest_completes hd hinv hb
  refine ⟨t, ?_⟩
  rw [serveRequest_of_served hd hidle hdone, hreply, hcfg]
  cases requestResult s.cfg r d <;> rfl

end Sys2Proof.Machine
end

section
/-! PROOFS of the family 40_gf_sbox: the field GF(2^8), the S-boxes and the round constants. -/

namespace Sys2Proof.Machine

/-! ### Doubling (R91) -/

/-- Two sums with an optional summand `d` each: in their sum `d` stays where exactly one of them has it (R90). -/
theorem ite_xor_ite (p q : Bool) (x y d : Byte) : (if p then x ^^^ d else x) ^^^ (if q then y ^^^ d else y) =
    if p ^^ q then x ^^^ y ^^^ d else x ^^^ y := by
  cases p <;> cases q
  · rfl
  · exact (BitVec.xor_assoc ..).symm
  · simp only [Bool.xor_false, if_true, Bool.false_eq_true, if_false]
    ac_rfl
  · simp only [Bool.xor_self, if_true, Bool.false_eq_true, if_false]
    rw [BitVec.xor_assoc, BitVec.xor_comm y, ← BitVec.xor_assoc d, BitVec.xor_self, BitVec.zero_xor]

/-- Doubling distributes over the field's addition (R90, R91). -/
theorem xtime_xor (a b : Byte) : xtime (a ^^^ b) = xtime a ^^^ xtime b := by
  simp only [xtime, BitVec.getLsbD_xor, BitVec.shiftLeft_xor_distrib, ite_xor_ite]

theorem toNat_shiftLeft_one (a : Byte) : (a <<< 1).toNat = 2 * a.toNat % 2 ^ 8 := by
  rw [BitVec.toNat_shiftLeft, Nat.shiftLeft_eq, Nat.mul_comm]

/-- Reducing a 9-bit number with bit 8 set by 0x11B is reducing its low byte by 0x1B (R90, R91). -/
theorem xor_aesPolynomial {n : Nat} (h : n / 2 ^ 8 = 1) : n ^^^ 0x11B = n % 2 ^ 8 ^^^ 0x1B := by
  have hhigh : (n ^^^ 0x11B) / 2 ^ 8 = 0 := by
    rw [Nat.xor_div_two_pow, h]
    rfl
  have hlow : (n ^^^ 0x11B) % 2 ^ 8 = n % 2 ^ 8 ^^^ 0x1B := Nat.xor_mod_two_pow
  omega

/-- Doubling as a number, modulo x^8 + x^4 + x^3 + x + 1 (R90, R91). -/
theorem xtime_toNat (a : Byte) :
    (xtime a).toNat = if a.toNat < 128 then 2 * a.toNat else (2 * a.toNat) ^^^ 0x11B := by
  have htop : a.getLsbD 7 = decide (128 ≤ a.toNat) := BitVec.msb_eq_decide a
  by_cases h : a.toNat < 128
  · have hclear : ¬ 128 ≤ a.toNat := by omega
    simp only [xtime, htop, hclear, decide_false, Bool.false_eq_true, if_false, if_pos h, toNat_shiftLeft_one]
    omega
  · have hset : 128 ≤ a.toNat := by omega
    simp only [xtime, htop, hset, decide_true, if_true, if_neg h, BitVec.toNat_xor, toNat_shiftLeft_one]
    exact (xor_aesPolynomial (by omega)).symm

/-! ### The multiplier's loop (R92) -/

/-- The loop adds up the doublings of `a` at the bits set in `b`. -/
theorem gfMulLoop_eq_foldl (a b : Byte) (n i : Nat) (acc : Byte) : gfMulLoop b n i (xtime^[i] a) acc =
    (List.range' i n).foldl (fun acc i => if b.getLsbD i then acc ^^^ xtime^[i] a else acc) acc := by
  induction n generalizing i acc with
  | zero => rfl
  | succ n ih => rw [gfMulLoop, ← Function.iterate_succ_apply' xtime, ih, List.range'_succ, List.foldl_cons]

/-- The loop adds in its doubled value and its accumulator together. -/
theorem gfMulLoop_xor_left (b : Byte) (n i : Nat) (d e acc acc' : Byte) :
    gfMulLoop b n i (d ^^^ e) (acc ^^^ acc') = gfMulLoop b n i d acc ^^^ gfMulLoop b n i e acc' := by
  induction n generalizing i d e acc acc' with
  | zero => rfl
  | succ n ih =>
    simp only [gfMulLoop, xtime_xor, ← ih]
    cases b.getLsbD i
    · rfl
    · simp only [if_true]
      congr 1
      ac_rfl

/-- The loop adds in the multiplier and its accumulator together. -/
theorem gfMulLoop_xor_right (b c : Byte) (n i : Nat) (d acc acc' : Byte) :
    gfMulLoop (b ^^^ c) n i d (acc ^^^ acc') = gfMulLoop b n i d acc ^^^ gfMulLoop c n i d acc' := by
  induction n generalizing i d acc acc' with
  | zero => rfl
  | succ n ih => simp only [gfMulLoop, BitVec.getLsbD_xor, ← ih, ite_xor_ite]

/-- The loop doubles when its doubled value and its accumulator are doubled. -/
theorem gfMulLoop_xtime (b : Byte) (n i : Nat) (d acc : Byte) :
    gfMulLoop b n i (xtime d) (xtime acc) = xtime (gfMulLoop b n i d acc) := by
  induction n generalizing i d acc with
  | zero => rfl
  | succ n ih => simp only [gfMulLoop, ← ih, ← xtime_xor, ← apply_ite xtime]

/-- What holds of the doubled value and of the accumulator, and is kept by doubling and adding, holds of the loop's
result. -/
theorem gfMulLoop_induction {P : Byte → Prop} (hxor : ∀ a b, P a → P b → P (a ^^^ b)) (hxtime : ∀ a, P a → P (xtime a))
    (b : Byte) (n i : Nat) {d acc : Byte} (hd : P d) (hacc : P acc) : P (gfMulLoop b n i d acc) := by
  induction n generalizing i d acc with
  | zero => exact hacc
  | succ n ih =>
    refine ih (i + 1) (hxtime d hd) ?_
    split
    · exact hxor acc d hacc hd
    · exact hacc

/-! ### The laws of the multiplication (R92, R93) -/

theorem gfMul_eq_foldl (a b : Byte) : gfMul a b =
    (List.range 8).foldl (fun acc i => if b.getLsbD i then acc ^^^ xtime^[i] a else acc) 0 := by
  rw [List.range_eq_range']
  exact gfMulLoop_eq_foldl a b 8 0 0

theorem xor_gfMul (a b c : Byte) : gfMul (a ^^^ b) c = gfMul a c ^^^ gfMul b c :=
  gfMulLoop_xor_left c 8 0 a b 0 0

theorem gfMul_xor (a b c : Byte) : gfMul a (b ^^^ c) = gfMul a b ^^^ gfMul a c :=
  gfMulLoop_xor_right b c 8 0 a 0 0

theorem xtime_gfMul (a b : Byte) : gfMul (xtime a) b = xtime (gfMul a b) :=
  gfMulLoop_xtime b 8 0 a 0

@[simp] theorem one_gfMul (a : Byte) : gfMul 1 a = a := by
  revert a
  decide +kernel

/-- Every byte is a sum of doublings of 1, so what holds of 1 and is kept by adding and doubling holds of every byte. -/
theorem byte_induction {P : Byte → Prop} (hone : P 1) (hxor : ∀ a b, P a → P b → P (a ^^^ b))
    (hxtime : ∀ a, P a → P (xtime a)) (a : Byte) : P a :=
  one_gfMul a ▸ gfMulLoop_induction hxor hxtime a 8 0 hone (hxor 1 1 hone hone)

@[simp] theorem gfMul_one (a : Byte) : gfMul a 1 = a := by
  induction a using byte_induction with
  | hone => rfl
  | hxor a b iha ihb => rw [xor_gfMul, iha, ihb]
  | hxtime a ih => rw [xtime_gfMul, ih]

theorem gfMul_xtime (a b : Byte) : gfMul a (xtime b) = xtime (gfMul a b) := by
  induction a using byte_induction with
  | hone => simp only [one_gfMul]
  | hxor a c iha ihc => rw [xor_gfMul, iha, ihc, ← xtime_xor, ← xor_gfMul]
  | hxtime a ih => rw [xtime_gfMul, ih, ← xtime_gfMul]

theorem gfMul_comm (a b : Byte) : gfMul a b = gfMul b a := by
  induction a using byte_induction with
  | hone => rw [one_gfMul, gfMul_one]
  | hxor a c iha ihc => rw [xor_gfMul, iha, ihc, ← gfMul_xor]
  | hxtime a ih => rw [xtime_gfMul, ih, ← gfMul_xtime]

theorem gfMul_assoc (a b c : Byte) : gfMul (gfMul a b) c = gfMul a (gfMul b c) := by
  induction a using byte_induction with
  | hone => simp only [one_gfMul]
  | hxor a e iha ihe => simp only [xor_gfMul, iha, ihe]
  | hxtime a ih => simp only [xtime_gfMul, ih]

@[simp] theorem zero_gfMul (a : Byte) : gfMul 0 a = 0 :=
  (xor_gfMul 0 0 a).trans (BitVec.xor_self ..)

@[simp] theorem gfMul_zero (a : Byte) : gfMul a 0 = 0 :=
  (gfMul_comm a 0).trans (zero_gfMul a)

/-! ### Inverses, read from the S-box (R93, R97) -/

/-- The affine map of the S-box (R97). -/
def sboxAffine (b : Byte) : Byte :=
  b ^^^ b.rotateLeft 1 ^^^ b.rotateLeft 2 ^^^ b.rotateLeft 3 ^^^ b.rotateLeft 4 ^^^ 0x63

/-- The map that undoes `sboxAffine`. -/
def sboxAffineInverse (y : Byte) : Byte := y.rotateLeft 1 ^^^ y.rotateLeft 3 ^^^ y.rotateLeft 6 ^^^ 0x05

theorem sboxAffine_sboxAffineInverse (y : Byte) : sboxAffine (sboxAffineInverse y) = y := by
  revert y
  decide +kernel

/-- `inv(x)` of R97, read back from SBOX: 0 for 0, the inverse of every other byte. -/
def gfInverse (x : Byte) : Byte := sboxAffineInverse (sbox x)

/-- The one check of SBOX against the multiplier: 255 products. -/
theorem gfMul_gfInverse {x : Byte} (h : x ≠ 0) : gfMul x (gfInverse x) = 1 := by
  revert x
  decide +kernel

theorem gfInverse_zero : gfInverse 0 = 0 := by decide

/-- SBOX is the affine map of the inverse (R97). -/
theorem sbox_eq_sboxAffine (x : Byte) : sbox x = sboxAffine (gfInverse x) :=
  (sboxAffine_sboxAffineInverse (sbox x)).symm

/-- A product with a non-zero byte gives back the other factor. -/
theorem gfInverse_gfMul_cancel {a : Byte} (h : a ≠ 0) (b : Byte) : gfMul (gfInverse a) (gfMul a b) = b := by
  rw [← gfMul_assoc, gfMul_comm (gfInverse a), gfMul_gfInverse h, one_gfMul]

/-- There are no zero divisors (R93). -/
theorem gfMul_ne_zero {a b : Byte} (ha : a ≠ 0) (hb : b ≠ 0) : gfMul a b ≠ 0 := by
  intro h
  exact hb (by rw [← gfInverse_gfMul_cancel ha b, h, gfMul_zero])

theorem ne_zero_of_gfMul_eq_one {a b : Byte} (h : gfMul a b = 1) : a ≠ 0 := by
  rintro rfl
  exact absurd ((zero_gfMul b).symm.trans h) (by decide)

/-- An inverse is unique (R93). -/
theorem eq_gfInverse_of_gfMul_eq_one {a b : Byte} (h : gfMul a b = 1) : b = gfInverse a := by
  rw [← gfInverse_gfMul_cancel (ne_zero_of_gfMul_eq_one h) b, h, gfMul_one]

/-- Settles O42: the loop is additive in both operands and commutes with doubling, every byte is a sum of doublings of
1, and SBOX gives the inverses. -/
theorem gfMulIsTheFieldMultiplication : Obligations.GfMulIsTheFieldMultiplication := by
  unfold Obligations.GfMulIsTheFieldMultiplication
  refine ⟨gfMul_comm, gfMul_assoc, gfMul_xor, fun a => ⟨gfMul_one a, one_gfMul a, gfMul_zero a, zero_gfMul a⟩,
    fun _ _ => gfMul_ne_zero, fun a ha => ⟨gfInverse a, gfMul_gfInverse ha, fun _ => eq_gfInverse_of_gfMul_eq_one⟩⟩

/-- Settles O43: doubling reduces by 0x11B, and the loop's doubled value at bit `i` is `a` doubled `i` times. -/
theorem gfMulIsPolynomialMultiplicationModuloTheAesPolynomial :
    Obligations.GfMulIsPolynomialMultiplicationModuloTheAesPolynomial := by
  unfold Obligations.GfMulIsPolynomialMultiplicationModuloTheAesPolynomial
  exact ⟨xtime_toNat, gfMul_eq_foldl⟩

/-! ### The tables (R95, R96, R98, R99) -/

theorem invSbox_sbox (x : Byte) : invSbox (sbox x) = x := by
  revert x
  decide +kernel

/-- INVSBOX undoes SBOX, and there are as many entries as bytes, so SBOX undoes INVSBOX. -/
theorem sbox_invSbox : Function.LeftInverse sbox invSbox :=
  Function.LeftInverse.rightInverse_of_surjective invSbox_sbox
    (Finite.injective_iff_surjective.1 (Function.LeftInverse.injective invSbox_sbox))

theorem sbox_ne (x : Byte) : sbox x ≠ x ∧ sbox x ≠ x ^^^ 0xFF := by
  revert x
  decide +kernel

/-- The entries of a table without repetition are the numbers below 256 in some order. -/
theorem entries_perm_range {f : Byte → Byte} (hf : Function.Injective f) :
    ((List.range 256).map fun n => (f (BitVec.ofNat 8 n)).toNat).Perm (List.range 256) := by
  have hnodup : ((List.range 256).map fun n => (f (BitVec.ofNat 8 n)).toNat).Nodup := by
    refine List.Nodup.map_on (fun m hm n hn h => ?_) List.nodup_range
    have hbytes := congrArg BitVec.toNat (hf (BitVec.eq_of_toNat_eq h))
    rwa [BitVec.toNat_ofNat, BitVec.toNat_ofNat, Nat.mod_eq_of_lt (List.mem_range.1 hm),
      Nat.mod_eq_of_lt (List.mem_range.1 hn)] at hbytes
  refine (List.subperm_of_subset hnodup fun k hk => ?_).perm_of_length_le ?_
  · obtain ⟨n, -, rfl⟩ := List.mem_map.1 hk
    exact List.mem_range.2 (f (BitVec.ofNat 8 n)).isLt
  · rw [List.length_map]

/-- So they add up to 0 + 1 + ... + 255 (R99). -/
theorem entries_sum {f : Byte → Byte} (hf : Function.Injective f) :
    ((List.range 256).map fun n => (f (BitVec.ofNat 8 n)).toNat).sum = 32640 :=
  (entries_perm_range hf).sum_eq.trans (by decide +kernel)

/-- Settles O44: the tables undo each other, so each is without repetition, and SBOX is the affine map of the one
inverse. -/
theorem theSBoxesAreInversePermutations : Obligations.TheSBoxesAreInversePermutations := by
  unfold Obligations.TheSBoxesAreInversePermutations
  refine ⟨fun x => ⟨invSbox_sbox x, sbox_invSbox x, sbox_ne x⟩, fun x b h => ?_,
    entries_sum (Function.LeftInverse.injective invSbox_sbox), entries_sum sbox_invSbox.injective⟩
  have hb : b = gfInverse x := by
    obtain ⟨rfl, rfl⟩ | hinv := h
    · exact gfInverse_zero.symm
    · exact eq_gfInverse_of_gfMul_eq_one hinv
  rw [hb]
  exact sbox_eq_sboxAffine x

theorem rcon_succ {j : Nat} (h : j < 9) : rcon (j + 1) = xtime (rcon j) := by
  revert j
  decide

/-- Settles O45: the entries as listed, and nine doublings. -/
theorem roundConstantsDoubleFromOne : Obligations.RoundConstantsDoubleFromOne := by
  unfold Obligations.RoundConstantsDoubleFromOne
  exact ⟨rfl, rfl, rfl, fun _ => rcon_succ⟩

end Sys2Proof.Machine
end

section
/-! PROOFS of the family 41_state_transforms: the cells each state transform gives, its inverse, and the rounds of the
ciphers. -/

namespace Sys2Proof.Machine

/-! ### The cells of each transform (R110 to R116) -/

theorem subBytes_get (s : Matrix4) (r c : Fin 4) : (subBytes s)[r][c] = sbox s[r][c] := matrixOf_get ..

theorem invSubBytes_get (s : Matrix4) (r c : Fin 4) : (invSubBytes s)[r][c] = invSbox s[r][c] := matrixOf_get ..

theorem shiftRows_get (s : Matrix4) (r c : Fin 4) : (shiftRows s)[r][c] = s[r][c + r] := matrixOf_get ..

theorem invShiftRows_get (s : Matrix4) (r c : Fin 4) : (invShiftRows s)[r][c] = s[r][c - r] := matrixOf_get ..

theorem matrixProduct_get (m s : Matrix4) (r c : Fin 4) : (matrixProduct m s)[r][c] =
    gfMul m[r][(0 : Fin 4)] s[(0 : Fin 4)][c] ^^^ gfMul m[r][(1 : Fin 4)] s[(1 : Fin 4)][c] ^^^
      gfMul m[r][(2 : Fin 4)] s[(2 : Fin 4)][c] ^^^ gfMul m[r][(3 : Fin 4)] s[(3 : Fin 4)][c] := matrixOf_get ..

theorem addRoundKey_get (s : Matrix4) (w : List Word) (round : Nat) (r c : Fin 4) :
    (addRoundKey s w round)[r][c] = s[r][c] ^^^ wordByte (w.getD (4 * round + c.val) 0) r.val := matrixOf_get ..

theorem fromState_get (s : Matrix4) {i : Nat} (h : i < 16) : (fromState s)[i] =
    s[(⟨i % 4, Nat.mod_lt i (by decide)⟩ : Fin 4)][(⟨i / 4, Nat.div_lt_of_lt_mul h⟩ : Fin 4)] := by
  simp only [fromState, Vector.getElem_ofFn, Fin.getElem_fin]

theorem toState_get (b : Block) (r c : Fin 4) : (toState b)[r][c] = b[4 * c.val + r.val] := matrixOf_get ..

/-! ### The rotation of the rows (R112, R113) -/

/-- The difference modulo 4 as R113 writes it. -/
theorem fin4_sub_val (c r : Fin 4) : (c - r).val = (c.val + 4 - r.val) % 4 := by
  rw [Fin.sub_def]
  dsimp only
  omega

/-- On the flat block ShiftRows reads byte 5i modulo 16 at byte i: one column on is 4 bytes, one row down is 1 more. -/
theorem fromState_shiftRows_toState (b : Block) :
    fromState (shiftRows (toState b)) = Vector.ofFn fun i : Fin 16 => b[5 * i.val % 16] := by
  refine Vector.ext fun i hi => ?_
  rw [fromState_get _ hi, shiftRows_get, toState_get, Vector.getElem_ofFn]
  congr 1
  rw [Fin.val_add]
  dsimp only
  omega

/-- On the flat block InvShiftRows reads byte 13i modulo 16, and 13 is the inverse of 5 modulo 16. -/
theorem fromState_invShiftRows_toState (b : Block) :
    fromState (invShiftRows (toState b)) = Vector.ofFn fun i : Fin 16 => b[13 * i.val % 16] := by
  refine Vector.ext fun i hi => ?_
  rw [fromState_get _ hi, invShiftRows_get, toState_get, Vector.getElem_ofFn]
  congr 1
  rw [fin4_sub_val]
  dsimp only
  omega

/-- Settles O46: the sixteen positions 5i and 13i modulo 16 are those listed. -/
theorem shiftRowsMovesTheBytesOfTheFlatBlock : Obligations.ShiftRowsMovesTheBytesOfTheFlatBlock := by
  unfold Obligations.ShiftRowsMovesTheBytesOfTheFlatBlock
  refine ⟨fromState_shiftRows_toState, fromState_invShiftRows_toState, fun s r c => ⟨shiftRows_get s r c, ?_⟩⟩
  rw [invShiftRows_get]
  simp only [Fin.getElem_fin, fin4_sub_val]

/-! ### The product with a matrix over GF(2^8) (R114, R115) -/

/-- Products compose: the multiplication is associative and distributes over the XOR. -/
theorem matrixProduct_assoc (a b s : Matrix4) :
    matrixProduct a (matrixProduct b s) = matrixProduct (matrixProduct a b) s := by
  refine Matrix4.ext_cells fun r c => ?_
  simp only [matrixProduct_get, gfMul_xor, xor_gfMul, gfMul_assoc]
  ac_rfl

/-- The matrix with 1 on the diagonal. -/
def identityMatrix : Matrix4 := matrixOf fun r c => if r = c then 1 else 0

theorem identityMatrix_gfMul (r k : Fin 4) (a : Byte) : gfMul identityMatrix[r][k] a = if r = k then a else 0 := by
  rw [identityMatrix, matrixOf_get]
  split
  · exact one_gfMul a
  · exact zero_gfMul a

theorem matrixProduct_identityMatrix (s : Matrix4) : matrixProduct identityMatrix s = s := by
  refine Matrix4.ext_cells fun r c => ?_
  rw [matrixProduct_get]
  simp only [identityMatrix_gfMul]
  fin_cases r <;> simp

theorem matrixProduct_cancel {a b : Matrix4} (h : matrixProduct a b = identityMatrix) (s : Matrix4) :
    matrixProduct a (matrixProduct b s) = s := by
  rw [matrixProduct_assoc, h, matrixProduct_identityMatrix]

/-- The XOR of the four entries of a row. -/
def rowSum (m : Matrix4) (r : Fin 4) : Byte :=
  m[r][(0 : Fin 4)] ^^^ m[r][(1 : Fin 4)] ^^^ m[r][(2 : Fin 4)] ^^^ m[r][(3 : Fin 4)]

/-- A column of four equal bytes is multiplied by the sum of each row. -/
theorem matrixProduct_get_of_equal_column (m : Matrix4) {s : Matrix4} {x : Byte} {c : Fin 4}
    (hs : ∀ r : Fin 4, s[r][c] = x) (r : Fin 4) : (matrixProduct m s)[r][c] = gfMul (rowSum m r) x := by
  simp only [matrixProduct_get, hs, rowSum, xor_gfMul]

/-! ### MixColumns (R114, R115) -/

theorem rowSum_mixMatrix (r : Fin 4) : rowSum mixMatrix r = 1 := by
  revert r
  decide

theorem rowSum_invMixMatrix (r : Fin 4) : rowSum invMixMatrix r = 1 := by
  revert r
  decide

theorem invMixMatrix_mixMatrix : matrixProduct invMixMatrix mixMatrix = identityMatrix := by decide

theorem mixMatrix_invMixMatrix : matrixProduct mixMatrix invMixMatrix = identityMatrix := by decide

theorem two_gfMul (a : Byte) : gfMul 2 a = xtime a :=
  (xtime_gfMul 1 a).trans (congrArg xtime (one_gfMul a))

theorem three_gfMul (a : Byte) : gfMul 3 a = xtime a ^^^ a :=
  (xor_gfMul 2 1 a).trans (congrArg₂ (· ^^^ ·) (two_gfMul a) (one_gfMul a))

/-- A column of MixColumns, with the entries of the matrix as they stand in R114. -/
theorem mixColumns_column (s : Matrix4) (c : Fin 4) :
    (mixColumns s)[0][c] = gfMul 2 s[0][c] ^^^ gfMul 3 s[1][c] ^^^ gfMul 1 s[2][c] ^^^ gfMul 1 s[3][c] ∧
    (mixColumns s)[1][c] = gfMul 1 s[0][c] ^^^ gfMul 2 s[1][c] ^^^ gfMul 3 s[2][c] ^^^ gfMul 1 s[3][c] ∧
    (mixColumns s)[2][c] = gfMul 1 s[0][c] ^^^ gfMul 1 s[1][c] ^^^ gfMul 2 s[2][c] ^^^ gfMul 3 s[3][c] ∧
    (mixColumns s)[3][c] = gfMul 3 s[0][c] ^^^ gfMul 1 s[1][c] ^^^ gfMul 1 s[2][c] ^^^ gfMul 2 s[3][c] :=
  ⟨matrixProduct_get _ s 0 c, matrixProduct_get _ s 1 c, matrixProduct_get _ s 2 c, matrixProduct_get _ s 3 c⟩

/-- Settles O47: multiplying by 2 is doubling, by 3 doubling and adding, and every row of both matrices adds up to 1. -/
theorem mixColumnsMultipliesEachColumnByTheMatrix : Obligations.MixColumnsMultipliesEachColumnByTheMatrix := by
  unfold Obligations.MixColumnsMultipliesEachColumnByTheMatrix
  refine ⟨fun s c => ?_, fun s x c hs r => ⟨?_, ?_⟩⟩
  · simpa only [one_gfMul, two_gfMul, three_gfMul] using mixColumns_column s c
  · rw [mixColumns, matrixProduct_get_of_equal_column _ hs, rowSum_mixMatrix, one_gfMul]
  · rw [invMixColumns, matrixProduct_get_of_equal_column _ hs, rowSum_invMixMatrix, one_gfMul]

/-! ### The inverses (R117) -/

theorem invSubBytes_subBytes (s : Matrix4) : invSubBytes (subBytes s) = s :=
  Matrix4.ext_cells fun r c => by rw [invSubBytes_get, subBytes_get, invSbox_sbox]

theorem subBytes_invSubBytes (s : Matrix4) : subBytes (invSubBytes s) = s :=
  Matrix4.ext_cells fun r c => by rw [subBytes_get, invSubBytes_get, sbox_invSbox]

theorem invShiftRows_shiftRows (s : Matrix4) : invShiftRows (shiftRows s) = s :=
  Matrix4.ext_cells fun r c => by simp only [invShiftRows_get, shiftRows_get, sub_add_cancel]

theorem shiftRows_invShiftRows (s : Matrix4) : shiftRows (invShiftRows s) = s :=
  Matrix4.ext_cells fun r c => by simp only [shiftRows_get, invShiftRows_get, add_sub_cancel_right]

theorem invMixColumns_mixColumns (s : Matrix4) : invMixColumns (mixColumns s) = s :=
  matrixProduct_cancel invMixMatrix_mixMatrix s

theorem mixColumns_invMixColumns (s : Matrix4) : mixColumns (invMixColumns s) = s :=
  matrixProduct_cancel mixMatrix_invMixMatrix s

theorem addRoundKey_addRoundKey (s : Matrix4) (w : List Word) (round : Nat) :
    addRoundKey (addRoundKey s w round) w round = s :=
  Matrix4.ext_cells fun r c => by
    rw [addRoundKey_get, addRoundKey_get, BitVec.xor_assoc, BitVec.xor_self, BitVec.xor_zero]

/-- Settles O48, by the seven cancellations above. -/
theorem everyTransformIsInvertible : Obligations.EveryTransformIsInvertible := by
  unfold Obligations.EveryTransformIsInvertible
  exact fun s => ⟨invSubBytes_subBytes s, subBytes_invSubBytes s, invShiftRows_shiftRows s, shiftRows_invShiftRows s,
    invMixColumns_mixColumns s, mixColumns_invMixColumns s, addRoundKey_addRoundKey s⟩

/-! ### The rounds of the ciphers (R150, R151) -/

/-- The state of the inverse cipher after `k` of its rounds `n`, `n - 1`, and so on, starting from `s`. -/
def invCipherState (s : Matrix4) (w : List Word) (n : Nat) : (k : Nat) → Matrix4
  | 0 => s
  | k + 1 => invCipherRound (invCipherState s w n k) w (n - k)

/-- After `k` of the `n` rounds the rounds `n - k` down to 1 are left. -/
theorem invCipherRounds_invCipherState (s : Matrix4) (w : List Word) {n k : Nat} (h : k ≤ n) :
    invCipherRounds (invCipherState s w n k) w (n - k) = invCipherRounds s w n := by
  induction k with
  | zero => rfl
  | succ k ih =>
    have hleft : n - k = n - (k + 1) + 1 := by omega
    rw [← ih (by omega), hleft, invCipherRounds, ← hleft, invCipherState]

theorem invCipherRounds_eq_invCipherState (s : Matrix4) (w : List Word) (n : Nat) :
    invCipherRounds s w n = invCipherState s w n n := by
  rw [← invCipherRounds_invCipherState s w le_rfl, Nat.sub_self, invCipherRounds]

/-- Settles O60: the states of the cipher are those after its rounds 1 to r, those of the inverse cipher the ones
after its rounds Nr - 1 down to r. -/
theorem theCiphersRunTheRoundsInOrder : Obligations.TheCiphersRunTheRoundsInOrder := by
  unfold Obligations.TheCiphersRunTheRoundsInOrder
  refine ⟨fun s r c => ⟨subBytes_get s r c, invSubBytes_get s r c⟩, fun b w nr hnr => ⟨?_, ?_⟩⟩
  · refine ⟨cipherRounds (addRoundKey (toState b) w 0) w, rfl, fun r hr _ => ?_, rfl⟩
    obtain ⟨n, rfl⟩ := Nat.exists_eq_add_of_le' hr
    rfl
  · refine ⟨fun r => invCipherState (addRoundKey (toState b) w nr) w (nr - 1) (nr - r), ?_, fun r hr hlt => ?_, ?_⟩
    · dsimp only
      rw [Nat.sub_self, invCipherState]
    · have hk : nr - r = nr - (r + 1) + 1 := by omega
      have hround : nr - 1 - (nr - (r + 1)) = r := by omega
      dsimp only
      rw [hk, invCipherState, hround, invCipherRound]
    · rw [invCipher, invCipherRounds_eq_invCipherState, invCipherFinal]

end Sys2Proof.Machine
end

section
/-! PROOFS of the family 42_key_schedule: what RotWord and SubWord do to a word's bytes, and the recurrence of the
schedule's words. -/

namespace Sys2Proof.Machine

/-! ### RotWord and SubWord (R130, R131) -/

theorem rotWord_be32 (b0 b1 b2 b3 : Byte) : rotWord (be32 b0 b1 b2 b3) = be32 b1 b2 b3 b0 := by
  obtain ⟨h0, h1, h2, h3⟩ := wordByte_be32 b0 b1 b2 b3
  rw [rotWord, h0, h1, h2, h3]

theorem subWord_be32 (b0 b1 b2 b3 : Byte) :
    subWord (be32 b0 b1 b2 b3) = be32 (sbox b0) (sbox b1) (sbox b2) (sbox b3) := by
  obtain ⟨h0, h1, h2, h3⟩ := wordByte_be32 b0 b1 b2 b3
  rw [subWord, h0, h1, h2, h3]

/-! ### The words of the schedule (R132) -/

theorem keyWords_getD (key : List Byte) {nk i : Nat} (h : i < nk) : (keyWords key nk).getD i 0 =
    be32 (key.getD (4 * i) 0) (key.getD (4 * i + 1) 0) (key.getD (4 * i + 2) 0) (key.getD (4 * i + 3) 0) := by
  rw [List.getD_eq_getElem?_getD, keyWords, List.getElem?_map, List.getElem?_range h, Option.map_some,
    Option.getD_some]

/-- Each appended word is derived from the finished schedule: the words it reads stand before it and are kept
(R133). -/
theorem extendSchedule_getD {nk n i : Nat} {w : List Word} (hnk : 0 < nk) (hw : 0 < w.length) (hlo : w.length ≤ i)
    (hhi : i < w.length + n) : (extendSchedule nk w n).getD i 0 = scheduleWord nk (extendSchedule nk w n) i := by
  induction n generalizing w with
  | zero => omega
  | succ n ih =>
    rw [extendSchedule]
    obtain rfl | hlt := hlo.eq_or_lt
    · obtain ⟨rest, hrest⟩ := extendSchedule_eq_append nk (w ++ [scheduleWord nk w w.length]) n
      rw [List.append_assoc] at hrest
      rw [hrest, ← scheduleWord_take hnk hw (w ++ _), List.take_left]
      simp [List.getD_eq_getElem?_getD]
    · have hlen : (w ++ [scheduleWord nk w w.length]).length = w.length + 1 := List.length_append
      exact ih (by omega) (by omega) (by omega)

/-- From Nk on, a word of the schedule is the one the second loop of R132 makes of the words before it. -/
theorem expandKey_getD (key : List Byte) {nk nr i : Nat} (hnk : 0 < nk) (hlo : nk ≤ i) (hhi : i < 4 * (nr + 1)) :
    (expandKey key nk nr).getD i 0 = scheduleWord nk (expandKey key nk nr) i := by
  have hlen := keyWords_length key nk
  exact extendSchedule_getD hnk (by omega) (by omega) (by omega)

/-- Settles O49: the words below Nk are the key's, each later one is derived from the words before it. -/
theorem theKeyScheduleFollowsItsRecurrence : Obligations.TheKeyScheduleFollowsItsRecurrence := by
  unfold Obligations.TheKeyScheduleFollowsItsRecurrence
  refine ⟨fun b0 b1 b2 b3 => ⟨rotWord_be32 b0 b1 b2 b3, subWord_be32 b0 b1 b2 b3⟩, fun v key _ =>
    ⟨expandKey_length key v, fun i hi => ?_⟩⟩
  split
  case isTrue hkey =>
    rw [← keyWords_getD key hkey, List.getD_eq_getElem?_getD, expandKey_getElem? key v.nr hkey,
      ← List.getD_eq_getElem?_getD]
  case isFalse hkey => exact expandKey_getD key (nk_pos v) (not_lt.1 hkey) hi

end Sys2Proof.Machine
end

section
/-! PROOFS of the family 43_block_cipher: the two ciphers undo each other, and what the single-block commands show. -/

namespace Sys2Proof.Machine

/-! ### The ciphers undo each other (R152) -/

/-- A round of the inverse cipher takes one round off: what the cipher's next SubBytes and ShiftRows would meet
after the round becomes what they would meet before it. -/
theorem invCipherRound_cipherRound (s : Matrix4) (w : List Word) (round : Nat) :
    invCipherRound (shiftRows (subBytes (cipherRound s w round))) w round = shiftRows (subBytes s) := by
  rw [invCipherRound, invShiftRows_shiftRows, invSubBytes_subBytes, cipherRound, addRoundKey_addRoundKey,
    invMixColumns_mixColumns]

theorem cipherRound_invCipherRound (s : Matrix4) (w : List Word) (round : Nat) :
    cipherRound (invSubBytes (invShiftRows (invCipherRound s w round))) w round = invSubBytes (invShiftRows s) := by
  rw [cipherRound, subBytes_invSubBytes, shiftRows_invShiftRows, invCipherRound, mixColumns_invMixColumns,
    addRoundKey_addRoundKey]

/-- Rounds n down to 1 of the inverse cipher take rounds 1 to n of the cipher off, the last one first. -/
theorem invCipherRounds_cipherRounds (s : Matrix4) (w : List Word) (n : Nat) :
    invCipherRounds (shiftRows (subBytes (cipherRounds s w n))) w n = shiftRows (subBytes s) := by
  induction n with
  | zero => rfl
  | succ n ih => rw [cipherRounds, invCipherRounds, invCipherRound_cipherRound, ih]

theorem cipherRounds_invCipherRounds (s : Matrix4) (w : List Word) (n : Nat) :
    cipherRounds (invSubBytes (invShiftRows (invCipherRounds s w n))) w n = invSubBytes (invShiftRows s) := by
  induction n generalizing s with
  | zero => rfl
  | succ n ih => rw [invCipherRounds, cipherRounds, ih, cipherRound_invCipherRound]

theorem invCipher_cipher (b : Block) (w : List Word) (nr : Nat) : invCipher (cipher b w nr) w nr = b := by
  rw [invCipher, cipher, toState_fromState, cipherFinal, addRoundKey_addRoundKey, invCipherRounds_cipherRounds,
    invCipherFinal, invShiftRows_shiftRows, invSubBytes_subBytes, addRoundKey_addRoundKey, fromState_toState]

theorem cipher_invCipher (b : Block) (w : List Word) (nr : Nat) : cipher (invCipher b w nr) w nr = b := by
  rw [cipher, invCipher, toState_fromState, invCipherFinal, addRoundKey_addRoundKey, cipherRounds_invCipherRounds,
    cipherFinal, subBytes_invSubBytes, shiftRows_invShiftRows, addRoundKey_addRoundKey, fromState_toState]

/-- Settles O50: the schedule is arbitrary, so that of a key is one case. -/
theorem theInverseCipherUndoesTheCipher : Obligations.TheInverseCipherUndoesTheCipher := by
  unfold Obligations.TheInverseCipherUndoesTheCipher
  exact ⟨fun b w nr => ⟨invCipher_cipher b w nr, cipher_invCipher b w nr⟩,
    fun b _ _ _ => ⟨invCipher_cipher b _ _, cipher_invCipher b _ _⟩⟩

/-! ### A command's completion by its result (R52, R66) -/

section
variable {m : Mode} {v : Variant} {s : State}

theorem exec_completedWith (hd : s.dout.wf) {out : List Byte} (hl : out.length < 2 ^ 32)
    (h : runCommand s.cfg m v s.operands = .ok out) :
    ∃ t, exec (Instr.of m v) s = .next t ∧ s.CompletedWith t out.length fun k => out.getD k 0 := by
  rw [exec_of, h]
  exact complete_ok_completedWith hd hl

theorem exec_failedWith {c : ErrClass} (h : runCommand s.cfg m v s.operands = .error c) :
    ∃ t, exec (Instr.of m v) s = .next t ∧ s.FailedWith t c := by
  rw [exec_of, h]
  exact complete_error_failedWith s c

/-- A failed common check shows LENGTH in every mode (R225). -/
theorem exec_rejects (h : ¬ s.Accepts v) : ∃ t, exec (Instr.of m v) s = .next t ∧ s.FailedWith t .length :=
  exec_failedWith (runCommand_rejects m h)

end

/-! ### The commands on one block (R153, R154) -/

/-- A text of 16 bytes is block 0 of DIN. -/
theorem State.blockOf_text {s : State} (h : s.dinLen.toNat = 16) : blockOf s.operands.text = s.textBlock 0 := by
  refine Vector.ext fun i hi => ?_
  rw [blockOf_get _ _ hi, s.text_getD (h.symm ▸ hi), State.textBlock, Vector.getElem_ofFn, Nat.mul_zero, Nat.zero_add]

/-- `encrypt` and `decrypt` differ in the direction of the cipher only. -/
theorem commandBody_singleBlock {m : Mode} (hm : m = .encrypt ∨ m = .decrypt) (cfg : Config) (v : Variant)
    (text key : List Byte) (iv : Block) : commandBody cfg m v text key iv = if text.length ≠ 16 then .error .format
      else .ok (blockCipher m (expandKey key v.nk v.nr) v.nr (blockOf text)).toList := by
  obtain rfl | rfl := hm <;> rfl

section
variable {m : Mode} (hm : m = .encrypt ∨ m = .decrypt) {v : Variant} {s : State} (h : s.Accepts v)
include hm h

theorem exec_singleBlock_completedWith (hd : s.dout.wf) (hlen : s.dinLen.toNat = 16) :
    ∃ t, exec (Instr.of m v) s = .next t ∧
      s.CompletedWith t 16 fun k => (blockCipher m (s.schedule v) v.nr (s.textBlock 0)).toList.getD k 0 := by
  have hrun : runCommand s.cfg m v s.operands = .ok (blockCipher m (s.schedule v) v.nr (s.textBlock 0)).toList := by
    rw [runCommand_accepts m h, commandBody_singleBlock hm, s.text_length, if_neg (not_not.2 hlen),
      State.blockOf_text hlen]
    rfl
  simpa only [Vector.length_toList] using exec_completedWith hd (by rw [Vector.length_toList]; decide) hrun

theorem exec_singleBlock_failedWith (hlen : s.dinLen.toNat ≠ 16) :
    ∃ t, exec (Instr.of m v) s = .next t ∧ s.FailedWith t .format :=
  exec_failedWith (by rw [runCommand_accepts m h, commandBody_singleBlock hm, s.text_length, if_pos hlen])

end

/-- Settles O28: the single-block command in the direction of the cipher. -/
theorem encryptWritesTheCipherOfTheBlock : Obligations.EncryptWritesTheCipherOfTheBlock := by
  unfold Obligations.EncryptWritesTheCipherOfTheBlock
  exact fun v s hd => ⟨fun h => exec_singleBlock_completedWith (.inl rfl) h hd,
    exec_singleBlock_failedWith (.inl rfl), exec_rejects⟩

/-- Settles O29: the single-block command in the direction of the inverse cipher. -/
theorem decryptWritesTheInverseCipherOfTheBlock : Obligations.DecryptWritesTheInverseCipherOfTheBlock := by
  unfold Obligations.DecryptWritesTheInverseCipherOfTheBlock
  exact fun v s hd => ⟨fun h => exec_singleBlock_completedWith (.inr rfl) h hd,
    exec_singleBlock_failedWith (.inr rfl), exec_rejects⟩

end Sys2Proof.Machine
end

section
/-! PROOFS of the family 44_block_modes, byte sequences: the padding and its removal, and the modes' round trips. -/

namespace Sys2Proof.Machine

/-! ### Padding and its removal (R170, R171) -/

/-- Some element from index `i` on differs from `p`. -/
theorem any_drop_ne_iff (m : List Byte) (i : Nat) (p : Byte) :
    (m.drop i).any (fun b => b != p) = true ↔ ¬ ∀ k, i ≤ k → k < m.length → m.getD k 0 = p := by
  rw [List.any_eq_true, not_forall]
  constructor
  · rintro ⟨b, hb, hne⟩
    obtain ⟨k, hk, rfl⟩ := List.mem_drop_iff_getElem.1 hb
    refine ⟨i + k, fun h => bne_iff_ne.1 hne ?_⟩
    rw [← h (by omega) (by omega), List.getD_eq_getElem m 0 (by omega)]
  · rintro ⟨k, hk⟩
    push Not at hk
    obtain ⟨hlo, hhi, hne⟩ := hk
    rw [List.getD_eq_getElem m 0 hhi] at hne
    refine ⟨m[k], List.mem_drop_iff_getElem.2 ⟨k - i, by omega, ?_⟩, bne_iff_ne.2 hne⟩
    simp only [Nat.add_sub_cancel' hlo]

/-- `paddingOk` is the two tests of `Unpad`, on the count and, with PAD_STRICT, on the pattern (R171). -/
theorem paddingOk_iff (strict : Bool) (m : List Byte) : (paddingOk strict m.length fun k => m.getD k 0) ↔
    ¬ ((m.getD (m.length - 1) 0).toNat < 1 ∨ (m.getD (m.length - 1) 0).toNat > 16) ∧
      ¬ (strict && (m.drop (m.length - (m.getD (m.length - 1) 0).toNat)).any
        fun b => b != m.getD (m.length - 1) 0) = true := by
  rw [Bool.and_eq_true, any_drop_ne_iff, not_and, not_not, not_or, Nat.not_lt, Nat.not_lt, and_assoc]
  rfl

/-- A padding R171 accepts is removed. -/
theorem unpad_of_paddingOk {strict : Bool} {m : List Byte} (h : paddingOk strict m.length fun k => m.getD k 0) :
    unpad strict m = .ok (m.take (m.length - (m.getD (m.length - 1) 0).toNat)) := by
  obtain ⟨hcount, hpattern⟩ := (paddingOk_iff strict m).1 h
  rw [unpad, if_neg hcount, if_neg hpattern]
  rfl

/-- Any other padding is an error (R171, R223). -/
theorem unpad_of_not_paddingOk {strict : Bool} {m : List Byte} (h : ¬ paddingOk strict m.length fun k => m.getD k 0) :
    unpad strict m = .error .padding := by
  rw [paddingOk_iff, not_and, not_not] at h
  rw [unpad]
  split
  next => rfl
  next hcount => exact if_pos (h hcount)

/-- A padding count is below 256, so the byte that holds it has its value (R170). -/
theorem toNat_paddingByte (n : Nat) : (BitVec.ofNat 8 (16 - n % 16)).toNat = 16 - n % 16 := by
  rw [BitVec.toNat_ofNat]
  omega

/-- The bytes `Pad` adds (R170). -/
theorem pad_getD_of_le {m : List Byte} {k : Nat} (hlo : m.length ≤ k) (hhi : k < (pad m).length) :
    (pad m).getD k 0 = BitVec.ofNat 8 (16 - m.length % 16) := by
  rw [pad_getD _ _ (by rwa [pad_length] at hhi), if_neg (by omega)]

theorem pad_getD_last (m : List Byte) :
    (pad m).getD ((pad m).length - 1) 0 = BitVec.ofNat 8 (16 - m.length % 16) := by
  have hlen := pad_length m
  exact pad_getD_of_le (by omega) (by omega)

theorem paddingOk_pad (strict : Bool) (m : List Byte) : paddingOk strict (pad m).length fun k => (pad m).getD k 0 := by
  have hlen := pad_length m
  unfold paddingOk
  dsimp only
  rw [pad_getD_last, toNat_paddingByte]
  exact ⟨by omega, by omega, fun _ k hlo hhi => pad_getD_of_le (by omega) hhi⟩

theorem unpad_pad (strict : Bool) (m : List Byte) : unpad strict (pad m) = .ok m := by
  have hcount : (pad m).length - (16 - m.length % 16) = m.length := by
    rw [pad_length]
    omega
  rw [unpad_of_paddingOk (paddingOk_pad strict m), pad_getD_last, toNat_paddingByte, hcount, pad, List.take_left]

/-- Settles O51: `Unpad` meets the padding `Pad` has added. -/
theorem unpadUndoesPad : Obligations.UnpadUndoesPad := by
  unfold Obligations.UnpadUndoesPad
  exact fun m => ⟨rfl, pad_length m, fun strict => unpad_pad strict m⟩

/-- Settles O52: the two branches of `Unpad` by `paddingOk`. -/
theorem unpadReadsOnlyTheLastByteUnlessStrict : Obligations.UnpadReadsOnlyTheLastByteUnlessStrict := by
  unfold Obligations.UnpadReadsOnlyTheLastByteUnlessStrict
  exact fun _ _ _ _ => ⟨unpad_of_paddingOk, unpad_of_not_paddingOk⟩

/-! ### Bytes and blocks of a sequence (R172) -/

theorem getD_toList (b : Block) {i : Nat} (h : i < 16) : b.toList.getD i 0 = b[i] := by
  rw [← blockOf_get _ i h, blockOf_toList]

theorem getD_eq_blockAt_get (m : List Byte) (k : Nat) : m.getD k 0 = (blockAt m (k / 16))[k % 16] := by
  rw [blockAt_get _ _ _ (Nat.mod_lt _ (by decide)), Nat.div_add_mod]

/-- Sequences of n whole blocks are equal when their blocks are. -/
theorem eq_of_blockAt_eq {a b : List Byte} {n : Nat} (ha : a.length = 16 * n) (hb : b.length = 16 * n)
    (h : ∀ j, j < n → blockAt a j = blockAt b j) : a = b := by
  refine eq_of_getD_eq (ha.trans hb.symm) fun k hk => ?_
  rw [getD_eq_blockAt_get, getD_eq_blockAt_get, h (k / 16) (by omega)]

theorem blockAt_mapBlocks (f : Block → Block) (m : List Byte) {n j : Nat} (h : j < n) :
    blockAt (mapBlocks f m n) j = f (blockAt m j) := by
  refine Vector.ext fun i hi => ?_
  rw [blockAt_get _ _ _ hi, mapBlocks_getD _ _ _ _ (by omega), show (16 * j + i) / 16 = j by omega,
    show (16 * j + i) % 16 = i by omega, getD_toList _ hi]

theorem mapBlocks_one (f : Block → Block) (m : List Byte) : mapBlocks f m 1 = (f (blockAt m 0)).toList :=
  List.append_nil _

/-! ### The round trips (R181) -/

theorem ecbDecrypt_ecbEncrypt (strict : Bool) (m : List Byte) (w : List Word) (nr : Nat) :
    ecbDecrypt strict (ecbEncrypt m w nr) w nr = .ok m := by
  have hlen : (pad m).length = 16 * ((pad m).length / 16) := by
    rw [pad_length]
    omega
  rw [ecbDecrypt, ecbEncrypt, mapBlocks_length, Nat.mul_div_cancel_left _ (by decide), mapBlocks_mapBlocks]
  simp only [invCipher_cipher]
  rw [mapBlocks_id _ _ hlen, unpad_pad]

/-- Each decrypted block sheds the chain value its plaintext block was XORed with. -/
theorem cbcDecryptFrom_cbcEncryptFrom {q : List Byte} {n : Nat} (hq : q.length = 16 * n) (w : List Word) (nr : Nat)
    (iv : Block) : cbcDecryptFrom (cbcEncryptFrom q w nr n 0 iv) w nr n 0 iv = q := by
  refine eq_of_blockAt_eq (cbcDecryptFrom_length ..) hq fun j hj => ?_
  rw [cbcDecryptFrom_block _ _ _ _ _ _ _ hj, Nat.zero_add, cbcEncryptFrom_block _ _ _ _ _ _ _ hj, invCipher_cipher,
    xorBlock_cancel, Nat.zero_add]

theorem cbcDecrypt_cbcEncrypt (strict : Bool) (m : List Byte) (w : List Word) (nr : Nat) (iv : Block) :
    cbcDecrypt strict (cbcEncrypt m w nr iv) w nr iv = .ok m := by
  have hlen : (pad m).length = 16 * ((pad m).length / 16) := by
    rw [pad_length]
    omega
  rw [cbcDecrypt, cbcEncrypt, cbcEncryptFrom_length, Nat.mul_div_cancel_left _ (by decide),
    cbcDecryptFrom_cbcEncryptFrom hlen, unpad_pad]

/-- Settles O53: decryption gives the padded text back, block by block, and the padding is removed. -/
theorem theModesRoundTripOnByteSequences : Obligations.TheModesRoundTripOnByteSequences := by
  unfold Obligations.TheModesRoundTripOnByteSequences
  exact fun strict m w nr iv => ⟨ecbDecrypt_ecbEncrypt strict m w nr, cbcDecrypt_cbcEncrypt strict m w nr iv⟩

end Sys2Proof.Machine
end

section
/-! PROOFS of the family 44_block_modes, commands: what the four commands of the block modes show, their result
lengths, their round trips and their relations to the single-block commands. -/

namespace Sys2Proof.Machine

/-! ### The command functions past their checks (R177 to R180) -/

section
variable {cfg : Config} {v : Variant} {text key : List Byte} {iv : Block}

theorem commandBody_ecbEncrypt (h : TextLengthOk cfg .ecbEncrypt text.length) :
    commandBody cfg .ecbEncrypt v text key iv = .ok (ecbEncrypt text (expandKey key v.nk v.nr) v.nr) :=
  if_neg (Nat.not_lt.2 h)

theorem commandBody_cbcEncrypt (h : TextLengthOk cfg .cbcEncrypt text.length) :
    commandBody cfg .cbcEncrypt v text key iv = .ok (cbcEncrypt text (expandKey key v.nk v.nr) v.nr iv) :=
  if_neg (Nat.not_lt.2 h)

theorem commandBody_ecbDecrypt (h : TextLengthOk cfg .ecbDecrypt text.length) :
    commandBody cfg .ecbDecrypt v text key iv = ecbDecrypt cfg.padStrict text (expandKey key v.nk v.nr) v.nr :=
  if_neg (not_or.2 ⟨h.1, not_not.2 h.2⟩)

theorem commandBody_cbcDecrypt (h : TextLengthOk cfg .cbcDecrypt text.length) :
    commandBody cfg .cbcDecrypt v text key iv = cbcDecrypt cfg.padStrict text (expandKey key v.nk v.nr) v.nr iv :=
  if_neg (not_or.2 ⟨h.1, not_not.2 h.2⟩)

end

/-- A text length a block mode does not process is LENGTH (R177 to R180). -/
theorem commandBody_of_textLength {cfg : Config} {m : Mode} (hm : m ≠ .encrypt ∧ m ≠ .decrypt) (v : Variant)
    {text : List Byte} (key : List Byte) (iv : Block) (h : ¬ TextLengthOk cfg m text.length) :
    commandBody cfg m v text key iv = .error .length := by
  cases m with
  | encrypt => exact absurd rfl hm.1
  | decrypt => exact absurd rfl hm.2
  | ecbEncrypt | cbcEncrypt => exact if_pos (Nat.lt_of_not_le h)
  | ecbDecrypt | cbcDecrypt => exact if_pos (not_and_or.1 h |>.imp_left not_not.1)
  | cmac => exact absurd trivial h

/-! ### The commands' results on accepted operands -/

section
variable {s : State} {v : Variant}

theorem runCommand_ecbEncrypt (h : s.Accepts v) (hfits : 16 * (s.dinLen.toNat / 16) + 16 ≤ s.cfg.bufCap) :
    runCommand s.cfg .ecbEncrypt v s.operands = .ok (ecbEncrypt s.operands.text (s.schedule v) v.nr) := by
  rw [runCommand_accepts _ h]
  exact commandBody_ecbEncrypt (s.text_length.symm ▸ hfits)

theorem runCommand_cbcEncrypt (h : s.Accepts v) (hfits : 16 * (s.dinLen.toNat / 16) + 16 ≤ s.cfg.bufCap) :
    runCommand s.cfg .cbcEncrypt v s.operands = .ok (cbcEncrypt s.operands.text (s.schedule v) v.nr s.ivb) := by
  rw [runCommand_accepts _ h]
  exact commandBody_cbcEncrypt (s.text_length.symm ▸ hfits)

theorem runCommand_ecbDecrypt (h : s.Accepts v) (h0 : s.dinLen.toNat ≠ 0) (h16 : s.dinLen.toNat % 16 = 0) :
    runCommand s.cfg .ecbDecrypt v s.operands = ecbDecrypt s.cfg.padStrict s.operands.text (s.schedule v) v.nr := by
  rw [runCommand_accepts _ h]
  exact commandBody_ecbDecrypt (s.text_length.symm ▸ ⟨h0, h16⟩)

theorem runCommand_cbcDecrypt (h : s.Accepts v) (h0 : s.dinLen.toNat ≠ 0) (h16 : s.dinLen.toNat % 16 = 0) :
    runCommand s.cfg .cbcDecrypt v s.operands =
      cbcDecrypt s.cfg.padStrict s.operands.text (s.schedule v) v.nr s.ivb := by
  rw [runCommand_accepts _ h]
  exact commandBody_cbcDecrypt (s.text_length.symm ▸ ⟨h0, h16⟩)

/-! ### A command's completion by its bytes (R52) -/

theorem State.CompletedWith.congr {t : State} {n : Nat} {f g : Nat → Byte} (h : s.CompletedWith t n f)
    (hfg : ∀ k, k < n → f k = g k) : s.CompletedWith t n g where
  status := h.status
  doutLen := h.doutLen
  dout k := by
    rw [h.dout k]
    split
    next hk => exact hfg k hk
    next => rfl
  phase := h.phase
  frame := h.frame

variable {m : Mode} {n : Nat} {f : Nat → Byte}

/-- A command whose output has the bytes `f` completes with them; under legal parameters it fits DOUT_LEN. -/
theorem exec_completedWith_bytes (hc : s.cfg.wf = true) (hd : s.dout.wf) {out : List Byte}
    (hrun : runCommand s.cfg m v s.operands = .ok out) (hl : out.length = n) (hf : ∀ k, k < n → out.getD k 0 = f k) :
    ∃ t, exec (Instr.of m v) s = .next t ∧ s.CompletedWith t n f := by
  have hcap := runCommand_ok_length hc hrun
  have hmax := ((Config.wf_iff s.cfg).1 hc).2.2
  obtain ⟨t, ht, hdone⟩ := exec_completedWith hd (by omega) hrun
  subst hl
  exact ⟨t, ht, hdone.congr hf⟩

theorem paddingOk_congr {strict : Bool} {g : Nat → Byte} (hn : n ≠ 0) (h : ∀ k, k < n → f k = g k) :
    paddingOk strict n f ↔ paddingOk strict n g := by
  unfold paddingOk
  rw [h (n - 1) (by omega)]
  refine and_congr_right fun _ => and_congr_right fun _ => forall_congr' fun _ => ?_
  exact forall_congr' fun k => forall_congr' fun _ => forall_congr' fun hk => by rw [h k hk]

/-- A command that removes the padding of the bytes `f` completes with those that are left, or fails with PADDING
(R171, R226). -/
theorem exec_unpads (hc : s.cfg.wf = true) (hd : s.dout.wf) {q : List Byte}
    (hrun : runCommand s.cfg m v s.operands = unpad s.cfg.padStrict q) (hn : n ≠ 0) (hl : q.length = n)
    (hf : ∀ k, k < n → q.getD k 0 = f k) :
    (paddingOk s.cfg.padStrict n f →
      ∃ t, exec (Instr.of m v) s = .next t ∧ s.CompletedWith t (n - (f (n - 1)).toNat) f) ∧
    (¬ paddingOk s.cfg.padStrict n f → ∃ t, exec (Instr.of m v) s = .next t ∧ s.FailedWith t .padding) := by
  subst hl
  rw [← paddingOk_congr hn hf, ← hf (q.length - 1) (by omega)]
  refine ⟨fun hok => ?_, fun hbad => exec_failedWith (hrun.trans (unpad_of_not_paddingOk hbad))⟩
  refine exec_completedWith_bytes hc hd (hrun.trans (unpad_of_paddingOk hok)) (by simp) fun k hk => ?_
  rw [← hf k (by omega), List.getD_eq_getElem?_getD, List.getElem?_take_of_lt hk, ← List.getD_eq_getElem?_getD]

/-- A command of a block mode whose checks fail shows LENGTH (R177 to R180, R225). -/
theorem exec_failedWith_length (hm : m ≠ .encrypt ∧ m ≠ .decrypt)
    (h : ¬ s.Accepts v ∨ ¬ TextLengthOk s.cfg m s.dinLen.toNat) :
    ∃ t, exec (Instr.of m v) s = .next t ∧ s.FailedWith t .length := by
  by_cases hacc : s.Accepts v
  · refine exec_failedWith ?_
    rw [runCommand_accepts m hacc]
    exact commandBody_of_textLength hm v _ _ (s.text_length.symm ▸ h.resolve_left (not_not.2 hacc))
  · exact exec_rejects hacc

/-! ### The blocks of the text (R172) -/

theorem State.blockAt_text {j : Nat} (h : 16 * j + 16 ≤ s.dinLen.toNat) :
    blockAt s.operands.text j = s.textBlock j := by
  refine Vector.ext fun i hi => ?_
  rw [blockAt_get _ _ _ hi, s.text_getD (by omega), State.textBlock, Vector.getElem_ofFn]

theorem State.blockAt_pad_text {j : Nat} (h : j ≤ s.dinLen.toNat / 16) :
    blockAt (pad s.operands.text) j = s.paddedBlock j := by
  refine Vector.ext fun i hi => ?_
  rw [blockAt_get _ _ _ hi, pad_getD _ _ (by rw [s.text_length]; omega), s.text_length, State.paddedBlock,
    Vector.getElem_ofFn]
  exact ite_congr rfl (fun hk => s.text_getD hk) fun _ => rfl

/-- The blocks of DOUT after a completion are those of its output. -/
theorem State.CompletedWith.resultBlock_eq {t : State} {out : List Byte}
    (h : s.CompletedWith t n fun k => out.getD k 0) {j : Nat} (hj : 16 * j + 16 ≤ n) :
    t.resultBlock j = blockAt out j := by
  refine Vector.ext fun i hi => ?_
  rw [blockAt_get _ _ _ hi, State.resultBlock, Vector.getElem_ofFn, h.dout, if_pos (by omega)]

/-! ### Byte by byte (R173 to R176) -/

theorem ecbEncrypt_text_getD {k : Nat} (hk : k < 16 * (s.dinLen.toNat / 16) + 16) :
    (ecbEncrypt s.operands.text (s.schedule v) v.nr).getD k 0 =
      (cipher (s.paddedBlock (k / 16)) (s.schedule v) v.nr).toList.getD (k % 16) 0 := by
  rw [ecbEncrypt, mapBlocks_getD _ _ _ _ (by rw [pad_length, s.text_length]; omega), s.blockAt_pad_text (by omega)]

theorem ecbDecrypt_text_getD {k : Nat} (hk : k / 16 < s.dinLen.toNat / 16) :
    (mapBlocks (fun b => invCipher b (s.schedule v) v.nr) s.operands.text (s.operands.text.length / 16)).getD k 0 =
      s.ecbPlain v k := by
  rw [getD_eq_blockAt_get, blockAt_mapBlocks _ _ (s.text_length.symm ▸ hk), s.blockAt_text (by omega)]
  rfl

theorem cbcDecrypt_text_getD {k : Nat} (hk : k / 16 < s.dinLen.toNat / 16) :
    (cbcDecryptFrom s.operands.text (s.schedule v) v.nr (s.operands.text.length / 16) 0 s.ivb).getD k 0 =
      s.cbcPlain v k := by
  rw [getD_eq_blockAt_get, cbcDecryptFrom_block _ _ _ _ _ _ _ (s.text_length.symm ▸ hk), Nat.zero_add,
    s.blockAt_text (by omega), s.blockAt_text (by omega)]
  rfl

end

/-- Settles O30: each block of the output is the cipher of the padded block. -/
theorem ecbEncryptWritesTheCipherOfEveryPaddedBlock : Obligations.EcbEncryptWritesTheCipherOfEveryPaddedBlock := by
  unfold Obligations.EcbEncryptWritesTheCipherOfEveryPaddedBlock
  refine fun v s hc hd => ⟨fun h hfits => ?_,
    fun h => exec_failedWith_length (by decide) (h.imp_right Nat.not_le_of_gt)⟩
  exact exec_completedWith_bytes hc hd (runCommand_ecbEncrypt h hfits) (by rw [ecbEncrypt_length, s.text_length])
    fun k hk => ecbEncrypt_text_getD hk

/-- Settles O31: DOUT holds the chained blocks of `CbcEncrypt`. -/
theorem cbcEncryptChainsTheCipherFromTheIv : Obligations.CbcEncryptChainsTheCipherFromTheIv := by
  unfold Obligations.CbcEncryptChainsTheCipherFromTheIv
  refine fun v s hc hd => ⟨fun h hfits => ?_,
    fun h => exec_failedWith_length (by decide) (h.imp_right Nat.not_le_of_gt)⟩
  obtain ⟨t, ht, hdone⟩ := exec_completedWith_bytes hc hd (runCommand_cbcEncrypt h hfits)
    (by rw [cbcEncrypt_length, s.text_length]) fun _ _ => rfl
  have hblock (j : Nat) (hj : j ≤ s.dinLen.toNat / 16) : t.resultBlock j = cipher (xorBlock (s.paddedBlock j)
      (if j = 0 then s.ivb else t.resultBlock (j - 1))) (s.schedule v) v.nr := by
    rw [hdone.resultBlock_eq (by omega), hdone.resultBlock_eq (j := j - 1) (by omega), cbcEncrypt,
      cbcEncryptFrom_block _ _ _ _ _ _ _ (by rw [pad_length, s.text_length]; omega), Nat.zero_add,
      s.blockAt_pad_text hj]
  refine ⟨t, ht, hdone.congr fun k hk => ?_, hblock 0 (Nat.zero_le _), fun j hj => hblock (j + 1) hj⟩
  rw [hdone.dout k, if_pos hk]

/-- Settles O32: `Unpad` on the bytes of the inverse ciphers. -/
theorem ecbDecryptWritesTheUnpaddedInverseCiphers : Obligations.EcbDecryptWritesTheUnpaddedInverseCiphers := by
  unfold Obligations.EcbDecryptWritesTheUnpaddedInverseCiphers
  refine fun v s hc hd => ⟨fun h h0 h16 => ?_,
    fun h => exec_failedWith_length (by decide) (h.imp_right fun hbad hok => hbad.elim hok.1 (absurd hok.2))⟩
  exact exec_unpads hc hd (runCommand_ecbDecrypt h h0 h16) h0 (by rw [mapBlocks_length, s.text_length]; omega)
    fun k hk => ecbDecrypt_text_getD (by omega)

/-- Settles O33: `Unpad` on the bytes of the inverse ciphers, each block XORed with the ciphertext block before it. -/
theorem cbcDecryptWritesTheUnpaddedChainedBlocks : Obligations.CbcDecryptWritesTheUnpaddedChainedBlocks := by
  unfold Obligations.CbcDecryptWritesTheUnpaddedChainedBlocks
  refine fun v s hc hd => ⟨fun h h0 h16 => ?_,
    fun h => exec_failedWith_length (by decide) (h.imp_right fun hbad hok => hbad.elim hok.1 (absurd hok.2))⟩
  exact exec_unpads hc hd (runCommand_cbcDecrypt h h0 h16) h0 (by rw [cbcDecryptFrom_length, s.text_length]; omega)
    fun k hk => cbcDecrypt_text_getD (by omega)

end Sys2Proof.Machine
end

section
/-! PROOFS of the family 44_block_modes, relations: the result lengths of the four commands, their round trips, and how
they relate to the single-block commands. -/

namespace Sys2Proof.Machine

/-! ### Result lengths (R182) -/

/-- A command that answers an output has passed its checks, and the output is its command function's (R66, R225). -/
theorem commandBody_of_runCommand_ok {cfg : Config} {m : Mode} {v : Variant} {o : Operands} {out : List Byte}
    (h : runCommand cfg m v o = .ok out) :
    TextLengthOk cfg m o.text.length ∧ commandBody cfg m v o.text (o.key v) o.ivb = .ok out := by
  cases hf : firstFailure cfg m v o with
  | some c => cases h.symm.trans (runCommand_of_failure hf)
  | none =>
    rw [o.text_length]
    exact ⟨(firstFailure_eq_none_iff.1 hf).2.2, (runCommand_of_passed hf).symm.trans h⟩

section
variable {cfg : Config} {m : Mode} {v : Variant} {o : Operands} {out : List Byte}

theorem length_of_encryption (hm : m = .ecbEncrypt ∨ m = .cbcEncrypt) (h : runCommand cfg m v o = .ok out) :
    out.length = 16 * (o.dinLen / 16) + 16 := by
  obtain ⟨hlen, hbody⟩ := commandBody_of_runCommand_ok h
  obtain rfl | rfl := hm
  · cases (commandBody_ecbEncrypt hlen).symm.trans hbody
    rw [ecbEncrypt_length, o.text_length]
  · cases (commandBody_cbcEncrypt hlen).symm.trans hbody
    rw [cbcEncrypt_length, o.text_length]

theorem length_of_decryption (hm : m = .ecbDecrypt ∨ m = .cbcDecrypt) (h : runCommand cfg m v o = .ok out) :
    out.length + 1 ≤ o.dinLen ∧ o.dinLen ≤ out.length + 16 := by
  obtain ⟨hlen, hbody⟩ := commandBody_of_runCommand_ok h
  obtain ⟨q, hq, hunpad, h0, h16⟩ : ∃ q : List Byte, q.length = 16 * (o.text.length / 16) ∧
      unpad cfg.padStrict q = .ok out ∧ o.text.length ≠ 0 ∧ o.text.length % 16 = 0 := by
    obtain rfl | rfl := hm
    · exact ⟨_, mapBlocks_length .., (commandBody_ecbDecrypt hlen).symm.trans hbody, hlen⟩
    · exact ⟨_, cbcDecryptFrom_length .., (commandBody_cbcDecrypt hlen).symm.trans hbody, hlen⟩
  rw [o.text_length] at hq h0 h16
  have hbounds := unpad_ok hunpad (by omega) (by omega)
  omega

end

theorem statusError_ne_statusDone (c : ErrClass) : statusError c ≠ statusDone := by cases c <;> decide

/-- A completion shows DONE without an error only for an output, whose length DOUT_LEN takes (R52). -/
theorem complete_statusDone {s t : State} {r : Result} (h : complete s r = .next t) (hdone : t.status = statusDone) :
    ∃ out, r = .ok out ∧ t.doutLen = BitVec.ofNat 32 out.length := by
  cases r with
  | ok out =>
    cases h
    exact ⟨out, rfl, rfl⟩
  | error c =>
    cases h
    exact absurd hdone (statusError_ne_statusDone c)

/-- Settles O55: the output's length is that of the padded text, or of the unpadded one. -/
theorem resultLengthsOfTheBlockModes : Obligations.ResultLengthsOfTheBlockModes := by
  unfold Obligations.ResultLengthsOfTheBlockModes
  intro m v s hc
  obtain ⟨t, ht, -⟩ := complete_next s (runCommand s.cfg m v s.operands)
  refine ⟨t, (exec_of m v s).trans ht, fun hdone => ?_⟩
  obtain ⟨out, hrun, hlen⟩ := complete_statusDone ht hdone
  have hmax := ((Config.wf_iff s.cfg).1 hc).2.2
  have hdout : t.doutLen.toNat = out.length := by
    have hcap := runCommand_ok_length hc hrun
    rw [hlen, BitVec.toNat_ofNat, Nat.mod_eq_of_lt (by omega)]
  rw [hdout]
  refine ⟨fun hm => ?_, fun hm => length_of_decryption hm hrun⟩
  have hout : out.length = 16 * (s.dinLen.toNat / 16) + 16 := length_of_encryption hm hrun
  omega

/-! ### The command pairs (R181) -/

section
variable {v : Variant} {s t u : State}

/-- The next state of a command that answers an output is its completion with it. -/
theorem completedWith_of_exec {m : Mode} (hc : s.cfg.wf = true) (hd : s.dout.wf) {out : List Byte}
    (hrun : runCommand s.cfg m v s.operands = .ok out) (h : exec (Instr.of m v) s = .next t) :
    s.CompletedWith t out.length fun k => out.getD k 0 := by
  obtain ⟨t', ht', hdone⟩ := exec_completedWith_bytes hc hd hrun rfl fun _ _ => rfl
  cases h.symm.trans ht'
  exact hdone

theorem State.schedule_congr (hkey : u.key = s.key) : u.schedule v = s.schedule v := by
  simp only [State.schedule, State.keyb, hkey]

theorem State.ivb_congr (hiv : u.iv = s.iv) : u.ivb = s.ivb := by simp only [State.ivb, hiv]

/-- A state whose DIN holds the output of a completion as its text. -/
theorem State.CompletedWith.text_eq {out : List Byte} (h : s.CompletedWith t out.length fun k => out.getD k 0)
    (hlen : u.dinLen = t.doutLen) (hdin : ∀ k, k < t.doutLen.toNat → u.din.read k = t.dout.read k) :
    u.operands.text = out := by
  have hout : u.dinLen.toNat = out.length := hlen ▸ h.doutLen
  refine eq_of_getD_eq (u.text_length.trans hout) fun k hk => ?_
  rw [u.text_getD (hout.symm ▸ hk), hdin k (h.doutLen.symm ▸ hk), h.dout, if_pos hk]

/-- A state that holds the output of an encryption as its text, under the same parameters and key length, is one the
decryptions process. -/
theorem accepts_of_ciphertext {m : Mode} (hm : m = .ecbEncrypt ∨ m = .cbcEncrypt) (hc : s.cfg.wf = true)
    (h : s.Accepts v) {out : List Byte} (hrun : runCommand s.cfg m v s.operands = .ok out)
    (htext : u.operands.text = out) (hcfg : u.cfg = s.cfg) (hkl : u.keyLen = s.keyLen) :
    u.Accepts v ∧ u.dinLen.toNat ≠ 0 ∧ u.dinLen.toNat % 16 = 0 := by
  have hlen : u.dinLen.toNat = out.length := htext ▸ u.text_length.symm
  have hcap := runCommand_ok_length hc hrun
  have hout := length_of_encryption hm hrun
  exact ⟨⟨hkl ▸ h.1, by rw [hcfg, hlen]; exact hcap⟩, by omega, by omega⟩

/-- A command whose output is the text of `s` leaves that text in DOUT. -/
theorem exec_returns_text {m : Mode} (hd : u.dout.wf) (hrun : runCommand u.cfg m v u.operands = .ok s.operands.text) :
    ∃ r, exec (Instr.of m v) u = .next r ∧ r.status = 0x00000002 ∧ r.doutLen = s.dinLen ∧
      ∀ k, k < s.dinLen.toNat → r.dout.read k = s.din.read k := by
  obtain ⟨r, hr, hdone⟩ := exec_completedWith hd (s.text_length.symm ▸ s.dinLen.isLt) hrun
  refine ⟨r, hr, hdone.status, BitVec.eq_of_toNat_eq (hdone.doutLen.trans s.text_length), fun k hk => ?_⟩
  rw [hdone.dout k, if_pos (s.text_length.symm ▸ hk), s.text_getD hk]

end

/-- Settles O54: the second state's text is the output of the encryption, whose decryption is the text of the first. -/
theorem decryptingTheResultOfAnEncryptCommandGivesTheTextBack :
    Obligations.DecryptingTheResultOfAnEncryptCommandGivesTheTextBack := by
  unfold Obligations.DecryptingTheResultOfAnEncryptCommandGivesTheTextBack
  intro v s t u hc hds hdu h hfits hcfg hkl hkey hdl hdin
  constructor
  · intro hexec
    have hrun := runCommand_ecbEncrypt h hfits
    have htext := (completedWith_of_exec hc hds hrun hexec).text_eq hdl hdin
    obtain ⟨hu, h0, h16⟩ := accepts_of_ciphertext (.inl rfl) hc h hrun htext hcfg hkl
    refine exec_returns_text hdu ?_
    rw [runCommand_ecbDecrypt hu h0 h16, htext, State.schedule_congr hkey, ecbDecrypt_ecbEncrypt]
  · intro hexec hiv
    have hrun := runCommand_cbcEncrypt h hfits
    have htext := (completedWith_of_exec hc hds hrun hexec).text_eq hdl hdin
    obtain ⟨hu, h0, h16⟩ := accepts_of_ciphertext (.inr rfl) hc h hrun htext hcfg hkl
    refine exec_returns_text hdu ?_
    rw [runCommand_cbcDecrypt hu h0 h16, htext, State.schedule_congr hkey, State.ivb_congr hiv, cbcDecrypt_cbcEncrypt]

/-! ### The block modes and the single-block commands (R183) -/

section
variable {v : Variant} {s : State}

/-- A block of the padded text that has no padding in it is one of the text. -/
theorem State.paddedBlock_eq_textBlock {j : Nat} (h : 16 * j + 16 ≤ s.dinLen.toNat) :
    s.paddedBlock j = s.textBlock j := by
  refine Vector.ext fun i hi => ?_
  rw [State.paddedBlock, State.textBlock, Vector.getElem_ofFn, Vector.getElem_ofFn, if_pos (by dsimp only; omega)]

/-- The padding block of a 16-byte text is a text of sixteen bytes 0x10 (R170). -/
theorem State.paddedBlock_one {u : State} (h : s.dinLen.toNat = 16) (hu : ∀ k, k < 16 → u.din.read k = 0x10) :
    s.paddedBlock 1 = u.textBlock 0 := by
  refine Vector.ext fun i hi => ?_
  rw [State.paddedBlock, State.textBlock, Vector.getElem_ofFn, Vector.getElem_ofFn, if_neg (by omega), h,
    Nat.mul_zero, Nat.zero_add, hu i hi]
  rfl

theorem State.ivb_of_zero (h : s.iv = Vector.replicate 4 0x00000000) : s.ivb = zeroBlock := by
  rw [State.ivb, h]
  decide

theorem xorBlock_zeroBlock (b : Block) : xorBlock b zeroBlock = b := by
  refine Vector.ext fun i hi => ?_
  have hzero : (zeros 16).getD i 0 = 0 := List.getD_replicate _ hi
  rw [xorBlock_get _ _ _ hi, zeroBlock, blockOf_get _ _ hi, hzero]
  exact BitVec.xor_zero

/-- Byte `i` of block `j` of DOUT after `ecb-encrypt`. -/
theorem dout_read_of_ecbEncrypt {t : State} {n : Nat} (h : s.CompletedWith t n fun k =>
    (cipher (s.paddedBlock (k / 16)) (s.schedule v) v.nr).toList.getD (k % 16) 0) {j i k : Nat} (hi : i < 16)
    (hk : k = 16 * j + i) (hn : k < n) :
    t.dout.read k = (cipher (s.paddedBlock j) (s.schedule v) v.nr).toList.getD i 0 := by
  rw [h.dout k, if_pos hn, show k / 16 = j by omega, show k % 16 = i by omega]

/-- On one block `ecb-decrypt` removes the padding of the inverse cipher's 16 bytes (R174). -/
theorem runCommand_ecbDecrypt_oneBlock (h : s.Accepts v) (hlen : s.dinLen.toNat = 16) :
    runCommand s.cfg .ecbDecrypt v s.operands =
      unpad s.cfg.padStrict (invCipher (s.textBlock 0) (s.schedule v) v.nr).toList := by
  rw [runCommand_ecbDecrypt h (by omega) (by omega), ecbDecrypt, s.text_length, hlen, Nat.div_self (by decide),
    mapBlocks_one, s.blockAt_text (by omega)]

/-- DOUT after a single-block command, read as bytes. -/
theorem State.CompletedWith.readBytes_block {t : State} {b : Block}
    (h : s.CompletedWith t 16 fun k => b.toList.getD k 0) : t.dout.readBytes 0 16 = b.toList := by
  have hl : b.toList.length = 16 := b.length_toList
  generalize b.toList = out at h hl ⊢
  rw [← hl] at h ⊢
  exact h.readBytes_dout

end

/-- Settles O56 from the completions of O28 to O31: the relation of `ecb-encrypt` to `encrypt`, then that of
`ecb-decrypt` to `decrypt` by what `Unpad` answers, then that of the two encryptions under the zero IV. -/
theorem blockModesRelateToTheSingleBlockCommands : Obligations.BlockModesRelateToTheSingleBlockCommands := by
  unfold Obligations.BlockModesRelateToTheSingleBlockCommands
  refine fun v s hc hd h => ⟨fun hlen => ?_, fun hlen => ?_, fun hfits hiv => ?_⟩
  · have h32 := ((Config.wf_iff s.cfg).1 hc).2.1
    obtain ⟨t, ht, htdone⟩ := (ecbEncryptWritesTheCipherOfEveryPaddedBlock v s hc hd).1 h (by omega)
    obtain ⟨r, hr, hrdone⟩ := (encryptWritesTheCipherOfTheBlock v s hd).1 h hlen
    refine ⟨t, r, ht, hr, htdone.status, htdone.doutLen.trans (by omega), hrdone.status, hrdone.doutLen,
      fun k hk => ?_, fun u hdu hcfg hkl hkey hul hpad => ?_⟩
    · rw [dout_read_of_ecbEncrypt htdone (j := 0) hk (by omega) (by omega), s.paddedBlock_eq_textBlock (by omega),
        hrdone.dout k, if_pos hk]
    · have hu : u.Accepts v := ⟨hkl ▸ h.1, by rw [hcfg]; omega⟩
      obtain ⟨q, hq, hqdone⟩ := (encryptWritesTheCipherOfTheBlock v u hdu).1 hu hul
      refine ⟨q, hq, hqdone.status, fun k hk => ?_⟩
      rw [dout_read_of_ecbEncrypt htdone (j := 1) hk (by omega) (by omega), State.paddedBlock_one hlen hpad,
        hqdone.dout k, if_pos hk, State.schedule_congr hkey]
  · obtain ⟨r, hr, hrdone⟩ := (decryptWritesTheInverseCipherOfTheBlock v s hd).1 h hlen
    have hrun := runCommand_ecbDecrypt_oneBlock h hlen
    cases hunpad : unpad s.cfg.padStrict (invCipher (s.textBlock 0) (s.schedule v) v.nr).toList with
    | ok out =>
      obtain ⟨t, ht, htdone⟩ := exec_completedWith_bytes hc hd (hrun.trans hunpad) rfl fun _ _ => rfl
      refine ⟨t, r, ht, hr, hrdone.status, hrdone.doutLen, ?_⟩
      rw [hrdone.readBytes_block, hunpad]
      exact ⟨htdone.status, htdone.doutLen, htdone.readBytes_dout⟩
    | error c =>
      obtain ⟨t, ht, hfail⟩ := exec_failedWith (hrun.trans hunpad)
      refine ⟨t, r, ht, hr, hrdone.status, hrdone.doutLen, ?_⟩
      rw [hrdone.readBytes_block, hunpad]
      exact hfail.status
  · obtain ⟨t, ht, htdone, hfirst, -⟩ := (cbcEncryptChainsTheCipherFromTheIv v s hc hd).1 h hfits
    obtain ⟨r, hr, hrdone⟩ := (ecbEncryptWritesTheCipherOfEveryPaddedBlock v s hc hd).1 h hfits
    refine ⟨t, r, ht, hr, htdone.status, hrdone.status, fun k hk => ?_⟩
    rw [State.ivb_of_zero hiv, xorBlock_zeroBlock] at hfirst
    rw [dout_read_of_ecbEncrypt hrdone (j := 0) hk (by omega) (by omega), ← hfirst, getD_toList _ hk,
      State.resultBlock, Vector.getElem_ofFn, Nat.mul_zero, Nat.zero_add]

end Sys2Proof.Machine
end

section
/-! PROOFS of the family 45_cmac, doubling: `Dbl` as arithmetic on the 128-bit number. -/

namespace Sys2Proof.Machine

/-! ### Blocks as 128-bit numbers (R200) -/

/-- The number a byte sequence is, first byte the most significant. -/
def bytesNumber (l : List Byte) : Nat := l.foldl (fun n byte => n * 256 + byte.toNat) 0

/-- The 128-bit number a block is, byte 0 the most significant (R200). -/
def blockNumber (b : Block) : Nat := bytesNumber b.toList

theorem bytesNumber_append_singleton (l : List Byte) (b : Byte) :
    bytesNumber (l ++ [b]) = 2 ^ 8 * bytesNumber l + b.toNat := by
  rw [bytesNumber, List.foldl_append, Nat.mul_comm]
  rfl

/-- Bit `k` stands in byte `k div 8`, counted from the last. -/
theorem bytesNumber_testBit (l : List Byte) (k : Nat) :
    (bytesNumber l).testBit k = (l.reverse.getD (k / 8) 0).getLsbD (k % 8) := by
  induction l using List.reverseRecOn generalizing k with
  | nil => simp [bytesNumber]
  | append_singleton l b ih =>
    rw [bytesNumber_append_singleton, Nat.testBit_two_pow_mul_add _ b.isLt, List.reverse_concat]
    split
    next hlow => rw [Nat.div_eq_of_lt hlow, Nat.mod_eq_of_lt hlow, BitVec.testBit_toNat, List.getD_cons_zero]
    next hhigh =>
      rw [ih, show k / 8 = (k - 8) / 8 + 1 by omega, show k % 8 = (k - 8) % 8 by omega, List.getD_cons_succ]

section
variable (b : Block) {k : Nat}

theorem blockNumber_testBit (hk : k < 128) : (blockNumber b).testBit k = b[15 - k / 8].getLsbD (k % 8) := by
  have hl : b.toList.length = 16 := b.length_toList
  rw [blockNumber, bytesNumber_testBit, List.getD_reverse _ (by omega), hl, getD_toList b (by omega)]

theorem blockNumber_testBit_of_le (hk : 128 ≤ k) : (blockNumber b).testBit k = false := by
  have hl : b.toList.reverse.length = 16 := by rw [List.length_reverse, b.length_toList]
  rw [blockNumber, bytesNumber_testBit, List.getD_eq_default _ _ (by omega)]
  exact BitVec.getLsbD_zero

theorem blockNumber_lt : blockNumber b < 2 ^ 128 :=
  Nat.lt_pow_two_of_testBit _ fun _ hk => blockNumber_testBit_of_le b hk

/-- The top bit of byte 0 tells the numbers below 2^127 from the others. -/
theorem topBit_eq_false_iff : b[0].getLsbD 7 = false ↔ blockNumber b < 2 ^ 127 := by
  have htop : (blockNumber b).testBit 127 = b[0].getLsbD 7 := blockNumber_testBit b (by decide)
  rw [← htop]
  refine ⟨fun hclear => Nat.lt_of_not_le fun hle => ?_, Nat.testBit_lt_two_pow⟩
  have hset := Nat.testBit_of_two_pow_le_and_two_pow_add_one_gt hle (blockNumber_lt b)
  exact Bool.false_ne_true (hclear.symm.trans hset)

/-- A byte XORed into byte 15 is XORed into the number. -/
theorem blockNumber_xorLast (c : Byte) : blockNumber (b.set 15 (b[15] ^^^ c)) = blockNumber b ^^^ c.toNat := by
  refine Nat.eq_of_testBit_eq fun k => ?_
  rw [Nat.testBit_xor, BitVec.testBit_toNat]
  by_cases hk : k < 128
  · rw [blockNumber_testBit _ hk, blockNumber_testBit _ hk, Vector.getElem_set]
    by_cases hlast : k < 8
    · simp only [show 15 - k / 8 = 15 by omega, if_true, Nat.mod_eq_of_lt hlast, BitVec.getLsbD_xor]
    · rw [if_neg (by omega), BitVec.getLsbD_of_ge c k (Nat.le_of_not_lt hlast), Bool.xor_false]
  · rw [blockNumber_testBit_of_le _ (by omega), blockNumber_testBit_of_le _ (by omega),
      BitVec.getLsbD_of_ge c k (by omega)]
    rfl

end

/-! ### Doubling (R200) -/

/-- The byte that holds one carried bit. -/
theorem carryByte_getLsbD (c : Bool) (j : Nat) : (if c then 1#8 else 0#8).getLsbD j = (decide (j = 0) && c) := by
  cases c with
  | false => rw [Bool.and_false]; exact BitVec.getLsbD_zero
  | true => simp [BitVec.getLsbD_one]

/-- Bit 0 of a shifted byte is the top bit of the next byte, the other bits are those below them. -/
theorem dblShift_getLsbD (x : Block) {i j : Nat} (hi : i < 16) (hj : j < 8) : (dblShift x)[i].getLsbD j =
    if j = 0 then (if h : i < 15 then x[i + 1].getLsbD 7 else false) else x[i].getLsbD (j - 1) := by
  have hcarry : (if h : i < 15 then (if x[i + 1].getLsbD 7 then 1#8 else 0#8) else 0#8).getLsbD j =
      (decide (j = 0) && if h : i < 15 then x[i + 1].getLsbD 7 else false) := by
    split
    next => exact carryByte_getLsbD _ _
    next => exact carryByte_getLsbD false _
  have hbits : (dblShift x)[i].getLsbD j = ((x[i] <<< 1).getLsbD j ||
      (if h : i < 15 then (if x[i + 1].getLsbD 7 then 1#8 else 0#8) else 0#8).getLsbD j) := by
    rw [dblShift, Vector.getElem_ofFn, BitVec.getLsbD_or]
    rfl
  rw [hbits, hcarry, BitVec.getLsbD_shiftLeft]
  by_cases hzero : j = 0 <;> simp [hzero, hj]

/-- Bit `k - 1` of the number becomes bit `k`. -/
theorem blockNumber_dblShift_testBit (x : Block) {k : Nat} (hk : k < 128) :
    (blockNumber (dblShift x)).testBit k = (decide (1 ≤ k) && (blockNumber x).testBit (k - 1)) := by
  rw [blockNumber_testBit _ hk, blockNumber_testBit _ (by omega), dblShift_getLsbD _ (by omega) (by omega)]
  by_cases hlow : k % 8 = 0
  · by_cases hfirst : k = 0
    · subst hfirst
      rfl
    · simp only [if_pos hlow, dif_pos (show 15 - k / 8 < 15 by omega), decide_eq_true (show 1 ≤ k by omega),
        Bool.true_and, show 15 - (k - 1) / 8 = 15 - k / 8 + 1 by omega, show (k - 1) % 8 = 7 by omega]
  · simp only [if_neg hlow, decide_eq_true (show 1 ≤ k by omega), Bool.true_and,
      show (k - 1) / 8 = k / 8 by omega, show (k - 1) % 8 = k % 8 - 1 by omega]

theorem blockNumber_dblShift (x : Block) : blockNumber (dblShift x) = 2 * blockNumber x % 2 ^ 128 := by
  refine Nat.eq_of_testBit_eq fun k => ?_
  rw [Nat.testBit_mod_two_pow, Nat.mul_comm, ← pow_one 2, Nat.testBit_mul_two_pow]
  by_cases hk : k < 128
  · rw [blockNumber_dblShift_testBit x hk, decide_eq_true hk, Bool.true_and]
  · rw [blockNumber_testBit_of_le _ (Nat.le_of_not_lt hk), decide_eq_false hk, Bool.false_and]

/-- Settles O57: the shift doubles, and the constant is XORed in when the shift has dropped the top bit. -/
theorem dblDoublesThe128BitNumber : Obligations.DblDoublesThe128BitNumber := by
  unfold Obligations.DblDoublesThe128BitNumber
  intro x
  show blockNumber (dbl x) = if blockNumber x < 2 ^ 127 then 2 * blockNumber x % 2 ^ 128
    else (2 * blockNumber x % 2 ^ 128) ^^^ 0x87
  rw [← blockNumber_dblShift, dbl]
  by_cases htop : blockNumber x < 2 ^ 127
  · rw [if_pos htop, (topBit_eq_false_iff x).2 htop]
    rfl
  · rw [if_neg htop, if_pos (Bool.of_not_eq_false (mt (topBit_eq_false_iff x).1 htop))]
    exact blockNumber_xorLast _ _

end Sys2Proof.Machine
end

section
/-! PROOFS of the family 45_cmac, command: the last block, the accumulator and the tag the command `cmac` writes. -/

namespace Sys2Proof.Machine

/-! ### The last block of a message (R202) -/

theorem slice_length_eq_drop (m : List Byte) (i : Nat) : slice m i m.length = m.drop i :=
  List.take_of_length_le (List.length_drop ▸ Nat.le_refl _)

theorem getD_drop (m : List Byte) (i k : Nat) : (m.drop i).getD k 0 = m.getD (i + k) 0 := by
  rw [List.getD_eq_getElem?_getD, List.getElem?_drop, ← List.getD_eq_getElem?_getD]

theorem zeros_getD (n k : Nat) : (zeros n).getD k 0 = 0 := List.getElem?_getD_replicate_default_eq ..

/-- The bytes of a sequence that one byte and zeros are appended to. -/
theorem getD_append_singleton_zeros (q : List Byte) (b : Byte) (n k : Nat) :
    (q ++ [b] ++ zeros n).getD k 0 = if k < q.length then q.getD k 0 else if k = q.length then b else 0 := by
  rw [List.append_assoc]
  by_cases hq : k < q.length
  · rw [if_pos hq, List.getD_append _ _ _ _ hq]
  · rw [if_neg hq, List.getD_append_right _ _ _ _ (Nat.le_of_not_lt hq)]
    by_cases hlast : k = q.length
    · rw [if_pos hlast, hlast, Nat.sub_self]
      rfl
    · rw [if_neg hlast, List.getD_append_right _ _ _ _ (by rw [List.length_singleton]; omega), zeros_getD]

/-- Byte `i` of the last block (R202). -/
theorem cmacLast_get (m : List Byte) (k1 k2 : Block) {i : Nat} (hi : i < 16) : (cmacLast m k1 k2)[i] =
    if 0 < m.length ∧ m.length % 16 = 0 then m.getD (16 * (cmacBlocks m.length - 1) + i) 0 ^^^ k1[i]
    else (if 16 * (cmacBlocks m.length - 1) + i < m.length then m.getD (16 * (cmacBlocks m.length - 1) + i) 0
      else if 16 * (cmacBlocks m.length - 1) + i = m.length then 0x80 else 0x00) ^^^ k2[i] := by
  have hstart : 16 * (cmacBlocks m.length - 1) ≤ m.length := by
    unfold cmacBlocks
    omega
  unfold cmacLast
  simp only [slice_length_eq_drop]
  split
  next => rw [xorBlock_get _ _ _ hi, blockOf_get _ _ hi, getD_drop]
  next =>
    rw [xorBlock_get _ _ _ hi, blockOf_get _ _ hi, getD_append_singleton_zeros, getD_drop, List.length_drop]
    simp only [Nat.lt_sub_iff_add_lt', eq_tsub_iff_add_eq_of_le hstart, Nat.add_comm i]

/-! ### The tag (R203 to R205) -/

/-- The accumulator takes the cipher of itself XOR the next block (R203). -/
theorem cmacChain_succ (m : List Byte) (w : List Word) (nr n j : Nat) (chain : Block) :
    cmacChain m w nr (n + 1) j chain = cipher (xorBlock (cmacChain m w nr n j chain) (blockAt m (j + n))) w nr := by
  induction n generalizing j chain with
  | zero => rfl
  | succ n ih => rw [cmacChain, ih, cmacChain, Nat.add_right_comm, Nat.add_assoc]

section
variable {s : State} {v : Variant}

theorem State.cmacBlocks_text (s : State) : cmacBlocks s.operands.text.length = s.messageBlocks := by
  rw [s.text_length]
  rfl

theorem State.cmacLast_text (s : State) (k1 k2 : Block) :
    cmacLast s.operands.text k1 k2 = s.lastMessageBlock k1 k2 := by
  refine Vector.ext fun i hi => ?_
  rw [cmacLast_get _ _ _ hi, s.cmacBlocks_text, s.text_length, State.lastMessageBlock, Vector.getElem_ofFn]
  refine ite_congr rfl (fun hfull => ?_) fun _ => congrArg (· ^^^ k2[i]) (ite_congr rfl s.text_getD fun _ => rfl)
  have hlast : 16 * (s.messageBlocks - 1) + i < s.dinLen.toNat := by
    unfold State.messageBlocks
    omega
  rw [s.text_getD hlast]
  rfl

/-- The accumulator after the first `j` blocks of the message in DIN (R203). -/
def State.accumulator (s : State) (v : Variant) (j : Nat) : Block :=
  cmacChain s.operands.text (s.schedule v) v.nr j 0 zeroBlock

theorem State.accumulator_succ {j : Nat} (hj : j + 1 < s.messageBlocks) :
    s.accumulator v (j + 1) = cipher (xorBlock (s.accumulator v j) (s.textBlock j)) (s.schedule v) v.nr := by
  have hblock : 16 * j + 16 ≤ s.dinLen.toNat := by
    unfold State.messageBlocks at hj
    omega
  rw [State.accumulator, cmacChain_succ, Nat.zero_add, s.blockAt_text hblock]
  rfl

theorem zeroBlock_eq_replicate : zeroBlock = Vector.replicate 16 0 := by decide

/-- The command `cmac` on accepted operands answers the cipher of the accumulator XOR the last block (R204, R205). -/
theorem runCommand_cmac (h : s.Accepts v) : runCommand s.cfg .cmac v s.operands =
    .ok (cipher (xorBlock (s.accumulator v (s.messageBlocks - 1)) (s.lastMessageBlock
      (dbl (cipher (Vector.replicate 16 0) (s.schedule v) v.nr))
      (dbl (dbl (cipher (Vector.replicate 16 0) (s.schedule v) v.nr))))) (s.schedule v) v.nr).toList := by
  rw [runCommand_accepts _ h, commandBody, cmdCmac, cmac, s.cmacBlocks_text, s.cmacLast_text, subkeys, cmacL,
    ← zeroBlock_eq_replicate]
  rfl

end

/-- Settles O34: the accumulator is the loop's own, after the first `j` blocks. -/
theorem cmacWritesTheTagOfTheMessage : Obligations.CmacWritesTheTagOfTheMessage := by
  unfold Obligations.CmacWritesTheTagOfTheMessage
  refine fun v s hd => ⟨fun h => ?_, exec_rejects⟩
  obtain ⟨t, ht, hdone⟩ := exec_completedWith hd (by rw [Vector.length_toList]; decide) (runCommand_cmac h)
  rw [Vector.length_toList] at hdone
  exact ⟨t, s.accumulator v, ht, zeroBlock_eq_replicate, fun j hj => State.accumulator_succ hj, hdone⟩

end Sys2Proof.Machine
end

section
/-! PROOFS of the family 60_exceptions: which check decides the STATUS a command completes with, the classes each mode
can report, and what an error leaves of the result. -/

namespace Sys2Proof.Machine

/-! ### The STATUS of a command (R52, R226) -/

/-- A command completes with the STATUS of its result. -/
theorem exec_status (m : Mode) (v : Variant) (s : State) :
    ∃ t, exec (Instr.of m v) s = .next t ∧ t.status = (runCommand s.cfg m v s.operands).status := by
  rw [exec_of]
  cases runCommand s.cfg m v s.operands with
  | ok out => exact ⟨_, complete_ok s out, rfl⟩
  | error c => exact ⟨_, complete_error s c, rfl⟩

/-- A command whose checks pass and which removes no padding succeeds (R225). -/
theorem runCommand_status_of_passed {cfg : Config} {m : Mode} {v : Variant} {o : Operands}
    (h : firstFailure cfg m v o = none) (hm : stripsPadding m = false) :
    (runCommand cfg m v o).status = statusDone := by
  have hlen : TextLengthOk cfg m o.text.length := o.text_length.symm ▸ (firstFailure_eq_none_iff.1 h).2.2
  rw [runCommand_of_passed h, ← finalResult_outputFrom hlen (old := zeroBlock) fun _ => rfl, finalResult, hm]
  rfl

/-- `Unpad` of the bytes `f` succeeds or is PADDING, as the padding is right or wrong (R171, R223). -/
theorem unpad_status (strict : Bool) {q : List Byte} {n : Nat} {f : Nat → Byte} (hn : n ≠ 0) (hl : q.length = n)
    (hf : ∀ k, k < n → q.getD k 0 = f k) :
    (paddingOk strict n f → (unpad strict q).status = statusDone) ∧
      (¬ paddingOk strict n f → (unpad strict q).status = statusError .padding) := by
  subst hl
  rw [← paddingOk_congr hn hf]
  exact ⟨fun hok => congrArg Result.status (unpad_of_paddingOk hok),
    fun hbad => congrArg Result.status (unpad_of_not_paddingOk hbad)⟩

section
variable {m : Mode} {v : Variant} {s : State}

theorem firstFailure_of_accepts (h : s.Accepts v) (hlen : TextLengthOk s.cfg m s.dinLen.toNat) :
    firstFailure s.cfg m v s.operands = none :=
  firstFailure_eq_none_iff.2 ⟨h.1, h.2, hlen⟩

theorem runCommand_status_of_rejects (h : ¬ s.Accepts v) :
    (runCommand s.cfg m v s.operands).status = statusError .length :=
  congrArg Result.status (runCommand_rejects m h)

/-- A single-block text of another length is FORMAT (R153, R154, R221). -/
theorem runCommand_status_singleBlock (hm : m = .encrypt ∨ m = .decrypt) (h : s.Accepts v)
    (hlen : s.dinLen.toNat ≠ 16) : (runCommand s.cfg m v s.operands).status = statusError .format := by
  rw [runCommand_accepts m h, commandBody_singleBlock hm, s.text_length, if_pos hlen]
  rfl

/-- A text length a block mode does not process is LENGTH (R177 to R180, R222). -/
theorem runCommand_status_of_textLength (hm : m ≠ .encrypt ∧ m ≠ .decrypt) (h : s.Accepts v)
    (hlen : ¬ TextLengthOk s.cfg m s.dinLen.toNat) :
    (runCommand s.cfg m v s.operands).status = statusError .length := by
  rw [runCommand_accepts m h, commandBody_of_textLength hm v _ _ (s.text_length.symm ▸ hlen)]
  rfl

theorem runCommand_status_ecbDecrypt (h : s.Accepts v) (h0 : s.dinLen.toNat ≠ 0) (h16 : s.dinLen.toNat % 16 = 0) :
    (paddingOk s.cfg.padStrict s.dinLen.toNat (s.ecbPlain v) →
      (runCommand s.cfg .ecbDecrypt v s.operands).status = statusDone) ∧
    (¬ paddingOk s.cfg.padStrict s.dinLen.toNat (s.ecbPlain v) →
      (runCommand s.cfg .ecbDecrypt v s.operands).status = statusError .padding) := by
  rw [runCommand_ecbDecrypt h h0 h16]
  exact unpad_status _ h0 (by rw [mapBlocks_length, s.text_length]; omega) fun k hk => ecbDecrypt_text_getD (by omega)

theorem runCommand_status_cbcDecrypt (h : s.Accepts v) (h0 : s.dinLen.toNat ≠ 0) (h16 : s.dinLen.toNat % 16 = 0) :
    (paddingOk s.cfg.padStrict s.dinLen.toNat (s.cbcPlain v) →
      (runCommand s.cfg .cbcDecrypt v s.operands).status = statusDone) ∧
    (¬ paddingOk s.cfg.padStrict s.dinLen.toNat (s.cbcPlain v) →
      (runCommand s.cfg .cbcDecrypt v s.operands).status = statusError .padding) := by
  rw [runCommand_cbcDecrypt h h0 h16]
  exact unpad_status _ h0 (by rw [cbcDecryptFrom_length, s.text_length]; omega)
    fun k hk => cbcDecrypt_text_getD (by omega)

end

/-! ### The order of the checks (R225) and the classes of a mode (R236) -/

/-- Settles O25: the common checks, then for each mode its own check, then the padding where the mode removes one. -/
theorem theFirstFailingCheckIsReported : Obligations.TheFirstFailingCheckIsReported := by
  unfold Obligations.TheFirstFailingCheckIsReported
  intro m v s
  obtain ⟨t, ht, hstatus⟩ := exec_status m v s
  refine ⟨t, ht, ?_⟩
  rw [hstatus]
  by_cases hk : s.keyLen.toNat ≠ v.keyBytes
  · rw [if_pos hk]
    exact runCommand_status_of_rejects fun hacc => hk hacc.1
  by_cases hd : s.dinLen.toNat > s.cfg.bufCap
  · rw [if_neg hk, if_pos hd]
    exact runCommand_status_of_rejects fun hacc => Nat.not_le_of_gt hd hacc.2
  rw [if_neg hk, if_neg hd]
  have hacc : s.Accepts v := ⟨not_not.1 hk, Nat.le_of_not_gt hd⟩
  cases m with
  | encrypt | decrypt =>
    dsimp only
    split
    next hlen => exact runCommand_status_singleBlock (by decide) hacc hlen
    next hlen => exact runCommand_status_of_passed (firstFailure_of_accepts hacc (not_not.1 hlen)) rfl
  | ecbEncrypt | cbcEncrypt =>
    dsimp only
    split
    next hlen => exact runCommand_status_of_textLength (by decide) hacc (Nat.not_le_of_gt hlen)
    next hlen => exact runCommand_status_of_passed (firstFailure_of_accepts hacc (Nat.le_of_not_gt hlen)) rfl
  | ecbDecrypt =>
    dsimp only
    split
    next hlen => exact runCommand_status_of_textLength (by decide) hacc fun hok => hlen.elim hok.1 (absurd hok.2)
    next hlen =>
      obtain ⟨h0, h16⟩ := not_or.1 hlen
      exact runCommand_status_ecbDecrypt hacc h0 (not_not.1 h16)
  | cbcDecrypt =>
    dsimp only
    split
    next hlen => exact runCommand_status_of_textLength (by decide) hacc fun hok => hlen.elim hok.1 (absurd hok.2)
    next hlen =>
      obtain ⟨h0, h16⟩ := not_or.1 hlen
      exact runCommand_status_cbcDecrypt hacc h0 (not_not.1 h16)
  | cmac => exact runCommand_status_of_passed (firstFailure_of_accepts hacc trivial) rfl

/-- Settles O27 from O25: the classes of a mode are those of the checks it makes. -/
theorem eachModeReportsOnlyItsErrorClasses : Obligations.EachModeReportsOnlyItsErrorClasses := by
  unfold Obligations.EachModeReportsOnlyItsErrorClasses
  intro i s
  obtain ⟨t, ht, hstatus⟩ := theFirstFailingCheckIsReported i.mode i.variant s
  rw [Instr.of_mode_variant] at ht
  refine ⟨t, ht, ?_⟩
  generalize i.mode = m at hstatus ⊢
  by_cases hk : s.keyLen.toNat ≠ i.variant.keyBytes
  · rw [if_pos hk] at hstatus
    cases m <;> simp [hstatus]
  by_cases hd : s.dinLen.toNat > s.cfg.bufCap
  · rw [if_neg hk, if_pos hd] at hstatus
    cases m <;> simp [hstatus]
  rw [if_neg hk, if_neg hd] at hstatus
  cases m with
  | encrypt | decrypt | ecbEncrypt | cbcEncrypt =>
    dsimp only at hstatus
    split at hstatus <;> simp [hstatus]
  | ecbDecrypt | cbcDecrypt =>
    dsimp only at hstatus
    split at hstatus
    next => simp [hstatus]
    next =>
      obtain ⟨hok, hbad⟩ := hstatus
      obtain h | h := (em _).imp hok hbad
      · simp [h]
      · simp [h]
  | cmac => simp [hstatus]

/-! ### No output with an error (R226, R227) -/

/-- Settles O26: a busy core shows no result yet, and a failed completion leaves DOUT and DOUT_LEN as they are. -/
theorem aFailedCommandShowsNoOutput : Obligations.AFailedCommandShowsNoOutput := by
  unfold Obligations.AFailedCommandShowsNoOutput
  intro s h hb ht
  obtain ⟨hlen, hdout⟩ := h.no_result_of_busy hb
  obtain ⟨t, hstep, hshown⟩ := theCompletionShowsExecute s h.config h.buffers.2.1 hb ht
  refine ⟨t, hstep, ?_⟩
  cases hr : execute s.cfg s.cmd s.operands with
  | ok out =>
    rw [hr] at hshown
    have hdone : t.status = statusDone := hshown.2.status
    have herr : t.err = false := congrArg (·.getLsbD 2) hdone
    exact ⟨fun hother => Bool.noConfusion (hother.symm.trans herr), fun _ => hdone⟩
  | error c =>
    rw [hr] at hshown
    have hfailed : State.FailedWith { s with turns := s.turns.tail } t c := hshown
    have herr : t.err = true := by
      rw [State.err, hfailed.status]
      cases c <;> decide
    refine ⟨fun _ => ⟨hfailed.doutLen.trans hlen, fun k => (hfailed.dout k).trans ?_, c, hfailed.status⟩,
      fun hother => Bool.noConfusion (hother.symm.trans herr)⟩
    exact congrArg (Memory.read · k) hdout

end Sys2Proof.Machine
end
